-- ==== Sys2Proof/Word.lean ====
section
/-!
DEFINITION. The word types of the machine: spec/00_scope.md R6 (XLEN 64, NREG 32, AW 64, ILEN 32).
-/

namespace Sys2Proof

/-- A 64-bit register value, immediate or byte address (R6: XLEN = AW = 64). -/
abbrev Word := BitVec 64

/-- The addressable unit of the bus (20_memory.md R40). -/
abbrev Byte := BitVec 8

/-- A decoded register index, 0 to 31 (30_encoding.md R61). -/
abbrev RegIdx := BitVec 5

/-- A fetched instruction word (R6: ILEN = 32). -/
abbrev InstrWord := BitVec 32

end Sys2Proof
end

