-- ==== Sys2Proof/Machine/Flags.lean ====
section
/-!
DEFINITION. The machine has no flags (spec/10_state.md R29): branches compare two registers directly, and the
set-less-than instructions write the comparison's 0 or 1 to a register. These are the comparisons.
-/

namespace Sys2Proof.Machine

/-- `s(a) < s(b)` (00_scope.md R7). -/
def lessSigned (a b : Word) : Bool := a.slt b

/-- `u(a) < u(b)` (00_scope.md R7). -/
def lessUnsigned (a b : Word) : Bool := a.ult b

/-- `cond ? 1 : 0` (41_integer_alu.md R132). -/
def flagWord (cond : Bool) : Word := if cond then 1 else 0

end Sys2Proof.Machine
end

