-- ==== Sys2Proof/Syntax.lean ====
section
/-!
DEFINITION. The decoder's output record (spec/30_encoding.md R83): one constructor per row of
spec/opcode_table.json, with the fields the record carries, and the 72 mnemonics as names (R92).
-/

namespace Sys2Proof

/-- The 72 mnemonics of the opcode table (30_encoding.md R92), the elements of IMPLEMENTED
(40_execution_cycle.md R115). -/
inductive Mnemonic where
  | add | sub | slt | sltu | xor | or | and | addi | slti | sltiu | xori | ori | andi | lui
  | auipc | lb | lh | lw | ld | lbu | lhu | lwu | sb | sh | sw | sd | jal | jalr | beq | bne
  | blt | bge | bltu | bgeu | sll | srl | sra | slli | srli | srai | addiw | slliw | srliw
  | sraiw | addw | subw | sllw | srlw | sraw | mul | mulh | mulhsu | mulhu | div | divu | rem
  | remu | mulw | divw | divuw | remw | remuw | fence | fenceI | ecall | ebreak | csrrw | csrrs
  | csrrc | csrrwi | csrrsi | csrrci
  deriving DecidableEq, Repr

/-- A decoded instruction. Register fields are indices 0 to 31; immediates are the 64-bit signed values of
30_encoding.md R63 to R67; in the CSR forms `rs1` is the register index or zimm (R69) and the CSR number is
`imm[11:0]`. The fence, ECALL and EBREAK records carry nothing; `unknown` carries the whole word (R82). -/
inductive Instr where
  -- 41_integer_alu.md
  | add (rd rs1 rs2 : RegIdx)
  | sub (rd rs1 rs2 : RegIdx)
  | slt (rd rs1 rs2 : RegIdx)
  | sltu (rd rs1 rs2 : RegIdx)
  | xor (rd rs1 rs2 : RegIdx)
  | or (rd rs1 rs2 : RegIdx)
  | and (rd rs1 rs2 : RegIdx)
  | addi (rd rs1 : RegIdx) (imm : Word)
  | slti (rd rs1 : RegIdx) (imm : Word)
  | sltiu (rd rs1 : RegIdx) (imm : Word)
  | xori (rd rs1 : RegIdx) (imm : Word)
  | ori (rd rs1 : RegIdx) (imm : Word)
  | andi (rd rs1 : RegIdx) (imm : Word)
  | lui (rd : RegIdx) (imm : Word)
  | auipc (rd : RegIdx) (imm : Word)
  -- 42_loads_stores.md
  | lb (rd rs1 : RegIdx) (imm : Word)
  | lh (rd rs1 : RegIdx) (imm : Word)
  | lw (rd rs1 : RegIdx) (imm : Word)
  | ld (rd rs1 : RegIdx) (imm : Word)
  | lbu (rd rs1 : RegIdx) (imm : Word)
  | lhu (rd rs1 : RegIdx) (imm : Word)
  | lwu (rd rs1 : RegIdx) (imm : Word)
  | sb (rs1 rs2 : RegIdx) (imm : Word)
  | sh (rs1 rs2 : RegIdx) (imm : Word)
  | sw (rs1 rs2 : RegIdx) (imm : Word)
  | sd (rs1 rs2 : RegIdx) (imm : Word)
  -- 43_control_transfer.md
  | jal (rd : RegIdx) (imm : Word)
  | jalr (rd rs1 : RegIdx) (imm : Word)
  | beq (rs1 rs2 : RegIdx) (imm : Word)
  | bne (rs1 rs2 : RegIdx) (imm : Word)
  | blt (rs1 rs2 : RegIdx) (imm : Word)
  | bge (rs1 rs2 : RegIdx) (imm : Word)
  | bltu (rs1 rs2 : RegIdx) (imm : Word)
  | bgeu (rs1 rs2 : RegIdx) (imm : Word)
  -- 44_shifts_word.md
  | sll (rd rs1 rs2 : RegIdx)
  | srl (rd rs1 rs2 : RegIdx)
  | sra (rd rs1 rs2 : RegIdx)
  | slli (rd rs1 : RegIdx) (shamt : BitVec 6)
  | srli (rd rs1 : RegIdx) (shamt : BitVec 6)
  | srai (rd rs1 : RegIdx) (shamt : BitVec 6)
  | addiw (rd rs1 : RegIdx) (imm : Word)
  | slliw (rd rs1 : RegIdx) (shamt : BitVec 5)
  | srliw (rd rs1 : RegIdx) (shamt : BitVec 5)
  | sraiw (rd rs1 : RegIdx) (shamt : BitVec 5)
  | addw (rd rs1 rs2 : RegIdx)
  | subw (rd rs1 rs2 : RegIdx)
  | sllw (rd rs1 rs2 : RegIdx)
  | srlw (rd rs1 rs2 : RegIdx)
  | sraw (rd rs1 rs2 : RegIdx)
  -- 45_muldiv.md
  | mul (rd rs1 rs2 : RegIdx)
  | mulh (rd rs1 rs2 : RegIdx)
  | mulhsu (rd rs1 rs2 : RegIdx)
  | mulhu (rd rs1 rs2 : RegIdx)
  | div (rd rs1 rs2 : RegIdx)
  | divu (rd rs1 rs2 : RegIdx)
  | rem (rd rs1 rs2 : RegIdx)
  | remu (rd rs1 rs2 : RegIdx)
  | mulw (rd rs1 rs2 : RegIdx)
  | divw (rd rs1 rs2 : RegIdx)
  | divuw (rd rs1 rs2 : RegIdx)
  | remw (rd rs1 rs2 : RegIdx)
  | remuw (rd rs1 rs2 : RegIdx)
  -- 46_system_csr.md
  | fence
  | fenceI
  | ecall
  | ebreak
  | csrrw (rd rs1 : RegIdx) (imm : Word)
  | csrrs (rd rs1 : RegIdx) (imm : Word)
  | csrrc (rd rs1 : RegIdx) (imm : Word)
  | csrrwi (rd rs1 : RegIdx) (imm : Word)
  | csrrsi (rd rs1 : RegIdx) (imm : Word)
  | csrrci (rd rs1 : RegIdx) (imm : Word)
  -- 30_encoding.md R82
  | unknown (word : InstrWord)
  deriving DecidableEq, Repr

end Sys2Proof
end

