-- ==== Sys2Proof/Machine/OpcodeTable.lean ====
section
/-!
DEFINITION. The opcode table (spec/30_encoding.md R92): for every mnemonic its match and mask, its spelling, and which
mnemonics execute by default (spec/40_execution_cycle.md R115).
-/

namespace Sys2Proof

/-- The mnemonic of a decoded record, none for Unknown (30_encoding.md R83). -/
def Instr.mnemonic? : Instr → Option Mnemonic
  | .add _ _ _ => some .add
  | .sub _ _ _ => some .sub
  | .slt _ _ _ => some .slt
  | .sltu _ _ _ => some .sltu
  | .xor _ _ _ => some .xor
  | .or _ _ _ => some .or
  | .and _ _ _ => some .and
  | .addi _ _ _ => some .addi
  | .slti _ _ _ => some .slti
  | .sltiu _ _ _ => some .sltiu
  | .xori _ _ _ => some .xori
  | .ori _ _ _ => some .ori
  | .andi _ _ _ => some .andi
  | .lui _ _ => some .lui
  | .auipc _ _ => some .auipc
  | .lb _ _ _ => some .lb
  | .lh _ _ _ => some .lh
  | .lw _ _ _ => some .lw
  | .ld _ _ _ => some .ld
  | .lbu _ _ _ => some .lbu
  | .lhu _ _ _ => some .lhu
  | .lwu _ _ _ => some .lwu
  | .sb _ _ _ => some .sb
  | .sh _ _ _ => some .sh
  | .sw _ _ _ => some .sw
  | .sd _ _ _ => some .sd
  | .jal _ _ => some .jal
  | .jalr _ _ _ => some .jalr
  | .beq _ _ _ => some .beq
  | .bne _ _ _ => some .bne
  | .blt _ _ _ => some .blt
  | .bge _ _ _ => some .bge
  | .bltu _ _ _ => some .bltu
  | .bgeu _ _ _ => some .bgeu
  | .sll _ _ _ => some .sll
  | .srl _ _ _ => some .srl
  | .sra _ _ _ => some .sra
  | .slli _ _ _ => some .slli
  | .srli _ _ _ => some .srli
  | .srai _ _ _ => some .srai
  | .addiw _ _ _ => some .addiw
  | .slliw _ _ _ => some .slliw
  | .srliw _ _ _ => some .srliw
  | .sraiw _ _ _ => some .sraiw
  | .addw _ _ _ => some .addw
  | .subw _ _ _ => some .subw
  | .sllw _ _ _ => some .sllw
  | .srlw _ _ _ => some .srlw
  | .sraw _ _ _ => some .sraw
  | .mul _ _ _ => some .mul
  | .mulh _ _ _ => some .mulh
  | .mulhsu _ _ _ => some .mulhsu
  | .mulhu _ _ _ => some .mulhu
  | .div _ _ _ => some .div
  | .divu _ _ _ => some .divu
  | .rem _ _ _ => some .rem
  | .remu _ _ _ => some .remu
  | .mulw _ _ _ => some .mulw
  | .divw _ _ _ => some .divw
  | .divuw _ _ _ => some .divuw
  | .remw _ _ _ => some .remw
  | .remuw _ _ _ => some .remuw
  | .fence => some .fence
  | .fenceI => some .fenceI
  | .ecall => some .ecall
  | .ebreak => some .ebreak
  | .csrrw _ _ _ => some .csrrw
  | .csrrs _ _ _ => some .csrrs
  | .csrrc _ _ _ => some .csrrc
  | .csrrwi _ _ _ => some .csrrwi
  | .csrrsi _ _ _ => some .csrrsi
  | .csrrci _ _ _ => some .csrrci
  | .unknown _ => none

/-- The spelling of the opcode table (30_encoding.md R92). -/
def Mnemonic.name : Mnemonic → String
  | .add => "ADD"
  | .sub => "SUB"
  | .slt => "SLT"
  | .sltu => "SLTU"
  | .xor => "XOR"
  | .or => "OR"
  | .and => "AND"
  | .addi => "ADDI"
  | .slti => "SLTI"
  | .sltiu => "SLTIU"
  | .xori => "XORI"
  | .ori => "ORI"
  | .andi => "ANDI"
  | .lui => "LUI"
  | .auipc => "AUIPC"
  | .lb => "LB"
  | .lh => "LH"
  | .lw => "LW"
  | .ld => "LD"
  | .lbu => "LBU"
  | .lhu => "LHU"
  | .lwu => "LWU"
  | .sb => "SB"
  | .sh => "SH"
  | .sw => "SW"
  | .sd => "SD"
  | .jal => "JAL"
  | .jalr => "JALR"
  | .beq => "BEQ"
  | .bne => "BNE"
  | .blt => "BLT"
  | .bge => "BGE"
  | .bltu => "BLTU"
  | .bgeu => "BGEU"
  | .sll => "SLL"
  | .srl => "SRL"
  | .sra => "SRA"
  | .slli => "SLLI"
  | .srli => "SRLI"
  | .srai => "SRAI"
  | .addiw => "ADDIW"
  | .slliw => "SLLIW"
  | .srliw => "SRLIW"
  | .sraiw => "SRAIW"
  | .addw => "ADDW"
  | .subw => "SUBW"
  | .sllw => "SLLW"
  | .srlw => "SRLW"
  | .sraw => "SRAW"
  | .mul => "MUL"
  | .mulh => "MULH"
  | .mulhsu => "MULHSU"
  | .mulhu => "MULHU"
  | .div => "DIV"
  | .divu => "DIVU"
  | .rem => "REM"
  | .remu => "REMU"
  | .mulw => "MULW"
  | .divw => "DIVW"
  | .divuw => "DIVUW"
  | .remw => "REMW"
  | .remuw => "REMUW"
  | .fence => "FENCE"
  | .fenceI => "FENCE.I"
  | .ecall => "ECALL"
  | .ebreak => "EBREAK"
  | .csrrw => "CSRRW"
  | .csrrs => "CSRRS"
  | .csrrc => "CSRRC"
  | .csrrwi => "CSRRWI"
  | .csrrsi => "CSRRSI"
  | .csrrci => "CSRRCI"

/-- The bits that a row of the table fixes (30_encoding.md R92, column match). -/
def Mnemonic.matchBits : Mnemonic → InstrWord
  | .add => 0x00000033#32
  | .sub => 0x40000033#32
  | .slt => 0x00002033#32
  | .sltu => 0x00003033#32
  | .xor => 0x00004033#32
  | .or => 0x00006033#32
  | .and => 0x00007033#32
  | .addi => 0x00000013#32
  | .slti => 0x00002013#32
  | .sltiu => 0x00003013#32
  | .xori => 0x00004013#32
  | .ori => 0x00006013#32
  | .andi => 0x00007013#32
  | .lui => 0x00000037#32
  | .auipc => 0x00000017#32
  | .lb => 0x00000003#32
  | .lh => 0x00001003#32
  | .lw => 0x00002003#32
  | .ld => 0x00003003#32
  | .lbu => 0x00004003#32
  | .lhu => 0x00005003#32
  | .lwu => 0x00006003#32
  | .sb => 0x00000023#32
  | .sh => 0x00001023#32
  | .sw => 0x00002023#32
  | .sd => 0x00003023#32
  | .jal => 0x0000006F#32
  | .jalr => 0x00000067#32
  | .beq => 0x00000063#32
  | .bne => 0x00001063#32
  | .blt => 0x00004063#32
  | .bge => 0x00005063#32
  | .bltu => 0x00006063#32
  | .bgeu => 0x00007063#32
  | .sll => 0x00001033#32
  | .srl => 0x00005033#32
  | .sra => 0x40005033#32
  | .slli => 0x00001013#32
  | .srli => 0x00005013#32
  | .srai => 0x40005013#32
  | .addiw => 0x0000001B#32
  | .slliw => 0x0000101B#32
  | .srliw => 0x0000501B#32
  | .sraiw => 0x4000501B#32
  | .addw => 0x0000003B#32
  | .subw => 0x4000003B#32
  | .sllw => 0x0000103B#32
  | .srlw => 0x0000503B#32
  | .sraw => 0x4000503B#32
  | .mul => 0x02000033#32
  | .mulh => 0x02001033#32
  | .mulhsu => 0x02002033#32
  | .mulhu => 0x02003033#32
  | .div => 0x02004033#32
  | .divu => 0x02005033#32
  | .rem => 0x02006033#32
  | .remu => 0x02007033#32
  | .mulw => 0x0200003B#32
  | .divw => 0x0200403B#32
  | .divuw => 0x0200503B#32
  | .remw => 0x0200603B#32
  | .remuw => 0x0200703B#32
  | .fence => 0x0000000F#32
  | .fenceI => 0x0000100F#32
  | .ecall => 0x00000073#32
  | .ebreak => 0x00100073#32
  | .csrrw => 0x00001073#32
  | .csrrs => 0x00002073#32
  | .csrrc => 0x00003073#32
  | .csrrwi => 0x00005073#32
  | .csrrsi => 0x00006073#32
  | .csrrci => 0x00007073#32

/-- Which bits a row of the table fixes (30_encoding.md R92, column mask). -/
def Mnemonic.mask : Mnemonic → InstrWord
  | .add => 0xFE00707F#32
  | .sub => 0xFE00707F#32
  | .slt => 0xFE00707F#32
  | .sltu => 0xFE00707F#32
  | .xor => 0xFE00707F#32
  | .or => 0xFE00707F#32
  | .and => 0xFE00707F#32
  | .addi => 0x0000707F#32
  | .slti => 0x0000707F#32
  | .sltiu => 0x0000707F#32
  | .xori => 0x0000707F#32
  | .ori => 0x0000707F#32
  | .andi => 0x0000707F#32
  | .lui => 0x0000007F#32
  | .auipc => 0x0000007F#32
  | .lb => 0x0000707F#32
  | .lh => 0x0000707F#32
  | .lw => 0x0000707F#32
  | .ld => 0x0000707F#32
  | .lbu => 0x0000707F#32
  | .lhu => 0x0000707F#32
  | .lwu => 0x0000707F#32
  | .sb => 0x0000707F#32
  | .sh => 0x0000707F#32
  | .sw => 0x0000707F#32
  | .sd => 0x0000707F#32
  | .jal => 0x0000007F#32
  | .jalr => 0x0000707F#32
  | .beq => 0x0000707F#32
  | .bne => 0x0000707F#32
  | .blt => 0x0000707F#32
  | .bge => 0x0000707F#32
  | .bltu => 0x0000707F#32
  | .bgeu => 0x0000707F#32
  | .sll => 0xFE00707F#32
  | .srl => 0xFE00707F#32
  | .sra => 0xFE00707F#32
  | .slli => 0xFC00707F#32
  | .srli => 0xFC00707F#32
  | .srai => 0xFC00707F#32
  | .addiw => 0x0000707F#32
  | .slliw => 0xFE00707F#32
  | .srliw => 0xFE00707F#32
  | .sraiw => 0xFE00707F#32
  | .addw => 0xFE00707F#32
  | .subw => 0xFE00707F#32
  | .sllw => 0xFE00707F#32
  | .srlw => 0xFE00707F#32
  | .sraw => 0xFE00707F#32
  | .mul => 0xFE00707F#32
  | .mulh => 0xFE00707F#32
  | .mulhsu => 0xFE00707F#32
  | .mulhu => 0xFE00707F#32
  | .div => 0xFE00707F#32
  | .divu => 0xFE00707F#32
  | .rem => 0xFE00707F#32
  | .remu => 0xFE00707F#32
  | .mulw => 0xFE00707F#32
  | .divw => 0xFE00707F#32
  | .divuw => 0xFE00707F#32
  | .remw => 0xFE00707F#32
  | .remuw => 0xFE00707F#32
  | .fence => 0x0000707F#32
  | .fenceI => 0x0000707F#32
  | .ecall => 0xFFFFFFFF#32
  | .ebreak => 0xFFFFFFFF#32
  | .csrrw => 0x0000707F#32
  | .csrrs => 0x0000707F#32
  | .csrrc => 0x0000707F#32
  | .csrrwi => 0x0000707F#32
  | .csrrsi => 0x0000707F#32
  | .csrrci => 0x0000707F#32

/-- The test a row stands for, `(w & mask) == match` (30_encoding.md R92). -/
def Mnemonic.matchesWord (m : Mnemonic) (w : InstrWord) : Bool :=
  w &&& m.mask == m.matchBits

/-- The 34 mnemonics of the reference set (40_execution_cycle.md R115). -/
def Mnemonic.referenceSet : List Mnemonic :=
  [.add, .sub, .slt, .sltu, .xor, .or, .and, .addi, .slti, .sltiu, .xori, .ori, .andi, .lui,
   .auipc, .lb, .lh, .lw, .ld, .lbu, .lhu, .lwu, .sb, .sh, .sw, .sd, .jal, .jalr, .beq,
   .bne, .blt, .bge, .bltu, .bgeu]

/-- The 30 backlog mnemonics that may be added to IMPLEMENTED (40_execution_cycle.md R115). -/
def Mnemonic.backlog : List Mnemonic :=
  [.sll, .srl, .sra, .slli, .srli, .srai, .addiw, .slliw, .srliw, .sraiw, .addw, .subw,
   .sllw, .srlw, .sraw, .mul, .mulh, .mulhsu, .mulhu, .div, .divu, .rem, .remu, .mulw,
   .divw, .divuw, .remw, .remuw, .fence, .fenceI]

/-- The 8 mnemonics that are in no IMPLEMENTED (40_execution_cycle.md R115). -/
def Mnemonic.neverImplemented : List Mnemonic :=
  [.ecall, .ebreak, .csrrw, .csrrs, .csrrc, .csrrwi, .csrrsi, .csrrci]

/-- Every row of the opcode table (30_encoding.md R92). -/
def Mnemonic.all : List Mnemonic :=
  Mnemonic.referenceSet ++ Mnemonic.backlog ++ Mnemonic.neverImplemented

/-- No row of the opcode table matches: the word decodes as Unknown (30_encoding.md R82). -/
def matchesNoRow (w : InstrWord) : Bool :=
  Mnemonic.all.all fun m => !m.matchesWord w

end Sys2Proof
end

