-- ==== Sys2Proof/Config.lean ====
section
/-!
DEFINITION. The parameters a machine is built with (spec/00_scope.md R6) and the one free value of the spec.
-/

namespace Sys2Proof

/-- MISALIGNED_PC: what a step does at a pc that is not a multiple of 4 (40_execution_cycle.md R102, OPEN). -/
inductive MisalignedPc where
  /-- fetch the four bytes at pc as usual -/
  | fetch
  /-- halt with FetchError (Misaligned, pc) before any bus access -/
  | halt
  deriving DecidableEq, Repr

/-- The configuration a step reads and nothing writes (00_scope.md R6, 10_state.md R37). -/
structure Config where
  /-- BASE, the lowest mapped byte address -/
  base : Nat
  /-- SIZE, the number of mapped bytes -/
  size : Nat
  /-- IMPLEMENTED, the mnemonics that execute (40_execution_cycle.md R115) -/
  implemented : List Mnemonic
  /-- MISALIGNED_PC -/
  misalignedPc : MisalignedPc
  deriving DecidableEq, Repr

/-- The admitted configurations: the window does not pass 2^64 (70_reset_and_hazards.md R311), and IMPLEMENTED holds
reference and backlog mnemonics only (40_execution_cycle.md R115). -/
abbrev Config.wf (c : Config) : Prop :=
  c.base + c.size ≤ 2 ^ 64 ∧ ∀ m ∈ c.implemented, m ∈ Mnemonic.referenceSet ++ Mnemonic.backlog

/-- The configuration of State.reset. DESIGN CHOICE (unsafe), log entries 2 and 4: BASE and SIZE are the example values of
95_test_vectors.md and MISALIGNED_PC the simulator default of R102; IMPLEMENTED is the default of R115. -/
def Config.default : Config where
  base := 0x80000000
  size := 0x1000
  implemented := Mnemonic.referenceSet
  misalignedPc := .fetch

/-- The reset configuration with every backlog mnemonic enabled (40_execution_cycle.md R115). -/
def Config.allEnabled : Config :=
  { Config.default with implemented := Mnemonic.referenceSet ++ Mnemonic.backlog }

/-- WRITE_FAIL_BYTES (20_memory.md R49): bit k of the n-th draw says whether byte k of a failing store is written. A FREE
VALUE (safe), log entry 5: it has no body to reason from. -/
opaque Config.writeFailBytes : Nat → BitVec 8

end Sys2Proof
end

