-- ==== Sys2Proof/Machine/Memory.lean ====
section
/-!
DEFINITION. The backing byte store as plain data: (bus address, byte) pairs in one canonical form. An address that is not
listed reads as 0, the construction contents beyond the image (spec/10_state.md R33).
-/

namespace Sys2Proof.Machine

/-- The bytes of the store that are not zero, by bus address, addresses strictly rising. -/
abbrev Memory := List Host.Cell

/-- The canonical form: addresses strictly rising, no listed byte zero. -/
abbrev Memory.wf (m : Memory) : Prop :=
  m.Pairwise (fun c d => c.1 < d.1) ∧ ∀ c ∈ m, c.2 ≠ 0

/-- The byte at a bus address; 0 where nothing is listed (10_state.md R33). -/
def Memory.read : Memory → Nat → Byte
  | [], _ => 0
  | c :: rest, a => if a = c.1 then c.2 else Memory.read rest a

/-- Lists a byte at its place in the rising order, replacing the byte that stands there. -/
def Memory.put : Memory → Nat → Byte → Memory
  | [], a, v => [(a, v)]
  | c :: rest, a, v =>
    if a < c.1 then (a, v) :: c :: rest
    else if a = c.1 then (a, v) :: rest
    else c :: Memory.put rest a v

/-- Writes one byte; writing 0, what an unlisted address reads as, removes the entry. -/
def Memory.write (m : Memory) (a : Nat) (v : Byte) : Memory :=
  if v = 0 then m.filter (fun c => c.1 != a) else Memory.put m a v

/-- The n bytes from address a as a little-endian number: the sum of `byte k << 8k` (20_memory.md R42, R45). -/
def Memory.readLE (m : Memory) (a : Nat) : Nat → Nat
  | 0 => 0
  | n + 1 => (Memory.read m a).toNat + 256 * Memory.readLE m (a + 1) n

/-- Writes the low n bytes of v from address a upward, least significant first (20_memory.md R43, R45). -/
def Memory.writeLE (m : Memory) (a : Nat) : Nat → Word → Memory
  | 0, _ => m
  | n + 1, v => Memory.writeLE (Memory.write m a (v.setWidth 8)) (a + 1) n (v >>> 8)

/-- The store after construction: the image from address a upward, zeros beyond it (10_state.md R33). -/
def Memory.ofImage (a : Nat) : List Byte → Memory
  | [] => []
  | b :: bs => if b = 0 then Memory.ofImage (a + 1) bs else (a, b) :: Memory.ofImage (a + 1) bs

end Sys2Proof.Machine
end

