-- ==== Sys2Proof/Machine/State.lean ====
section
/-!
DEFINITION. The machine's state (spec/10_state.md R20), the configuration it runs under (R37), the reasons a step can stop,
and the state after reset, which is construction (spec/70_reset_and_hazards.md R310).
-/

namespace Sys2Proof.Machine

/-- The cause of a FetchError (60_exceptions.md R281, R282). -/
inductive FetchCause where
  | unmapped
  | misaligned
  deriving DecidableEq, Repr

/-- The error values a halt records (60_exceptions.md R281). -/
inductive HaltReason where
  /-- the fetch at pc failed (R282) -/
  | fetchError (cause : FetchCause) (pc : Word)
  /-- an Unknown word (R283) or a recognised instruction outside IMPLEMENTED (R284) -/
  | notImplemented (d : Instr)
  /-- a load's access failed (R285) -/
  | readFailed (ea : Word)
  /-- a store's access failed (R286) -/
  | writeFailed (ea : Word)
  deriving DecidableEq, Repr

/-- No step faults: every error of this machine is a halt, a described change of state (60_exceptions.md R289), so the
type has no constructor. Nobody raises one (safe). -/
inductive Fault where
  deriving DecidableEq, Repr

/-- Why an instruction has no meaning. -/
inductive Refusal where
  /-- Raised by an arm of exec whose instruction has no meaning yet; no arm raises it (safe). -/
  | notModelled (mnemonic : String)
  deriving DecidableEq, Repr

/-- The architectural state (10_state.md R20), with the configuration the step reads (R37, log entry 1) and the model's own
draw counter (log entry 5). -/
structure State where
  /-- the construction parameters; no instruction reads or writes them (R37) -/
  cfg : Config
  /-- x1 to x31, x1 in slot 0; x0 is hard-wired and not stored (R21, R22) -/
  regs : Vector Word 31
  /-- the program counter (R28) -/
  pc : Word
  /-- the running flag (R26) -/
  running : Bool
  /-- the recorded error (R27) -/
  haltReason : Option HaltReason
  /-- the backing store by bus address (R33, 20_memory.md R41) -/
  mem : Memory
  /-- the model's own: how many WRITE_FAIL_BYTES draws were made -/
  draws : Nat
  deriving DecidableEq, Repr

/-- The state construction leaves (70_reset_and_hazards.md R310): `regInit` is REG_INIT for x1 to x31, of which x2's is
replaced by BASE + SIZE mod 2^64 (10_state.md R25). DESIGN CHOICE (unsafe), log entry 16: at BASE = 2^64 with SIZE = 0, which
R6 and R311 admit, BASE does not fit the 64-bit pc and the spec gives pc no value; the model takes BASE mod 2^64, so pc = 0. -/
def State.init (cfg : Config) (regInit : Vector Word 31) (image : List Byte) : State where
  cfg := cfg
  regs := regInit.set 1 (BitVec.ofNat 64 (cfg.base + cfg.size))
  pc := BitVec.ofNat 64 cfg.base
  running := true
  haltReason := none
  mem := Memory.ofImage cfg.base image
  draws := 0

/-- The machine right after reset: construction at the default configuration with an empty image. DESIGN CHOICE (unsafe),
log entry 3: REG_INIT is 0, the value R34 gives a simulator. -/
def State.reset : State := State.init Config.default (Vector.replicate 31 0#64) []

end Sys2Proof.Machine
end

