-- ==== Sys2Proof/Machine/Ops.lean ====
section
/-!
DEFINITION. The named operations over registers, pc, memory bus and halt that every meaning is built from.
-/

namespace Sys2Proof.Machine

/-- The outcome of a step or a meaning. -/
abbrev Result := Host.Outcome State Fault Refusal

/-! ### Register file (10_state.md R21 to R23) -/

/-- Read port: `x[i]`, 0 for i = 0 (R22). -/
def State.x (s : State) (i : RegIdx) : Word :=
  if h : i = 0 then 0
  else s.regs[i.toNat - 1]'(by have := i.isLt; omega)

/-- Write port: `x[i] <- v`, discarded for i = 0 (R23). -/
def State.setX (s : State) (i : RegIdx) (v : Word) : State :=
  if h : i = 0 then s
  else { s with regs := s.regs.set (i.toNat - 1) v (by have := i.isLt; omega) }

/-! ### Program-counter sequencer (40_execution_cycle.md R109, R110, R112) -/

/-- Sequential: `pc <- pc + 4` mod 2^64 (R109). -/
def State.sequential (s : State) : State := { s with pc := s.pc + 4 }

/-- Transfer(t): execute sets t - 4 and the step adds 4, once, here (R110). -/
def State.transfer (s : State) (t : Word) : State := { s with pc := (t - 4) + 4 }

/-! ### Halt, the only trap entry (60_exceptions.md R289). There is no return from it (R292). -/

/-- `raise Halt(kind, info)`: running and halt_reason change, nothing else (40_execution_cycle.md R111). -/
def State.halt (s : State) (r : HaltReason) : State := { s with running := false, haltReason := some r }

/-- Ends the step with the halt. -/
def raiseHalt (r : HaltReason) (s : State) : Result := .next (s.halt r)

/-! ### Memory bus (20_memory.md) -/

/-- `InWindow(addr, n)`, in exact arithmetic (R44). -/
def inWindow (c : Config) (a : Word) (n : Nat) : Bool :=
  c.base ≤ a.toNat && a.toNat - c.base + n ≤ c.size

/-- `MemRead(addr, n)`: the 8n-bit little-endian value, or none for AddressError (R42, R50). -/
def busRead (s : State) (a : Word) (n : Nat) : Option (BitVec (8 * n)) :=
  if inWindow s.cfg a n then some (BitVec.ofNat (8 * n) (Memory.readLE s.mem a.toNat n)) else none

/-- What a failing write leaves (R49): byte k, from k on to k + n - 1, of address `(addr + k) mod 2^64` takes its new value
when it lies in the window and bit k of the draw says so. -/
def failedBytes (c : Config) (draw : BitVec 8) (a v : Word) (m : Memory) (k : Nat) : Nat → Memory
  | 0 => m
  | n + 1 =>
    let ak := a + BitVec.ofNat 64 k
    let m' := if inWindow c ak 1 && draw.getLsbD k then Memory.write m ak.toNat (v.extractLsb' (8 * k) 8) else m
    failedBytes c draw a v m' (k + 1) n

/-- `FailedWrite(addr, n, v)` with the next WRITE_FAIL_BYTES draw (R49), a free value (safe), log entry 5. -/
def failedWrite (s : State) (a : Word) (n : Nat) (v : Word) : State :=
  { s with
    mem := failedBytes s.cfg (Config.writeFailBytes s.draws) a v s.mem 0 n
    draws := s.draws + 1 }

/-- `MemWrite(addr, n, v)`: `ok` with the bytes written, or `error`, for AddressError, with what the failing write left
(R43, R49). -/
def busWrite (s : State) (a : Word) (n : Nat) (v : Word) : Except State State :=
  if inWindow s.cfg a n then .ok { s with mem := Memory.writeLE s.mem a.toNat n v }
  else .error (failedWrite s a n v)

/-- The four bytes of an instruction word placed at pc, as an image that holds it there would (10_state.md R33); nothing
where pc is not mapped. -/
def placeAtPc (s : State) (w : InstrWord) : State :=
  match busWrite s s.pc 4 (w.setWidth 64) with
  | .ok s' => s'
  | .error _ => s

/-! ### The shape of a completed instruction (40_execution_cycle.md R106, R109, R110) -/

/-- Writes the result to rd and goes on in sequence. -/
def writeBack (rd : RegIdx) (v : Word) (s : State) : Result := .next (s.setX rd v).sequential

/-- Writes the link to rd and transfers to t. -/
def linkAndJump (rd : RegIdx) (link t : Word) (s : State) : Result := .next ((s.setX rd link).transfer t)

/-- Transfers to t when the condition holds, else goes on in sequence. -/
def branchIf (cond : Bool) (t : Word) (s : State) : Result := .next (if cond then s.transfer t else s.sequential)

end Sys2Proof.Machine
end

