-- ==== Sys2Proof/Machine/Operands.lean ====
section
/-!
DEFINITION. Operand forms: sign and zero extension, the 32-bit view of a word, shift amounts, effective addresses and
control-transfer targets.
-/

namespace Sys2Proof.Machine

/-- `sext_N`: the value's sign bit copied up to bit 63 (00_scope.md R7). -/
def sextWord {n : Nat} (v : BitVec n) : Word := v.signExtend 64

/-- `zext_N`: zeros up to bit 63 (00_scope.md R7). -/
def zextWord {n : Nat} (v : BitVec n) : Word := v.setWidth 64

/-- `a[31:0]`, the operand of a word instruction (44_shifts_word.md R200). -/
def low32 (a : Word) : BitVec 32 := a.setWidth 32

/-- `b[5:0]`, the amount of a 64-bit register shift (44_shifts_word.md R201). -/
def amount6 (b : Word) : Nat := (b.extractLsb' 0 6).toNat

/-- `b[4:0]`, the amount of a word register shift (44_shifts_word.md R213). -/
def amount5 (b : Word) : Nat := (b.extractLsb' 0 5).toNat

/-- `ea = (x[rs1] + imm) mod 2^64` (42_loads_stores.md R160). -/
def effectiveAddress (s : State) (rs1 : RegIdx) (imm : Word) : Word := s.x rs1 + imm

/-- The link value, `pc + 4` (43_control_transfer.md R180). -/
def linkValue (s : State) : Word := s.pc + 4

/-- The target of JAL and the branches, `pc + imm` (43_control_transfer.md R180). -/
def pcTarget (s : State) (imm : Word) : Word := s.pc + imm

/-- The target of JALR, `(x[rs1] + imm) & ~1` (43_control_transfer.md R180). -/
def jalrTarget (s : State) (rs1 : RegIdx) (imm : Word) : Word := (s.x rs1 + imm) &&& ~~~1#64

end Sys2Proof.Machine
end

