-- ==== Sys2Proof/Machine/ControlTransfer.lean ====
section
/-!
DEFINITION. Jumps and conditional branches (spec/43_control_transfer.md). None accesses memory or halts; a bad target takes effect at
the next fetch.
-/

namespace Sys2Proof.Machine

/-- JAL rd, offset (R181). -/
def execJal (rd : RegIdx) (imm : Word) (s : State) : Result :=
  linkAndJump rd (linkValue s) (pcTarget s imm) s

/-- JALR rd, imm(rs1) (R182); the target uses x[rs1] from before the link is written (40_execution_cycle.md R106). -/
def execJalr (rd rs1 : RegIdx) (imm : Word) (s : State) : Result :=
  linkAndJump rd (linkValue s) (jalrTarget s rs1 imm) s

/-- BEQ rs1, rs2, offset (R183). -/
def execBeq (rs1 rs2 : RegIdx) (imm : Word) (s : State) : Result :=
  branchIf (s.x rs1 == s.x rs2) (pcTarget s imm) s

/-- BNE rs1, rs2, offset (R184). -/
def execBne (rs1 rs2 : RegIdx) (imm : Word) (s : State) : Result :=
  branchIf (s.x rs1 != s.x rs2) (pcTarget s imm) s

/-- BLT rs1, rs2, offset (R185). -/
def execBlt (rs1 rs2 : RegIdx) (imm : Word) (s : State) : Result :=
  branchIf (lessSigned (s.x rs1) (s.x rs2)) (pcTarget s imm) s

/-- BGE rs1, rs2, offset (R186). -/
def execBge (rs1 rs2 : RegIdx) (imm : Word) (s : State) : Result :=
  branchIf (!lessSigned (s.x rs1) (s.x rs2)) (pcTarget s imm) s

/-- BLTU rs1, rs2, offset (R187). -/
def execBltu (rs1 rs2 : RegIdx) (imm : Word) (s : State) : Result :=
  branchIf (lessUnsigned (s.x rs1) (s.x rs2)) (pcTarget s imm) s

/-- BGEU rs1, rs2, offset (R188). -/
def execBgeu (rs1 rs2 : RegIdx) (imm : Word) (s : State) : Result :=
  branchIf (!lessUnsigned (s.x rs1) (s.x rs2)) (pcTarget s imm) s

end Sys2Proof.Machine
end

