-- ==== Sys2Proof/Machine/IntegerAlu.lean ====
section
/-!
DEFINITION. Integer arithmetic, logic and upper immediates (spec/41_integer_alu.md). None of them halts; each writes rd and goes on in
sequence.
-/

namespace Sys2Proof.Machine

/-- ADD rd, rs1, rs2 (R130). -/
def execAdd (rd rs1 rs2 : RegIdx) (s : State) : Result :=
  writeBack rd (s.x rs1 + s.x rs2) s

/-- SUB rd, rs1, rs2 (R131). -/
def execSub (rd rs1 rs2 : RegIdx) (s : State) : Result :=
  writeBack rd (s.x rs1 - s.x rs2) s

/-- SLT rd, rs1, rs2 (R132). -/
def execSlt (rd rs1 rs2 : RegIdx) (s : State) : Result :=
  writeBack rd (flagWord (lessSigned (s.x rs1) (s.x rs2))) s

/-- SLTU rd, rs1, rs2 (R133). -/
def execSltu (rd rs1 rs2 : RegIdx) (s : State) : Result :=
  writeBack rd (flagWord (lessUnsigned (s.x rs1) (s.x rs2))) s

/-- XOR rd, rs1, rs2 (R134). -/
def execXor (rd rs1 rs2 : RegIdx) (s : State) : Result :=
  writeBack rd (s.x rs1 ^^^ s.x rs2) s

/-- OR rd, rs1, rs2 (R135). -/
def execOr (rd rs1 rs2 : RegIdx) (s : State) : Result :=
  writeBack rd (s.x rs1 ||| s.x rs2) s

/-- AND rd, rs1, rs2 (R136). -/
def execAnd (rd rs1 rs2 : RegIdx) (s : State) : Result :=
  writeBack rd (s.x rs1 &&& s.x rs2) s

/-- ADDI rd, rs1, imm (R137). -/
def execAddi (rd rs1 : RegIdx) (imm : Word) (s : State) : Result :=
  writeBack rd (s.x rs1 + imm) s

/-- SLTI rd, rs1, imm (R138). -/
def execSlti (rd rs1 : RegIdx) (imm : Word) (s : State) : Result :=
  writeBack rd (flagWord (lessSigned (s.x rs1) imm)) s

/-- SLTIU rd, rs1, imm (R139). -/
def execSltiu (rd rs1 : RegIdx) (imm : Word) (s : State) : Result :=
  writeBack rd (flagWord (lessUnsigned (s.x rs1) imm)) s

/-- XORI rd, rs1, imm (R140). -/
def execXori (rd rs1 : RegIdx) (imm : Word) (s : State) : Result :=
  writeBack rd (s.x rs1 ^^^ imm) s

/-- ORI rd, rs1, imm (R141). -/
def execOri (rd rs1 : RegIdx) (imm : Word) (s : State) : Result :=
  writeBack rd (s.x rs1 ||| imm) s

/-- ANDI rd, rs1, imm (R142). -/
def execAndi (rd rs1 : RegIdx) (imm : Word) (s : State) : Result :=
  writeBack rd (s.x rs1 &&& imm) s

/-- LUI rd, imm20 (R143); imm is the decoded U immediate. -/
def execLui (rd : RegIdx) (imm : Word) (s : State) : Result :=
  writeBack rd imm s

/-- AUIPC rd, imm20 (R144); pc is the address of this AUIPC. -/
def execAuipc (rd : RegIdx) (imm : Word) (s : State) : Result :=
  writeBack rd (s.pc + imm) s

end Sys2Proof.Machine
end

