-- ==== Sys2Proof/Machine/LoadsStores.lean ====
section
/-!
DEFINITION. Loads and stores (spec/42_loads_stores.md). One addressing mode, x[rs1] + imm; no alignment rule.
-/

namespace Sys2Proof.Machine

/-- A load of n bytes with an extension (R161): ReadFailed(ea), with no register written, when the read fails. -/
def load (n : Nat) (ext : BitVec (8 * n) → Word) (rd rs1 : RegIdx) (imm : Word) (s : State) : Result :=
  match busRead s (effectiveAddress s rs1 imm) n with
  | none => raiseHalt (.readFailed (effectiveAddress s rs1 imm)) s
  | some v => writeBack rd (ext v) s

/-- A store of the low n bytes of x[rs2] (R169): WriteFailed(ea), over what the failing write left, when it fails. -/
def store (n : Nat) (rs1 rs2 : RegIdx) (imm : Word) (s : State) : Result :=
  match busWrite s (effectiveAddress s rs1 imm) n (s.x rs2) with
  | .error s' => raiseHalt (.writeFailed (effectiveAddress s rs1 imm)) s'
  | .ok s' => .next s'.sequential

/-- LB rd, imm(rs1) (R162). -/
def execLb (rd rs1 : RegIdx) (imm : Word) (s : State) : Result :=
  load 1 sextWord rd rs1 imm s

/-- LH rd, imm(rs1) (R163). -/
def execLh (rd rs1 : RegIdx) (imm : Word) (s : State) : Result :=
  load 2 sextWord rd rs1 imm s

/-- LW rd, imm(rs1) (R164). -/
def execLw (rd rs1 : RegIdx) (imm : Word) (s : State) : Result :=
  load 4 sextWord rd rs1 imm s

/-- LD rd, imm(rs1) (R165); the 64-bit value as it is. -/
def execLd (rd rs1 : RegIdx) (imm : Word) (s : State) : Result :=
  load 8 zextWord rd rs1 imm s

/-- LBU rd, imm(rs1) (R166). -/
def execLbu (rd rs1 : RegIdx) (imm : Word) (s : State) : Result :=
  load 1 zextWord rd rs1 imm s

/-- LHU rd, imm(rs1) (R167). -/
def execLhu (rd rs1 : RegIdx) (imm : Word) (s : State) : Result :=
  load 2 zextWord rd rs1 imm s

/-- LWU rd, imm(rs1) (R168). -/
def execLwu (rd rs1 : RegIdx) (imm : Word) (s : State) : Result :=
  load 4 zextWord rd rs1 imm s

/-- SB rs2, imm(rs1) (R170). -/
def execSb (rs1 rs2 : RegIdx) (imm : Word) (s : State) : Result :=
  store 1 rs1 rs2 imm s

/-- SH rs2, imm(rs1) (R171). -/
def execSh (rs1 rs2 : RegIdx) (imm : Word) (s : State) : Result :=
  store 2 rs1 rs2 imm s

/-- SW rs2, imm(rs1) (R172). -/
def execSw (rs1 rs2 : RegIdx) (imm : Word) (s : State) : Result :=
  store 4 rs1 rs2 imm s

/-- SD rs2, imm(rs1) (R173). -/
def execSd (rs1 rs2 : RegIdx) (imm : Word) (s : State) : Result :=
  store 8 rs1 rs2 imm s

end Sys2Proof.Machine
end

