-- ==== Sys2Proof/Machine/MulDiv.lean ====
section
/-!
DEFINITION. Multiply, divide and remainder (spec/45_muldiv.md), as they execute when their mnemonic is in IMPLEMENTED. No operand
value halts: division by zero and overflow have the results of R230.
-/

namespace Sys2Proof.Machine

/-- Signed quotient at width n (R230). -/
def quotSigned {n : Nat} (a b : BitVec n) : BitVec n :=
  if b = 0 then BitVec.allOnes n
  else if a = BitVec.intMin n ∧ b = BitVec.allOnes n then a
  else BitVec.ofInt n (a.toInt.tdiv b.toInt)

/-- Unsigned quotient at width n (R230). -/
def quotUnsigned {n : Nat} (a b : BitVec n) : BitVec n :=
  if b = 0 then BitVec.allOnes n
  else BitVec.ofNat n (a.toNat / b.toNat)

/-- Signed remainder at width n, with the sign of the dividend (R230). -/
def remSigned {n : Nat} (a b : BitVec n) : BitVec n :=
  if b = 0 then a
  else if a = BitVec.intMin n ∧ b = BitVec.allOnes n then 0
  else BitVec.ofInt n (a.toInt.tmod b.toInt)

/-- Unsigned remainder at width n (R230). -/
def remUnsigned {n : Nat} (a b : BitVec n) : BitVec n :=
  if b = 0 then a
  else BitVec.ofNat n (a.toNat % b.toNat)

/-- `p[127:64]` of an exact 128-bit product (R232 to R234). -/
def highHalf (p : Int) : Word := (BitVec.ofInt 128 p).extractLsb' 64 64

/-- MUL rd, rs1, rs2 (R231). -/
def execMul (rd rs1 rs2 : RegIdx) (s : State) : Result :=
  writeBack rd (s.x rs1 * s.x rs2) s

/-- MULH rd, rs1, rs2 (R232). -/
def execMulh (rd rs1 rs2 : RegIdx) (s : State) : Result :=
  writeBack rd (highHalf ((s.x rs1).toInt * (s.x rs2).toInt)) s

/-- MULHSU rd, rs1, rs2 (R233). -/
def execMulhsu (rd rs1 rs2 : RegIdx) (s : State) : Result :=
  writeBack rd (highHalf ((s.x rs1).toInt * (s.x rs2).toNat)) s

/-- MULHU rd, rs1, rs2 (R234). -/
def execMulhu (rd rs1 rs2 : RegIdx) (s : State) : Result :=
  writeBack rd (highHalf ((s.x rs1).toNat * (s.x rs2).toNat)) s

/-- DIV rd, rs1, rs2 (R235). -/
def execDiv (rd rs1 rs2 : RegIdx) (s : State) : Result :=
  writeBack rd (quotSigned (s.x rs1) (s.x rs2)) s

/-- DIVU rd, rs1, rs2 (R236). -/
def execDivu (rd rs1 rs2 : RegIdx) (s : State) : Result :=
  writeBack rd (quotUnsigned (s.x rs1) (s.x rs2)) s

/-- REM rd, rs1, rs2 (R237). -/
def execRem (rd rs1 rs2 : RegIdx) (s : State) : Result :=
  writeBack rd (remSigned (s.x rs1) (s.x rs2)) s

/-- REMU rd, rs1, rs2 (R238). -/
def execRemu (rd rs1 rs2 : RegIdx) (s : State) : Result :=
  writeBack rd (remUnsigned (s.x rs1) (s.x rs2)) s

/-- MULW rd, rs1, rs2 (R239). -/
def execMulw (rd rs1 rs2 : RegIdx) (s : State) : Result :=
  writeBack rd (sextWord (low32 (s.x rs1) * low32 (s.x rs2))) s

/-- DIVW rd, rs1, rs2 (R240). -/
def execDivw (rd rs1 rs2 : RegIdx) (s : State) : Result :=
  writeBack rd (sextWord (quotSigned (low32 (s.x rs1)) (low32 (s.x rs2)))) s

/-- DIVUW rd, rs1, rs2 (R241). -/
def execDivuw (rd rs1 rs2 : RegIdx) (s : State) : Result :=
  writeBack rd (sextWord (quotUnsigned (low32 (s.x rs1)) (low32 (s.x rs2)))) s

/-- REMW rd, rs1, rs2 (R242). -/
def execRemw (rd rs1 rs2 : RegIdx) (s : State) : Result :=
  writeBack rd (sextWord (remSigned (low32 (s.x rs1)) (low32 (s.x rs2)))) s

/-- REMUW rd, rs1, rs2 (R243). -/
def execRemuw (rd rs1 rs2 : RegIdx) (s : State) : Result :=
  writeBack rd (sextWord (remUnsigned (low32 (s.x rs1)) (low32 (s.x rs2)))) s

end Sys2Proof.Machine
end

