-- ==== Sys2Proof/Machine/ShiftsWord.lean ====
section
/-!
DEFINITION. Shifts and 32-bit word variants (spec/44_shifts_word.md), as they execute when their mnemonic is in IMPLEMENTED; the gate
of the step (Machine/Fetch.lean) halts before them when it is not.
-/

namespace Sys2Proof.Machine

/-- SLL rd, rs1, rs2 (R201). -/
def execSll (rd rs1 rs2 : RegIdx) (s : State) : Result :=
  writeBack rd (s.x rs1 <<< amount6 (s.x rs2)) s

/-- SRL rd, rs1, rs2 (R202). -/
def execSrl (rd rs1 rs2 : RegIdx) (s : State) : Result :=
  writeBack rd (s.x rs1 >>> amount6 (s.x rs2)) s

/-- SRA rd, rs1, rs2 (R203). -/
def execSra (rd rs1 rs2 : RegIdx) (s : State) : Result :=
  writeBack rd ((s.x rs1).sshiftRight (amount6 (s.x rs2))) s

/-- SLLI rd, rs1, shamt (R204). -/
def execSlli (rd rs1 : RegIdx) (shamt : BitVec 6) (s : State) : Result :=
  writeBack rd (s.x rs1 <<< shamt.toNat) s

/-- SRLI rd, rs1, shamt (R205). -/
def execSrli (rd rs1 : RegIdx) (shamt : BitVec 6) (s : State) : Result :=
  writeBack rd (s.x rs1 >>> shamt.toNat) s

/-- SRAI rd, rs1, shamt (R206). -/
def execSrai (rd rs1 : RegIdx) (shamt : BitVec 6) (s : State) : Result :=
  writeBack rd ((s.x rs1).sshiftRight shamt.toNat) s

/-- ADDIW rd, rs1, imm (R207). -/
def execAddiw (rd rs1 : RegIdx) (imm : Word) (s : State) : Result :=
  writeBack rd (sextWord (low32 (s.x rs1 + imm))) s

/-- SLLIW rd, rs1, shamt (R208). -/
def execSlliw (rd rs1 : RegIdx) (shamt : BitVec 5) (s : State) : Result :=
  writeBack rd (sextWord (low32 (s.x rs1) <<< shamt.toNat)) s

/-- SRLIW rd, rs1, shamt (R209). -/
def execSrliw (rd rs1 : RegIdx) (shamt : BitVec 5) (s : State) : Result :=
  writeBack rd (sextWord (low32 (s.x rs1) >>> shamt.toNat)) s

/-- SRAIW rd, rs1, shamt (R210). -/
def execSraiw (rd rs1 : RegIdx) (shamt : BitVec 5) (s : State) : Result :=
  writeBack rd ((sextWord (low32 (s.x rs1))).sshiftRight shamt.toNat) s

/-- ADDW rd, rs1, rs2 (R211). -/
def execAddw (rd rs1 rs2 : RegIdx) (s : State) : Result :=
  writeBack rd (sextWord (low32 (s.x rs1 + s.x rs2))) s

/-- SUBW rd, rs1, rs2 (R212). -/
def execSubw (rd rs1 rs2 : RegIdx) (s : State) : Result :=
  writeBack rd (sextWord (low32 (s.x rs1 - s.x rs2))) s

/-- SLLW rd, rs1, rs2 (R213). -/
def execSllw (rd rs1 rs2 : RegIdx) (s : State) : Result :=
  writeBack rd (sextWord (low32 (s.x rs1) <<< amount5 (s.x rs2))) s

/-- SRLW rd, rs1, rs2 (R214). -/
def execSrlw (rd rs1 rs2 : RegIdx) (s : State) : Result :=
  writeBack rd (sextWord (low32 (s.x rs1) >>> amount5 (s.x rs2))) s

/-- SRAW rd, rs1, rs2 (R215). -/
def execSraw (rd rs1 rs2 : RegIdx) (s : State) : Result :=
  writeBack rd ((sextWord (low32 (s.x rs1))).sshiftRight (amount5 (s.x rs2))) s

end Sys2Proof.Machine
end

