-- ==== Sys2Proof/Machine/SystemCsr.lean ====
section
/-!
DEFINITION. Fences, environment calls, CSR instructions and Unknown words (spec/46_system_csr.md). FENCE and FENCE.I, when enabled, only
advance pc. The others halt with NotImplemented and the decoded record, for every IMPLEMENTED.
-/

namespace Sys2Proof.Machine

/-- FENCE (R260): every access is already complete and in order, so it goes on in sequence. -/
def execFence (s : State) : Result := .next s.sequential

/-- FENCE.I (R261): the next fetch already sees every earlier store, so it goes on in sequence. -/
def execFenceI (s : State) : Result := .next s.sequential

/-- ECALL (R262). -/
def execEcall (s : State) : Result := raiseHalt (.notImplemented .ecall) s

/-- EBREAK (R263). -/
def execEbreak (s : State) : Result := raiseHalt (.notImplemented .ebreak) s

/-- CSRRW rd, csr, rs1 (R264). -/
def execCsrrw (rd rs1 : RegIdx) (imm : Word) (s : State) : Result :=
  raiseHalt (.notImplemented (.csrrw rd rs1 imm)) s

/-- CSRRS rd, csr, rs1 (R265). -/
def execCsrrs (rd rs1 : RegIdx) (imm : Word) (s : State) : Result :=
  raiseHalt (.notImplemented (.csrrs rd rs1 imm)) s

/-- CSRRC rd, csr, rs1 (R266). -/
def execCsrrc (rd rs1 : RegIdx) (imm : Word) (s : State) : Result :=
  raiseHalt (.notImplemented (.csrrc rd rs1 imm)) s

/-- CSRRWI rd, csr, zimm (R267); the rs1 field is zimm. -/
def execCsrrwi (rd rs1 : RegIdx) (imm : Word) (s : State) : Result :=
  raiseHalt (.notImplemented (.csrrwi rd rs1 imm)) s

/-- CSRRSI rd, csr, zimm (R268); the rs1 field is zimm. -/
def execCsrrsi (rd rs1 : RegIdx) (imm : Word) (s : State) : Result :=
  raiseHalt (.notImplemented (.csrrsi rd rs1 imm)) s

/-- CSRRCI rd, csr, zimm (R269); the rs1 field is zimm. -/
def execCsrrci (rd rs1 : RegIdx) (imm : Word) (s : State) : Result :=
  raiseHalt (.notImplemented (.csrrci rd rs1 imm)) s

/-- A word of no row (40_execution_cycle.md R105, 60_exceptions.md R283). -/
def execUnknown (word : InstrWord) (s : State) : Result := raiseHalt (.notImplemented (.unknown word)) s

end Sys2Proof.Machine
end

