-- ==== Sys2Proof/WellFormed.lean ====
section
/-!
DEFINITION. Well-formed instructions: the records the decoder can produce. Only an immediate or an Unknown word can be
ill-formed; register indices and shift amounts are well-formed by their types (spec/30_encoding.md R61, R68).
-/

namespace Sys2Proof

/-- A value of the I and S immediates: `sext_12` of its low 12 bits (30_encoding.md R63, R64). -/
def fitsImm12 (imm : Word) : Bool := (imm.setWidth 12).signExtend 64 == imm

/-- A value of the B immediate: `sext_13` of its low 13 bits, even (30_encoding.md R65). -/
def fitsImmB (imm : Word) : Bool := (imm.setWidth 13).signExtend 64 == imm && !imm.getLsbD 0

/-- A value of the U immediate: `sext_32` of its low 32 bits, the low 12 of them zero (30_encoding.md R66). -/
def fitsImmU (imm : Word) : Bool := (imm.setWidth 32).signExtend 64 == imm && imm.setWidth 12 == 0#12

/-- A value of the J immediate: `sext_21` of its low 21 bits, even (30_encoding.md R67). -/
def fitsImmJ (imm : Word) : Bool := (imm.setWidth 21).signExtend 64 == imm && !imm.getLsbD 0

/-- The well-formedness of a decoded record, by its format (30_encoding.md R83). -/
def Instr.wellFormed : Instr → Bool
  | .add _ _ _ => true
  | .sub _ _ _ => true
  | .slt _ _ _ => true
  | .sltu _ _ _ => true
  | .xor _ _ _ => true
  | .or _ _ _ => true
  | .and _ _ _ => true
  | .addi _ _ imm => fitsImm12 imm
  | .slti _ _ imm => fitsImm12 imm
  | .sltiu _ _ imm => fitsImm12 imm
  | .xori _ _ imm => fitsImm12 imm
  | .ori _ _ imm => fitsImm12 imm
  | .andi _ _ imm => fitsImm12 imm
  | .lui _ imm => fitsImmU imm
  | .auipc _ imm => fitsImmU imm
  | .lb _ _ imm => fitsImm12 imm
  | .lh _ _ imm => fitsImm12 imm
  | .lw _ _ imm => fitsImm12 imm
  | .ld _ _ imm => fitsImm12 imm
  | .lbu _ _ imm => fitsImm12 imm
  | .lhu _ _ imm => fitsImm12 imm
  | .lwu _ _ imm => fitsImm12 imm
  | .sb _ _ imm => fitsImm12 imm
  | .sh _ _ imm => fitsImm12 imm
  | .sw _ _ imm => fitsImm12 imm
  | .sd _ _ imm => fitsImm12 imm
  | .jal _ imm => fitsImmJ imm
  | .jalr _ _ imm => fitsImm12 imm
  | .beq _ _ imm => fitsImmB imm
  | .bne _ _ imm => fitsImmB imm
  | .blt _ _ imm => fitsImmB imm
  | .bge _ _ imm => fitsImmB imm
  | .bltu _ _ imm => fitsImmB imm
  | .bgeu _ _ imm => fitsImmB imm
  | .sll _ _ _ => true
  | .srl _ _ _ => true
  | .sra _ _ _ => true
  | .slli _ _ _ => true
  | .srli _ _ _ => true
  | .srai _ _ _ => true
  | .addiw _ _ imm => fitsImm12 imm
  | .slliw _ _ _ => true
  | .srliw _ _ _ => true
  | .sraiw _ _ _ => true
  | .addw _ _ _ => true
  | .subw _ _ _ => true
  | .sllw _ _ _ => true
  | .srlw _ _ _ => true
  | .sraw _ _ _ => true
  | .mul _ _ _ => true
  | .mulh _ _ _ => true
  | .mulhsu _ _ _ => true
  | .mulhu _ _ _ => true
  | .div _ _ _ => true
  | .divu _ _ _ => true
  | .rem _ _ _ => true
  | .remu _ _ _ => true
  | .mulw _ _ _ => true
  | .divw _ _ _ => true
  | .divuw _ _ _ => true
  | .remw _ _ _ => true
  | .remuw _ _ _ => true
  | .fence => true
  | .fenceI => true
  | .ecall => true
  | .ebreak => true
  | .csrrw _ _ imm => fitsImm12 imm
  | .csrrs _ _ imm => fitsImm12 imm
  | .csrrc _ _ imm => fitsImm12 imm
  | .csrrwi _ _ imm => fitsImm12 imm
  | .csrrsi _ _ imm => fitsImm12 imm
  | .csrrci _ _ imm => fitsImm12 imm
  | .unknown w => matchesNoRow w

end Sys2Proof
end

