-- ==== Sys2Proof/Decode.lean ====
section
/-!
DEFINITION. The decoder sub-block (spec/30_encoding.md): field extraction, immediate assembly, the two-level dispatch,
and after it the encoder. Decoding is total; a word of no row is rejected by name, as `unknown` (R82, R89).
-/

namespace Sys2Proof

/-! ### Fields (R61, R68) -/

def opcodeOf (w : InstrWord) : BitVec 7 := w.extractLsb' 0 7
def rdOf (w : InstrWord) : RegIdx := w.extractLsb' 7 5
def funct3Of (w : InstrWord) : BitVec 3 := w.extractLsb' 12 3
def rs1Of (w : InstrWord) : RegIdx := w.extractLsb' 15 5
def rs2Of (w : InstrWord) : RegIdx := w.extractLsb' 20 5
def funct7Of (w : InstrWord) : BitVec 7 := w.extractLsb' 25 7
/-- The function field of the 64-bit shift immediates, w[31:26] (R68). -/
def funct6Of (w : InstrWord) : BitVec 6 := w.extractLsb' 26 6
/-- The 6-bit shift amount, w[25:20] (R68). -/
def shamt6Of (w : InstrWord) : BitVec 6 := w.extractLsb' 20 6
/-- The 5-bit shift amount, w[24:20] (R68). -/
def shamt5Of (w : InstrWord) : BitVec 5 := w.extractLsb' 20 5

/-! ### Immediates (R63 to R67), and the CSR number of the record (R69) -/

/-- I-type: `sext_12(w[31:20])` (R63). -/
def immI (w : InstrWord) : Word := (w.extractLsb' 20 12).signExtend 64

/-- S-type: `sext_12` of w[31:25], w[11:7] (R64). -/
def immS (w : InstrWord) : Word := (w.extractLsb' 25 7 ++ w.extractLsb' 7 5).signExtend 64

/-- B-type: `sext_13` of w[31], w[7], w[30:25], w[11:8], 0 (R65). -/
def immB (w : InstrWord) : Word :=
  (w.extractLsb' 31 1 ++ w.extractLsb' 7 1 ++ w.extractLsb' 25 6 ++ w.extractLsb' 8 4 ++ 0#1).signExtend 64

/-- U-type: `sext_32` of w[31:12] and twelve zeros (R66). -/
def immU (w : InstrWord) : Word := (w.extractLsb' 12 20 ++ 0#12).signExtend 64

/-- J-type: `sext_21` of w[31], w[19:12], w[20], w[30:21], 0 (R67). -/
def immJ (w : InstrWord) : Word :=
  (w.extractLsb' 31 1 ++ w.extractLsb' 12 8 ++ w.extractLsb' 20 1 ++ w.extractLsb' 21 10 ++ 0#1).signExtend 64

/-- The 12-bit CSR number of a CSR record, `imm[11:0]` (R69). -/
def csrNumber (imm : Word) : BitVec 12 := imm.setWidth 12

/-! ### Dispatch (R70 to R82) -/

/-- LOAD, by funct3 (R72). -/
def decodeLoad (w : InstrWord) : Instr :=
  if funct3Of w = 0#3 then .lb (rdOf w) (rs1Of w) (immI w)
  else if funct3Of w = 1#3 then .lh (rdOf w) (rs1Of w) (immI w)
  else if funct3Of w = 2#3 then .lw (rdOf w) (rs1Of w) (immI w)
  else if funct3Of w = 3#3 then .ld (rdOf w) (rs1Of w) (immI w)
  else if funct3Of w = 4#3 then .lbu (rdOf w) (rs1Of w) (immI w)
  else if funct3Of w = 5#3 then .lhu (rdOf w) (rs1Of w) (immI w)
  else if funct3Of w = 6#3 then .lwu (rdOf w) (rs1Of w) (immI w)
  else .unknown w

/-- STORE, by funct3 (R73). -/
def decodeStore (w : InstrWord) : Instr :=
  if funct3Of w = 0#3 then .sb (rs1Of w) (rs2Of w) (immS w)
  else if funct3Of w = 1#3 then .sh (rs1Of w) (rs2Of w) (immS w)
  else if funct3Of w = 2#3 then .sw (rs1Of w) (rs2Of w) (immS w)
  else if funct3Of w = 3#3 then .sd (rs1Of w) (rs2Of w) (immS w)
  else .unknown w

/-- BRANCH, by funct3 (R74). -/
def decodeBranch (w : InstrWord) : Instr :=
  if funct3Of w = 0#3 then .beq (rs1Of w) (rs2Of w) (immB w)
  else if funct3Of w = 1#3 then .bne (rs1Of w) (rs2Of w) (immB w)
  else if funct3Of w = 4#3 then .blt (rs1Of w) (rs2Of w) (immB w)
  else if funct3Of w = 5#3 then .bge (rs1Of w) (rs2Of w) (immB w)
  else if funct3Of w = 6#3 then .bltu (rs1Of w) (rs2Of w) (immB w)
  else if funct3Of w = 7#3 then .bgeu (rs1Of w) (rs2Of w) (immB w)
  else .unknown w

/-- OP-IMM, by funct3, the shifts by funct6 too (R75). -/
def decodeOpImm (w : InstrWord) : Instr :=
  if funct3Of w = 0#3 then .addi (rdOf w) (rs1Of w) (immI w)
  else if funct3Of w = 2#3 then .slti (rdOf w) (rs1Of w) (immI w)
  else if funct3Of w = 3#3 then .sltiu (rdOf w) (rs1Of w) (immI w)
  else if funct3Of w = 4#3 then .xori (rdOf w) (rs1Of w) (immI w)
  else if funct3Of w = 6#3 then .ori (rdOf w) (rs1Of w) (immI w)
  else if funct3Of w = 7#3 then .andi (rdOf w) (rs1Of w) (immI w)
  else if funct3Of w = 1#3 ∧ funct6Of w = 0b000000#6 then .slli (rdOf w) (rs1Of w) (shamt6Of w)
  else if funct3Of w = 5#3 ∧ funct6Of w = 0b000000#6 then .srli (rdOf w) (rs1Of w) (shamt6Of w)
  else if funct3Of w = 5#3 ∧ funct6Of w = 0b010000#6 then .srai (rdOf w) (rs1Of w) (shamt6Of w)
  else .unknown w

/-- OP-IMM-32, by funct3, the shifts by funct7 too (R76). -/
def decodeOpImm32 (w : InstrWord) : Instr :=
  if funct3Of w = 0#3 then .addiw (rdOf w) (rs1Of w) (immI w)
  else if funct3Of w = 1#3 ∧ funct7Of w = 0b0000000#7 then .slliw (rdOf w) (rs1Of w) (shamt5Of w)
  else if funct3Of w = 5#3 ∧ funct7Of w = 0b0000000#7 then .srliw (rdOf w) (rs1Of w) (shamt5Of w)
  else if funct3Of w = 5#3 ∧ funct7Of w = 0b0100000#7 then .sraiw (rdOf w) (rs1Of w) (shamt5Of w)
  else .unknown w

/-- OP with funct7 = 0b0000000, by funct3 (R77). -/
def decodeOpBase (w : InstrWord) : Instr :=
  if funct3Of w = 0#3 then .add (rdOf w) (rs1Of w) (rs2Of w)
  else if funct3Of w = 1#3 then .sll (rdOf w) (rs1Of w) (rs2Of w)
  else if funct3Of w = 2#3 then .slt (rdOf w) (rs1Of w) (rs2Of w)
  else if funct3Of w = 3#3 then .sltu (rdOf w) (rs1Of w) (rs2Of w)
  else if funct3Of w = 4#3 then .xor (rdOf w) (rs1Of w) (rs2Of w)
  else if funct3Of w = 5#3 then .srl (rdOf w) (rs1Of w) (rs2Of w)
  else if funct3Of w = 6#3 then .or (rdOf w) (rs1Of w) (rs2Of w)
  else if funct3Of w = 7#3 then .and (rdOf w) (rs1Of w) (rs2Of w)
  else .unknown w

/-- OP with funct7 = 0b0100000, by funct3 (R77). -/
def decodeOpAlt (w : InstrWord) : Instr :=
  if funct3Of w = 0#3 then .sub (rdOf w) (rs1Of w) (rs2Of w)
  else if funct3Of w = 5#3 then .sra (rdOf w) (rs1Of w) (rs2Of w)
  else .unknown w

/-- OP with funct7 = 0b0000001, by funct3 (R77). -/
def decodeOpMulDiv (w : InstrWord) : Instr :=
  if funct3Of w = 0#3 then .mul (rdOf w) (rs1Of w) (rs2Of w)
  else if funct3Of w = 1#3 then .mulh (rdOf w) (rs1Of w) (rs2Of w)
  else if funct3Of w = 2#3 then .mulhsu (rdOf w) (rs1Of w) (rs2Of w)
  else if funct3Of w = 3#3 then .mulhu (rdOf w) (rs1Of w) (rs2Of w)
  else if funct3Of w = 4#3 then .div (rdOf w) (rs1Of w) (rs2Of w)
  else if funct3Of w = 5#3 then .divu (rdOf w) (rs1Of w) (rs2Of w)
  else if funct3Of w = 6#3 then .rem (rdOf w) (rs1Of w) (rs2Of w)
  else if funct3Of w = 7#3 then .remu (rdOf w) (rs1Of w) (rs2Of w)
  else .unknown w

/-- OP, by funct7, then funct3 (R77). -/
def decodeOp (w : InstrWord) : Instr :=
  if funct7Of w = 0b0000000#7 then decodeOpBase w
  else if funct7Of w = 0b0100000#7 then decodeOpAlt w
  else if funct7Of w = 0b0000001#7 then decodeOpMulDiv w
  else .unknown w

/-- OP-32, by funct7 and funct3 (R78). -/
def decodeOp32 (w : InstrWord) : Instr :=
  if funct7Of w = 0b0000000#7 ∧ funct3Of w = 0#3 then .addw (rdOf w) (rs1Of w) (rs2Of w)
  else if funct7Of w = 0b0000000#7 ∧ funct3Of w = 1#3 then .sllw (rdOf w) (rs1Of w) (rs2Of w)
  else if funct7Of w = 0b0000000#7 ∧ funct3Of w = 5#3 then .srlw (rdOf w) (rs1Of w) (rs2Of w)
  else if funct7Of w = 0b0100000#7 ∧ funct3Of w = 0#3 then .subw (rdOf w) (rs1Of w) (rs2Of w)
  else if funct7Of w = 0b0100000#7 ∧ funct3Of w = 5#3 then .sraw (rdOf w) (rs1Of w) (rs2Of w)
  else if funct7Of w = 0b0000001#7 ∧ funct3Of w = 0#3 then .mulw (rdOf w) (rs1Of w) (rs2Of w)
  else if funct7Of w = 0b0000001#7 ∧ funct3Of w = 4#3 then .divw (rdOf w) (rs1Of w) (rs2Of w)
  else if funct7Of w = 0b0000001#7 ∧ funct3Of w = 5#3 then .divuw (rdOf w) (rs1Of w) (rs2Of w)
  else if funct7Of w = 0b0000001#7 ∧ funct3Of w = 6#3 then .remw (rdOf w) (rs1Of w) (rs2Of w)
  else if funct7Of w = 0b0000001#7 ∧ funct3Of w = 7#3 then .remuw (rdOf w) (rs1Of w) (rs2Of w)
  else .unknown w

/-- JALR: funct3 must be 0 (R79). -/
def decodeJalr (w : InstrWord) : Instr :=
  if funct3Of w = 0#3 then .jalr (rdOf w) (rs1Of w) (immI w)
  else .unknown w

/-- MISC-MEM, by funct3; no other field is checked or carried (R80). -/
def decodeMiscMem (w : InstrWord) : Instr :=
  if funct3Of w = 0#3 then .fence
  else if funct3Of w = 1#3 then .fenceI
  else .unknown w

/-- SYSTEM: ECALL and EBREAK are exact words, the CSR forms go by funct3 (R81). -/
def decodeSystem (w : InstrWord) : Instr :=
  if w = 0x00000073#32 then .ecall
  else if w = 0x00100073#32 then .ebreak
  else if funct3Of w = 1#3 then .csrrw (rdOf w) (rs1Of w) (immI w)
  else if funct3Of w = 2#3 then .csrrs (rdOf w) (rs1Of w) (immI w)
  else if funct3Of w = 3#3 then .csrrc (rdOf w) (rs1Of w) (immI w)
  else if funct3Of w = 5#3 then .csrrwi (rdOf w) (rs1Of w) (immI w)
  else if funct3Of w = 6#3 then .csrrsi (rdOf w) (rs1Of w) (immI w)
  else if funct3Of w = 7#3 then .csrrci (rdOf w) (rs1Of w) (immI w)
  else .unknown w

/-- The decoder: primary dispatch on the major opcode (R70, R71, R79); total, falling back to `unknown` (R82, R89). -/
def decode (w : InstrWord) : Instr :=
  if opcodeOf w = 0b0000011#7 then decodeLoad w
  else if opcodeOf w = 0b0001111#7 then decodeMiscMem w
  else if opcodeOf w = 0b0010011#7 then decodeOpImm w
  else if opcodeOf w = 0b0010111#7 then .auipc (rdOf w) (immU w)
  else if opcodeOf w = 0b0011011#7 then decodeOpImm32 w
  else if opcodeOf w = 0b0100011#7 then decodeStore w
  else if opcodeOf w = 0b0110011#7 then decodeOp w
  else if opcodeOf w = 0b0110111#7 then .lui (rdOf w) (immU w)
  else if opcodeOf w = 0b0111011#7 then decodeOp32 w
  else if opcodeOf w = 0b1100011#7 then decodeBranch w
  else if opcodeOf w = 0b1100111#7 then decodeJalr w
  else if opcodeOf w = 0b1101111#7 then .jal (rdOf w) (immJ w)
  else if opcodeOf w = 0b1110011#7 then decodeSystem w
  else .unknown w

/-! ### Bytes (R60: four bytes, little-endian) -/

/-- The 32-bit word of four bytes, the first at the lowest address (R60). -/
def wordOfBytes (b0 b1 b2 b3 : Byte) : InstrWord := b3 ++ b2 ++ b1 ++ b0

/-- The four bytes of a word in address order (R60). -/
def bytesOfWord (w : InstrWord) : List Byte :=
  [w.extractLsb' 0 8, w.extractLsb' 8 8, w.extractLsb' 16 8, w.extractLsb' 24 8]

/-- The instruction at the head of a byte list and the bytes after it; none when fewer than four bytes are left. -/
def decodeBytes : List Byte → Option (Instr × List Byte)
  | b0 :: b1 :: b2 :: b3 :: rest => some (decode (wordOfBytes b0 b1 b2 b3), rest)
  | _ => none

/-- The instruction read from the bits `w` of an opcode-table row of `nbits` bits, every bit above `nbits` zero, laid out
as four bytes in address order; none for a row longer than an instruction. -/
def decodeTableWord (nbits w : Nat) : Option Instr :=
  if nbits ≤ 32 then (decodeBytes (bytesOfWord (BitVec.ofNat 32 (w % 2 ^ nbits)))).map (·.1) else none

/-! ### The encoder, from the format layouts of R62 -/

def encodeR (funct7 : BitVec 7) (rs2 rs1 : RegIdx) (funct3 : BitVec 3) (rd : RegIdx) (opcode : BitVec 7) : InstrWord :=
  funct7 ++ rs2 ++ rs1 ++ funct3 ++ rd ++ opcode

def encodeI (imm : Word) (rs1 : RegIdx) (funct3 : BitVec 3) (rd : RegIdx) (opcode : BitVec 7) : InstrWord :=
  imm.extractLsb' 0 12 ++ rs1 ++ funct3 ++ rd ++ opcode

def encodeS (imm : Word) (rs2 rs1 : RegIdx) (funct3 : BitVec 3) (opcode : BitVec 7) : InstrWord :=
  imm.extractLsb' 5 7 ++ rs2 ++ rs1 ++ funct3 ++ imm.extractLsb' 0 5 ++ opcode

def encodeB (imm : Word) (rs2 rs1 : RegIdx) (funct3 : BitVec 3) (opcode : BitVec 7) : InstrWord :=
  imm.extractLsb' 12 1 ++ imm.extractLsb' 5 6 ++ rs2 ++ rs1 ++ funct3 ++ imm.extractLsb' 1 4 ++ imm.extractLsb' 11 1
    ++ opcode

def encodeU (imm : Word) (rd : RegIdx) (opcode : BitVec 7) : InstrWord :=
  imm.extractLsb' 12 20 ++ rd ++ opcode

def encodeJ (imm : Word) (rd : RegIdx) (opcode : BitVec 7) : InstrWord :=
  imm.extractLsb' 20 1 ++ imm.extractLsb' 1 10 ++ imm.extractLsb' 11 1 ++ imm.extractLsb' 12 8 ++ rd ++ opcode

def encodeShift64 (funct6 : BitVec 6) (shamt : BitVec 6) (rs1 : RegIdx) (funct3 : BitVec 3) (rd : RegIdx)
    (opcode : BitVec 7) : InstrWord :=
  funct6 ++ shamt ++ rs1 ++ funct3 ++ rd ++ opcode

/-- The word of a well-formed instruction (R62, R92). The ignored fields of FENCE and FENCE.I are encoded as zeros
(R80); of an ill-formed immediate the bits the format has no place for are dropped. -/
def encode : Instr → InstrWord
  | .add rd rs1 rs2 => encodeR 0b0000000#7 rs2 rs1 0#3 rd 0b0110011#7
  | .sub rd rs1 rs2 => encodeR 0b0100000#7 rs2 rs1 0#3 rd 0b0110011#7
  | .slt rd rs1 rs2 => encodeR 0b0000000#7 rs2 rs1 2#3 rd 0b0110011#7
  | .sltu rd rs1 rs2 => encodeR 0b0000000#7 rs2 rs1 3#3 rd 0b0110011#7
  | .xor rd rs1 rs2 => encodeR 0b0000000#7 rs2 rs1 4#3 rd 0b0110011#7
  | .or rd rs1 rs2 => encodeR 0b0000000#7 rs2 rs1 6#3 rd 0b0110011#7
  | .and rd rs1 rs2 => encodeR 0b0000000#7 rs2 rs1 7#3 rd 0b0110011#7
  | .addi rd rs1 imm => encodeI imm rs1 0#3 rd 0b0010011#7
  | .slti rd rs1 imm => encodeI imm rs1 2#3 rd 0b0010011#7
  | .sltiu rd rs1 imm => encodeI imm rs1 3#3 rd 0b0010011#7
  | .xori rd rs1 imm => encodeI imm rs1 4#3 rd 0b0010011#7
  | .ori rd rs1 imm => encodeI imm rs1 6#3 rd 0b0010011#7
  | .andi rd rs1 imm => encodeI imm rs1 7#3 rd 0b0010011#7
  | .lui rd imm => encodeU imm rd 0b0110111#7
  | .auipc rd imm => encodeU imm rd 0b0010111#7
  | .lb rd rs1 imm => encodeI imm rs1 0#3 rd 0b0000011#7
  | .lh rd rs1 imm => encodeI imm rs1 1#3 rd 0b0000011#7
  | .lw rd rs1 imm => encodeI imm rs1 2#3 rd 0b0000011#7
  | .ld rd rs1 imm => encodeI imm rs1 3#3 rd 0b0000011#7
  | .lbu rd rs1 imm => encodeI imm rs1 4#3 rd 0b0000011#7
  | .lhu rd rs1 imm => encodeI imm rs1 5#3 rd 0b0000011#7
  | .lwu rd rs1 imm => encodeI imm rs1 6#3 rd 0b0000011#7
  | .sb rs1 rs2 imm => encodeS imm rs2 rs1 0#3 0b0100011#7
  | .sh rs1 rs2 imm => encodeS imm rs2 rs1 1#3 0b0100011#7
  | .sw rs1 rs2 imm => encodeS imm rs2 rs1 2#3 0b0100011#7
  | .sd rs1 rs2 imm => encodeS imm rs2 rs1 3#3 0b0100011#7
  | .jal rd imm => encodeJ imm rd 0b1101111#7
  | .jalr rd rs1 imm => encodeI imm rs1 0#3 rd 0b1100111#7
  | .beq rs1 rs2 imm => encodeB imm rs2 rs1 0#3 0b1100011#7
  | .bne rs1 rs2 imm => encodeB imm rs2 rs1 1#3 0b1100011#7
  | .blt rs1 rs2 imm => encodeB imm rs2 rs1 4#3 0b1100011#7
  | .bge rs1 rs2 imm => encodeB imm rs2 rs1 5#3 0b1100011#7
  | .bltu rs1 rs2 imm => encodeB imm rs2 rs1 6#3 0b1100011#7
  | .bgeu rs1 rs2 imm => encodeB imm rs2 rs1 7#3 0b1100011#7
  | .sll rd rs1 rs2 => encodeR 0b0000000#7 rs2 rs1 1#3 rd 0b0110011#7
  | .srl rd rs1 rs2 => encodeR 0b0000000#7 rs2 rs1 5#3 rd 0b0110011#7
  | .sra rd rs1 rs2 => encodeR 0b0100000#7 rs2 rs1 5#3 rd 0b0110011#7
  | .slli rd rs1 shamt => encodeShift64 0b000000#6 shamt rs1 1#3 rd 0b0010011#7
  | .srli rd rs1 shamt => encodeShift64 0b000000#6 shamt rs1 5#3 rd 0b0010011#7
  | .srai rd rs1 shamt => encodeShift64 0b010000#6 shamt rs1 5#3 rd 0b0010011#7
  | .addiw rd rs1 imm => encodeI imm rs1 0#3 rd 0b0011011#7
  | .slliw rd rs1 shamt => encodeR 0b0000000#7 shamt rs1 1#3 rd 0b0011011#7
  | .srliw rd rs1 shamt => encodeR 0b0000000#7 shamt rs1 5#3 rd 0b0011011#7
  | .sraiw rd rs1 shamt => encodeR 0b0100000#7 shamt rs1 5#3 rd 0b0011011#7
  | .addw rd rs1 rs2 => encodeR 0b0000000#7 rs2 rs1 0#3 rd 0b0111011#7
  | .subw rd rs1 rs2 => encodeR 0b0100000#7 rs2 rs1 0#3 rd 0b0111011#7
  | .sllw rd rs1 rs2 => encodeR 0b0000000#7 rs2 rs1 1#3 rd 0b0111011#7
  | .srlw rd rs1 rs2 => encodeR 0b0000000#7 rs2 rs1 5#3 rd 0b0111011#7
  | .sraw rd rs1 rs2 => encodeR 0b0100000#7 rs2 rs1 5#3 rd 0b0111011#7
  | .mul rd rs1 rs2 => encodeR 0b0000001#7 rs2 rs1 0#3 rd 0b0110011#7
  | .mulh rd rs1 rs2 => encodeR 0b0000001#7 rs2 rs1 1#3 rd 0b0110011#7
  | .mulhsu rd rs1 rs2 => encodeR 0b0000001#7 rs2 rs1 2#3 rd 0b0110011#7
  | .mulhu rd rs1 rs2 => encodeR 0b0000001#7 rs2 rs1 3#3 rd 0b0110011#7
  | .div rd rs1 rs2 => encodeR 0b0000001#7 rs2 rs1 4#3 rd 0b0110011#7
  | .divu rd rs1 rs2 => encodeR 0b0000001#7 rs2 rs1 5#3 rd 0b0110011#7
  | .rem rd rs1 rs2 => encodeR 0b0000001#7 rs2 rs1 6#3 rd 0b0110011#7
  | .remu rd rs1 rs2 => encodeR 0b0000001#7 rs2 rs1 7#3 rd 0b0110011#7
  | .mulw rd rs1 rs2 => encodeR 0b0000001#7 rs2 rs1 0#3 rd 0b0111011#7
  | .divw rd rs1 rs2 => encodeR 0b0000001#7 rs2 rs1 4#3 rd 0b0111011#7
  | .divuw rd rs1 rs2 => encodeR 0b0000001#7 rs2 rs1 5#3 rd 0b0111011#7
  | .remw rd rs1 rs2 => encodeR 0b0000001#7 rs2 rs1 6#3 rd 0b0111011#7
  | .remuw rd rs1 rs2 => encodeR 0b0000001#7 rs2 rs1 7#3 rd 0b0111011#7
  | .fence => 0x0000000F#32
  | .fenceI => 0x0000100F#32
  | .ecall => 0x00000073#32
  | .ebreak => 0x00100073#32
  | .csrrw rd rs1 imm => encodeI imm rs1 1#3 rd 0b1110011#7
  | .csrrs rd rs1 imm => encodeI imm rs1 2#3 rd 0b1110011#7
  | .csrrc rd rs1 imm => encodeI imm rs1 3#3 rd 0b1110011#7
  | .csrrwi rd rs1 imm => encodeI imm rs1 5#3 rd 0b1110011#7
  | .csrrsi rd rs1 imm => encodeI imm rs1 6#3 rd 0b1110011#7
  | .csrrci rd rs1 imm => encodeI imm rs1 7#3 rd 0b1110011#7
  | .unknown w => w

/-- The four bytes of an instruction in address order. -/
def encodeBytes (i : Instr) : List Byte := bytesOfWord (encode i)

end Sys2Proof
end

