-- ==== Sys2Proof/Machine/Fetch.lean ====
section
/-!
DEFINITION. Fetch, decode and the execute gate: what a running step does before an instruction executes, and the errors it
can end in, in the order of spec/60_exceptions.md R288.
-/

namespace Sys2Proof.Machine

/-- Fetch (40_execution_cycle.md R101, R102): the 32-bit little-endian word at pc, or the FetchError. -/
def fetch (s : State) : Except HaltReason InstrWord :=
  if s.cfg.misalignedPc = .halt ∧ s.pc.toNat % 4 ≠ 0 then .error (.fetchError .misaligned s.pc)
  else
    match busRead s s.pc 4 with
    | none => .error (.fetchError .unmapped s.pc)
    | some w => .ok w

/-- The execute gate (40_execution_cycle.md R104, R105): Unknown, and a mnemonic outside IMPLEMENTED, do not execute. -/
def mayExecute (c : Config) (i : Instr) : Bool :=
  match i.mnemonic? with
  | none => false
  | some m => decide (m ∈ c.implemented)

/-- The instruction the step executes, or the error it halts with before executing one (60_exceptions.md R288). -/
def fetchDecode (s : State) : Except HaltReason Instr :=
  match fetch s with
  | .error r => .error r
  | .ok w => if mayExecute s.cfg (decode w) then .ok (decode w) else .error (.notImplemented (decode w))

end Sys2Proof.Machine
end

