-- ==== Sys2Proof/Machine/Step.lean ====
section
/-!
DEFINITION. One step, one atomic transition (spec/40_execution_cycle.md R100), and the word the host places for it.
-/

namespace Sys2Proof.Machine

/-- `step()` (R100): nothing when halted (R114); a halt when the fetch or the gate fails; else the instruction executes. -/
def step (s : State) : Host.Outcome State Fault Refusal :=
  if s.running then
    match fetchDecode s with
    | .error r => raiseHalt r s
    | .ok i => exec i s
  else .next s

/-- The state with an instruction of the opcode table stored at pc, where step fetches next; nothing else changes. It stands
for an image that holds the instruction there (10_state.md R33), log entry 6. -/
def State.withFetchWord (s : State) (nbits w : Nat) : State :=
  placeAtPc s (BitVec.ofNat 32 (w % 2 ^ nbits))

end Sys2Proof.Machine
end

