-- ==== Sys2Proof/Machine/Assembler.lean ====
section
/-!
DEFINITION. The assembler's view of the instructions: register aliases (spec/10_state.md R24), the written form of a decoded
instruction (spec/30_encoding.md R86) and the expansions of the pseudo-instructions (R87). Names only: no meaning reads them.
-/

namespace Sys2Proof.Machine

/-- The ABI alias of a register (10_state.md R24); x8 is also called fp. -/
def abiName (r : RegIdx) : String :=
  (["zero", "ra", "sp", "gp", "tp", "t0", "t1", "t2", "s0", "s1", "a0", "a1", "a2", "a3", "a4", "a5", "a6", "a7", "s2", "s3",
    "s4", "s5", "s6", "s7", "s8", "s9", "s10", "s11", "t3", "t4", "t5", "t6"][r.toNat]?).getD ""

/-- The `x<i>` name of a register (10_state.md R24). -/
def regName (r : RegIdx) : String := "x" ++ toString r.toNat

/-- A signed decimal immediate (R86). -/
def immText (imm : Word) : String := toString imm.toInt

/-- `op rd, rs1, rs2` (R86). -/
def asmR (op : String) (rd rs1 rs2 : RegIdx) : String :=
  op ++ " " ++ regName rd ++ ", " ++ regName rs1 ++ ", " ++ regName rs2

/-- `op rd, rs1, imm` (R86). -/
def asmI (op : String) (rd rs1 : RegIdx) (imm : Word) : String :=
  op ++ " " ++ regName rd ++ ", " ++ regName rs1 ++ ", " ++ immText imm

/-- `op rd, rs1, shamt` (R86). -/
def asmShift (op : String) (rd rs1 : RegIdx) (shamt : Nat) : String :=
  op ++ " " ++ regName rd ++ ", " ++ regName rs1 ++ ", " ++ toString shamt

/-- `op r, imm(rs1)`: loads and JALR with rd, stores with rs2 (R86). -/
def asmMem (op : String) (r rs1 : RegIdx) (imm : Word) : String :=
  op ++ " " ++ regName r ++ ", " ++ immText imm ++ "(" ++ regName rs1 ++ ")"

/-- `op rs1, rs2, offset` (R86). -/
def asmB (op : String) (rs1 rs2 : RegIdx) (imm : Word) : String :=
  op ++ " " ++ regName rs1 ++ ", " ++ regName rs2 ++ ", " ++ immText imm

/-- `op rd, imm20`, with the 20-bit field w[31:12] (R86). -/
def asmU (op : String) (rd : RegIdx) (imm : Word) : String :=
  op ++ " " ++ regName rd ++ ", " ++ toString (imm.extractLsb' 12 20).toNat

/-- `op rd, csr, rs1` (R86). -/
def asmCsr (op : String) (rd rs1 : RegIdx) (imm : Word) : String :=
  op ++ " " ++ regName rd ++ ", " ++ toString (csrNumber imm).toNat ++ ", " ++ regName rs1

/-- `op rd, csr, zimm` (R86). -/
def asmCsrImm (op : String) (rd zimm : RegIdx) (imm : Word) : String :=
  op ++ " " ++ regName rd ++ ", " ++ toString (csrNumber imm).toNat ++ ", " ++ toString zimm.toNat

/-- The assembler text of a decoded instruction (R86), mnemonics in lower case. The fence record carries no pred and succ
(R83), so FENCE is written as its full form; an Unknown word has no syntax. -/
def asmText : Instr → String
  | .add rd rs1 rs2 => asmR "add" rd rs1 rs2
  | .sub rd rs1 rs2 => asmR "sub" rd rs1 rs2
  | .slt rd rs1 rs2 => asmR "slt" rd rs1 rs2
  | .sltu rd rs1 rs2 => asmR "sltu" rd rs1 rs2
  | .xor rd rs1 rs2 => asmR "xor" rd rs1 rs2
  | .or rd rs1 rs2 => asmR "or" rd rs1 rs2
  | .and rd rs1 rs2 => asmR "and" rd rs1 rs2
  | .addi rd rs1 imm => asmI "addi" rd rs1 imm
  | .slti rd rs1 imm => asmI "slti" rd rs1 imm
  | .sltiu rd rs1 imm => asmI "sltiu" rd rs1 imm
  | .xori rd rs1 imm => asmI "xori" rd rs1 imm
  | .ori rd rs1 imm => asmI "ori" rd rs1 imm
  | .andi rd rs1 imm => asmI "andi" rd rs1 imm
  | .lui rd imm => asmU "lui" rd imm
  | .auipc rd imm => asmU "auipc" rd imm
  | .lb rd rs1 imm => asmMem "lb" rd rs1 imm
  | .lh rd rs1 imm => asmMem "lh" rd rs1 imm
  | .lw rd rs1 imm => asmMem "lw" rd rs1 imm
  | .ld rd rs1 imm => asmMem "ld" rd rs1 imm
  | .lbu rd rs1 imm => asmMem "lbu" rd rs1 imm
  | .lhu rd rs1 imm => asmMem "lhu" rd rs1 imm
  | .lwu rd rs1 imm => asmMem "lwu" rd rs1 imm
  | .sb rs1 rs2 imm => asmMem "sb" rs2 rs1 imm
  | .sh rs1 rs2 imm => asmMem "sh" rs2 rs1 imm
  | .sw rs1 rs2 imm => asmMem "sw" rs2 rs1 imm
  | .sd rs1 rs2 imm => asmMem "sd" rs2 rs1 imm
  | .jal rd imm => "jal " ++ regName rd ++ ", " ++ immText imm
  | .jalr rd rs1 imm => asmMem "jalr" rd rs1 imm
  | .beq rs1 rs2 imm => asmB "beq" rs1 rs2 imm
  | .bne rs1 rs2 imm => asmB "bne" rs1 rs2 imm
  | .blt rs1 rs2 imm => asmB "blt" rs1 rs2 imm
  | .bge rs1 rs2 imm => asmB "bge" rs1 rs2 imm
  | .bltu rs1 rs2 imm => asmB "bltu" rs1 rs2 imm
  | .bgeu rs1 rs2 imm => asmB "bgeu" rs1 rs2 imm
  | .sll rd rs1 rs2 => asmR "sll" rd rs1 rs2
  | .srl rd rs1 rs2 => asmR "srl" rd rs1 rs2
  | .sra rd rs1 rs2 => asmR "sra" rd rs1 rs2
  | .slli rd rs1 shamt => asmShift "slli" rd rs1 shamt.toNat
  | .srli rd rs1 shamt => asmShift "srli" rd rs1 shamt.toNat
  | .srai rd rs1 shamt => asmShift "srai" rd rs1 shamt.toNat
  | .addiw rd rs1 imm => asmI "addiw" rd rs1 imm
  | .slliw rd rs1 shamt => asmShift "slliw" rd rs1 shamt.toNat
  | .srliw rd rs1 shamt => asmShift "srliw" rd rs1 shamt.toNat
  | .sraiw rd rs1 shamt => asmShift "sraiw" rd rs1 shamt.toNat
  | .addw rd rs1 rs2 => asmR "addw" rd rs1 rs2
  | .subw rd rs1 rs2 => asmR "subw" rd rs1 rs2
  | .sllw rd rs1 rs2 => asmR "sllw" rd rs1 rs2
  | .srlw rd rs1 rs2 => asmR "srlw" rd rs1 rs2
  | .sraw rd rs1 rs2 => asmR "sraw" rd rs1 rs2
  | .mul rd rs1 rs2 => asmR "mul" rd rs1 rs2
  | .mulh rd rs1 rs2 => asmR "mulh" rd rs1 rs2
  | .mulhsu rd rs1 rs2 => asmR "mulhsu" rd rs1 rs2
  | .mulhu rd rs1 rs2 => asmR "mulhu" rd rs1 rs2
  | .div rd rs1 rs2 => asmR "div" rd rs1 rs2
  | .divu rd rs1 rs2 => asmR "divu" rd rs1 rs2
  | .rem rd rs1 rs2 => asmR "rem" rd rs1 rs2
  | .remu rd rs1 rs2 => asmR "remu" rd rs1 rs2
  | .mulw rd rs1 rs2 => asmR "mulw" rd rs1 rs2
  | .divw rd rs1 rs2 => asmR "divw" rd rs1 rs2
  | .divuw rd rs1 rs2 => asmR "divuw" rd rs1 rs2
  | .remw rd rs1 rs2 => asmR "remw" rd rs1 rs2
  | .remuw rd rs1 rs2 => asmR "remuw" rd rs1 rs2
  | .fence => "fence iorw, iorw"
  | .fenceI => "fence.i"
  | .ecall => "ecall"
  | .ebreak => "ebreak"
  | .csrrw rd rs1 imm => asmCsr "csrrw" rd rs1 imm
  | .csrrs rd rs1 imm => asmCsr "csrrs" rd rs1 imm
  | .csrrc rd rs1 imm => asmCsr "csrrc" rd rs1 imm
  | .csrrwi rd rs1 imm => asmCsrImm "csrrwi" rd rs1 imm
  | .csrrsi rd rs1 imm => asmCsrImm "csrrsi" rd rs1 imm
  | .csrrci rd rs1 imm => asmCsrImm "csrrci" rd rs1 imm
  | .unknown _ => ""

/-- The high part of a 32-bit offset or constant as the decoded U immediate: `sext_32(hi << 12)` with
`hi = ((off + 0x800) >> 12) & 0xFFFFF` (R87). -/
def hiPart (off : Word) : Word := ((off + 0x800#64).extractLsb' 12 20 ++ 0#12).signExtend 64

/-- The low part, the 12-bit signed value that `off - sext_32(hi << 12)` is over the range R87 gives; DEDUCED (safe), log
entry 8: at the few 32-bit constants above that range it is the same difference modulo 2^32. -/
def loPart (off : Word) : Word := (off.setWidth 12).signExtend 64

/-- The pseudo-instructions (R87); an immediate or offset is the 64-bit signed value. -/
inductive Pseudo where
  | nop
  | liShort (rd : RegIdx) (imm : Word)
  | li (rd : RegIdx) (imm : Word)
  | mv (rd rs : RegIdx)
  | not (rd rs : RegIdx)
  | neg (rd rs : RegIdx)
  | negw (rd rs : RegIdx)
  | sextW (rd rs : RegIdx)
  | seqz (rd rs : RegIdx)
  | snez (rd rs : RegIdx)
  | sltz (rd rs : RegIdx)
  | sgtz (rd rs : RegIdx)
  | beqz (rs : RegIdx) (off : Word)
  | bnez (rs : RegIdx) (off : Word)
  | blez (rs : RegIdx) (off : Word)
  | bgez (rs : RegIdx) (off : Word)
  | bltz (rs : RegIdx) (off : Word)
  | bgtz (rs : RegIdx) (off : Word)
  | bgt (rs rt : RegIdx) (off : Word)
  | ble (rs rt : RegIdx) (off : Word)
  | bgtu (rs rt : RegIdx) (off : Word)
  | bleu (rs rt : RegIdx) (off : Word)
  | j (off : Word)
  | jal (off : Word)
  | jr (rs : RegIdx)
  | jalr (rs : RegIdx)
  | ret
  | call (off : Word)
  | tail (off : Word)
  | la (rd : RegIdx) (off : Word)
  | lbSym (rd : RegIdx) (off : Word)
  | lhSym (rd : RegIdx) (off : Word)
  | lwSym (rd : RegIdx) (off : Word)
  | ldSym (rd : RegIdx) (off : Word)
  | sbSym (rs : RegIdx) (off : Word) (rt : RegIdx)
  | shSym (rs : RegIdx) (off : Word) (rt : RegIdx)
  | swSym (rs : RegIdx) (off : Word) (rt : RegIdx)
  | sdSym (rs : RegIdx) (off : Word) (rt : RegIdx)
  | fence
  | csrr (rd : RegIdx) (csr : BitVec 12)
  | csrw (csr : BitVec 12) (rs : RegIdx)
  | csrs (csr : BitVec 12) (rs : RegIdx)
  | csrc (csr : BitVec 12) (rs : RegIdx)
  | csrwi (csr : BitVec 12) (zimm : RegIdx)
  | csrsi (csr : BitVec 12) (zimm : RegIdx)
  | csrci (csr : BitVec 12) (zimm : RegIdx)
  | rdcycle (rd : RegIdx)
  | rdtime (rd : RegIdx)
  | rdinstret (rd : RegIdx)
  deriving DecidableEq, Repr

/-- A CSR number as the decoded 12-bit sign-extended immediate (R69). -/
def csrImm (csr : BitVec 12) : Word := csr.signExtend 64

/-- The expansion of a pseudo-instruction (R87). The pc-relative forms take the offset from their first instruction. -/
def expand : Pseudo → List Instr
  | .nop => [.addi 0 0 0]
  | .liShort rd imm => [.addi rd 0 imm]
  | .li rd imm => [.lui rd (hiPart imm), .addiw rd rd (loPart imm)]
  | .mv rd rs => [.addi rd rs 0]
  | .not rd rs => [.xori rd rs (-1)]
  | .neg rd rs => [.sub rd 0 rs]
  | .negw rd rs => [.subw rd 0 rs]
  | .sextW rd rs => [.addiw rd rs 0]
  | .seqz rd rs => [.sltiu rd rs 1]
  | .snez rd rs => [.sltu rd 0 rs]
  | .sltz rd rs => [.slt rd rs 0]
  | .sgtz rd rs => [.slt rd 0 rs]
  | .beqz rs off => [.beq rs 0 off]
  | .bnez rs off => [.bne rs 0 off]
  | .blez rs off => [.bge 0 rs off]
  | .bgez rs off => [.bge rs 0 off]
  | .bltz rs off => [.blt rs 0 off]
  | .bgtz rs off => [.blt 0 rs off]
  | .bgt rs rt off => [.blt rt rs off]
  | .ble rs rt off => [.bge rt rs off]
  | .bgtu rs rt off => [.bltu rt rs off]
  | .bleu rs rt off => [.bgeu rt rs off]
  | .j off => [.jal 0 off]
  | .jal off => [.jal 1 off]
  | .jr rs => [.jalr 0 rs 0]
  | .jalr rs => [.jalr 1 rs 0]
  | .ret => [.jalr 0 1 0]
  | .call off => [.auipc 1 (hiPart off), .jalr 1 1 (loPart off)]
  | .tail off => [.auipc 6 (hiPart off), .jalr 0 6 (loPart off)]
  | .la rd off => [.auipc rd (hiPart off), .addi rd rd (loPart off)]
  | .lbSym rd off => [.auipc rd (hiPart off), .lb rd rd (loPart off)]
  | .lhSym rd off => [.auipc rd (hiPart off), .lh rd rd (loPart off)]
  | .lwSym rd off => [.auipc rd (hiPart off), .lw rd rd (loPart off)]
  | .ldSym rd off => [.auipc rd (hiPart off), .ld rd rd (loPart off)]
  | .sbSym rs off rt => [.auipc rt (hiPart off), .sb rt rs (loPart off)]
  | .shSym rs off rt => [.auipc rt (hiPart off), .sh rt rs (loPart off)]
  | .swSym rs off rt => [.auipc rt (hiPart off), .sw rt rs (loPart off)]
  | .sdSym rs off rt => [.auipc rt (hiPart off), .sd rt rs (loPart off)]
  | .fence => [.fence]
  | .csrr rd csr => [.csrrs rd 0 (csrImm csr)]
  | .csrw csr rs => [.csrrw 0 rs (csrImm csr)]
  | .csrs csr rs => [.csrrs 0 rs (csrImm csr)]
  | .csrc csr rs => [.csrrc 0 rs (csrImm csr)]
  | .csrwi csr zimm => [.csrrwi 0 zimm (csrImm csr)]
  | .csrsi csr zimm => [.csrrsi 0 zimm (csrImm csr)]
  | .csrci csr zimm => [.csrrci 0 zimm (csrImm csr)]
  | .rdcycle rd => [.csrrs rd 0 (csrImm 0xC00)]
  | .rdtime rd => [.csrrs rd 0 (csrImm 0xC01)]
  | .rdinstret rd => [.csrrs rd 0 (csrImm 0xC02)]

end Sys2Proof.Machine
end

