-- ==== Sys2Proof/Machine/CsrTable.lean ====
section
/-!
DEFINITION. The CSR symbolic table (spec/46_system_csr.md R270): CSR numbers to names, for diagnostics only. No CSR holds state
(R271), and no meaning reads this table.
-/

namespace Sys2Proof.Machine

/-- `lookup(n)`, the spec's minimum table and no more (R270). DESIGN CHOICE (unsafe), log entry 10. -/
def csrLookup (n : BitVec 12) : Option String :=
  if n = 0x300#12 then some "mstatus"
  else if n = 0x301#12 then some "misa"
  else if n = 0xF14#12 then some "mhartid"
  else none

/-- The CSR number that a decoded CSR record names (30_encoding.md R69, R83). -/
def csrOf : Instr → Option (BitVec 12)
  | .csrrw _ _ imm => some (csrNumber imm)
  | .csrrs _ _ imm => some (csrNumber imm)
  | .csrrc _ _ imm => some (csrNumber imm)
  | .csrrwi _ _ imm => some (csrNumber imm)
  | .csrrsi _ _ imm => some (csrNumber imm)
  | .csrrci _ _ imm => some (csrNumber imm)
  | .add _ _ _ | .sub _ _ _ | .slt _ _ _ | .sltu _ _ _ | .xor _ _ _ | .or _ _ _ | .and _ _ _
  | .addi _ _ _ | .slti _ _ _ | .sltiu _ _ _ | .xori _ _ _ | .ori _ _ _ | .andi _ _ _ | .lui _ _
  | .auipc _ _ | .lb _ _ _ | .lh _ _ _ | .lw _ _ _ | .ld _ _ _ | .lbu _ _ _ | .lhu _ _ _
  | .lwu _ _ _ | .sb _ _ _ | .sh _ _ _ | .sw _ _ _ | .sd _ _ _ | .jal _ _ | .jalr _ _ _
  | .beq _ _ _ | .bne _ _ _ | .blt _ _ _ | .bge _ _ _ | .bltu _ _ _ | .bgeu _ _ _ | .sll _ _ _
  | .srl _ _ _ | .sra _ _ _ | .slli _ _ _ | .srli _ _ _ | .srai _ _ _ | .addiw _ _ _ | .slliw _ _ _
  | .srliw _ _ _ | .sraiw _ _ _ | .addw _ _ _ | .subw _ _ _ | .sllw _ _ _ | .srlw _ _ _
  | .sraw _ _ _ | .mul _ _ _ | .mulh _ _ _ | .mulhsu _ _ _ | .mulhu _ _ _ | .div _ _ _
  | .divu _ _ _ | .rem _ _ _ | .remu _ _ _ | .mulw _ _ _ | .divw _ _ _ | .divuw _ _ _ | .remw _ _ _
  | .remuw _ _ _ | .fence | .fenceI | .ecall | .ebreak | .unknown _ => none

end Sys2Proof.Machine
end

