-- ==== Sys2Proof/Machine/Driver.lean ====
section
/-!
DEFINITION. The external driver (spec/40_execution_cycle.md R117): it calls step until the machine has halted or the bound is
exhausted.
-/

namespace Sys2Proof.Machine

/-- The run under an iteration bound, and how many calls of step are left when it ends. -/
def drive : Nat → State → Host.Outcome (State × Nat) Fault Refusal
  | 0, s => .next (s, 0)
  | k + 1, s =>
    if s.running then
      match step s with
      | .next t => drive k t
      | .fault r => .fault r
      | .refused r => .refused r
    else .next (s, k + 1)

end Sys2Proof.Machine
end

