-- ==== Sys2Proof/Machine/Construct.lean ====
section
/-!
DEFINITION. Construction, the machine's only reset (spec/70_reset_and_hazards.md R310), with its preconditions (R311).
-/

namespace Sys2Proof.Machine

/-- `construct(IMAGE, SIZE)` at a fixed BASE and configuration (R310): none where the image is longer than the window or the
window would pass 2^64 (R311), so that no machine is produced. -/
def State.construct (cfg : Config) (regInit : Vector Word 31) (image : List Byte) : Option State :=
  if image.length ≤ cfg.size ∧ cfg.base + cfg.size ≤ 2 ^ 64 then some (State.init cfg regInit image) else none

end Sys2Proof.Machine
end

