-- ==== Sys2Proof/Machine/Observe.lean ====
section
/-!
DEFINITION. The observation interface (spec/10_state.md R38): accessors that read the state and change nothing.
-/

namespace Sys2Proof.Machine

/-- `is_running()`. -/
def State.isRunning (s : State) : Bool := s.running

/-- The halt reason of 10_state.md R27. -/
def State.reason (s : State) : Option HaltReason := s.haltReason

/-- The program counter, which the observer may read too (R38). -/
def State.readPc (s : State) : Word := s.pc

/-- The register dump, x0 to x31. -/
def State.dumpRegs (s : State) : List Word := (List.range 32).map fun i => s.x (BitVec.ofNat 5 i)

/-- The memory dump of a range; none, for AddressError, where the range is not entirely in the window
(60_exceptions.md R287, 93 U16). -/
def State.dumpMem (s : State) (a : Word) (length : Nat) : Option (List Byte) :=
  if inWindow s.cfg a length then some ((List.range length).map fun k => Memory.read s.mem (a.toNat + k)) else none

/-- The byte at a bus address, as every read sees it. -/
def State.byteAt (s : State) (a : Nat) : Byte := Memory.read s.mem a

end Sys2Proof.Machine
end

