-- ==== Sys2Proof/Safety.lean ====
section
/-!
DEFINITION. The terms the claims use: what one outcome says about the state before it, the invariant of the machine, and what
an instruction may change. Everything is said through the accessors of spec/10_state.md R38.
-/

namespace Sys2Proof

/-- The register an instruction writes when it executes (its rd; none for stores, branches, fences and the instructions that
always halt). -/
def Instr.dest? : Instr → Option RegIdx
  | .add rd _ _ | .sub rd _ _ | .slt rd _ _ | .sltu rd _ _ | .xor rd _ _ | .or rd _ _ | .and rd _ _
  | .addi rd _ _ | .slti rd _ _ | .sltiu rd _ _ | .xori rd _ _ | .ori rd _ _ | .andi rd _ _
  | .lui rd _ | .auipc rd _ | .lb rd _ _ | .lh rd _ _ | .lw rd _ _ | .ld rd _ _ | .lbu rd _ _
  | .lhu rd _ _ | .lwu rd _ _ | .jal rd _ | .jalr rd _ _ | .sll rd _ _ | .srl rd _ _ | .sra rd _ _
  | .slli rd _ _ | .srli rd _ _ | .srai rd _ _ | .addiw rd _ _ | .slliw rd _ _ | .srliw rd _ _
  | .sraiw rd _ _ | .addw rd _ _ | .subw rd _ _ | .sllw rd _ _ | .srlw rd _ _ | .sraw rd _ _
  | .mul rd _ _ | .mulh rd _ _ | .mulhsu rd _ _ | .mulhu rd _ _ | .div rd _ _ | .divu rd _ _
  | .rem rd _ _ | .remu rd _ _ | .mulw rd _ _ | .divw rd _ _ | .divuw rd _ _ | .remw rd _ _
  | .remuw rd _ _ => some rd
  | .sb _ _ _ | .sh _ _ _ | .sw _ _ _ | .sd _ _ _ | .beq _ _ _ | .bne _ _ _ | .blt _ _ _
  | .bge _ _ _ | .bltu _ _ _ | .bgeu _ _ _ | .fence | .fenceI | .ecall | .ebreak | .csrrw _ _ _
  | .csrrs _ _ _ | .csrrc _ _ _ | .csrrwi _ _ _ | .csrrsi _ _ _ | .csrrci _ _ _ | .unknown _ => none

/-- The stores, the only instructions that write memory (42_loads_stores.md R169). -/
def Instr.isStore : Instr → Bool
  | .sb _ _ _ | .sh _ _ _ | .sw _ _ _ | .sd _ _ _ => true
  | .add _ _ _ | .sub _ _ _ | .slt _ _ _ | .sltu _ _ _ | .xor _ _ _ | .or _ _ _ | .and _ _ _
  | .addi _ _ _ | .slti _ _ _ | .sltiu _ _ _ | .xori _ _ _ | .ori _ _ _ | .andi _ _ _ | .lui _ _
  | .auipc _ _ | .lb _ _ _ | .lh _ _ _ | .lw _ _ _ | .ld _ _ _ | .lbu _ _ _ | .lhu _ _ _
  | .lwu _ _ _ | .jal _ _ | .jalr _ _ _ | .beq _ _ _ | .bne _ _ _ | .blt _ _ _ | .bge _ _ _
  | .bltu _ _ _ | .bgeu _ _ _ | .sll _ _ _ | .srl _ _ _ | .sra _ _ _ | .slli _ _ _ | .srli _ _ _
  | .srai _ _ _ | .addiw _ _ _ | .slliw _ _ _ | .srliw _ _ _ | .sraiw _ _ _ | .addw _ _ _
  | .subw _ _ _ | .sllw _ _ _ | .srlw _ _ _ | .sraw _ _ _ | .mul _ _ _ | .mulh _ _ _
  | .mulhsu _ _ _ | .mulhu _ _ _ | .div _ _ _ | .divu _ _ _ | .rem _ _ _ | .remu _ _ _
  | .mulw _ _ _ | .divw _ _ _ | .divuw _ _ _ | .remw _ _ _ | .remuw _ _ _ | .fence | .fenceI
  | .ecall | .ebreak | .csrrw _ _ _ | .csrrs _ _ _ | .csrrc _ _ _ | .csrrwi _ _ _ | .csrrsi _ _ _
  | .csrrci _ _ _ | .unknown _ => false

/-- The control transfers (43_control_transfer.md), the only instructions that can return Transfer(t). -/
def Instr.isTransfer : Instr → Bool
  | .jal _ _ | .jalr _ _ _ | .beq _ _ _ | .bne _ _ _ | .blt _ _ _ | .bge _ _ _ | .bltu _ _ _
  | .bgeu _ _ _ => true
  | .add _ _ _ | .sub _ _ _ | .slt _ _ _ | .sltu _ _ _ | .xor _ _ _ | .or _ _ _ | .and _ _ _
  | .addi _ _ _ | .slti _ _ _ | .sltiu _ _ _ | .xori _ _ _ | .ori _ _ _ | .andi _ _ _ | .lui _ _
  | .auipc _ _ | .lb _ _ _ | .lh _ _ _ | .lw _ _ _ | .ld _ _ _ | .lbu _ _ _ | .lhu _ _ _
  | .lwu _ _ _ | .sb _ _ _ | .sh _ _ _ | .sw _ _ _ | .sd _ _ _ | .sll _ _ _ | .srl _ _ _
  | .sra _ _ _ | .slli _ _ _ | .srli _ _ _ | .srai _ _ _ | .addiw _ _ _ | .slliw _ _ _
  | .srliw _ _ _ | .sraiw _ _ _ | .addw _ _ _ | .subw _ _ _ | .sllw _ _ _ | .srlw _ _ _
  | .sraw _ _ _ | .mul _ _ _ | .mulh _ _ _ | .mulhsu _ _ _ | .mulhu _ _ _ | .div _ _ _
  | .divu _ _ _ | .rem _ _ _ | .remu _ _ _ | .mulw _ _ _ | .divw _ _ _ | .divuw _ _ _ | .remw _ _ _
  | .remuw _ _ _ | .fence | .fenceI | .ecall | .ebreak | .csrrw _ _ _ | .csrrs _ _ _ | .csrrc _ _ _
  | .csrrwi _ _ _ | .csrrsi _ _ _ | .csrrci _ _ _ | .unknown _ => false

/-- The data access of a load or a store: base register, offset and width in bytes (20_memory.md R46, 42_loads_stores.md
R160); no other instruction makes one (R59). -/
def Instr.access? : Instr → Option (RegIdx × Word × Nat)
  | .lb _ rs1 imm | .lbu _ rs1 imm | .sb rs1 _ imm => some (rs1, imm, 1)
  | .lh _ rs1 imm | .lhu _ rs1 imm | .sh rs1 _ imm => some (rs1, imm, 2)
  | .lw _ rs1 imm | .lwu _ rs1 imm | .sw rs1 _ imm => some (rs1, imm, 4)
  | .ld _ rs1 imm | .sd rs1 _ imm => some (rs1, imm, 8)
  | .add _ _ _ | .sub _ _ _ | .slt _ _ _ | .sltu _ _ _ | .xor _ _ _ | .or _ _ _ | .and _ _ _
  | .addi _ _ _ | .slti _ _ _ | .sltiu _ _ _ | .xori _ _ _ | .ori _ _ _ | .andi _ _ _ | .lui _ _
  | .auipc _ _ | .jal _ _ | .jalr _ _ _ | .beq _ _ _ | .bne _ _ _ | .blt _ _ _ | .bge _ _ _
  | .bltu _ _ _ | .bgeu _ _ _ | .sll _ _ _ | .srl _ _ _ | .sra _ _ _ | .slli _ _ _ | .srli _ _ _
  | .srai _ _ _ | .addiw _ _ _ | .slliw _ _ _ | .srliw _ _ _ | .sraiw _ _ _ | .addw _ _ _
  | .subw _ _ _ | .sllw _ _ _ | .srlw _ _ _ | .sraw _ _ _ | .mul _ _ _ | .mulh _ _ _
  | .mulhsu _ _ _ | .mulhu _ _ _ | .div _ _ _ | .divu _ _ _ | .rem _ _ _ | .remu _ _ _
  | .mulw _ _ _ | .divw _ _ _ | .divuw _ _ _ | .remw _ _ _ | .remuw _ _ _ | .fence | .fenceI
  | .ecall | .ebreak | .csrrw _ _ _ | .csrrs _ _ _ | .csrrc _ _ _ | .csrrwi _ _ _ | .csrrsi _ _ _
  | .csrrci _ _ _ | .unknown _ => none

end Sys2Proof

namespace Sys2Proof.Machine

/-! ### Comparing two states -/

/-- Every register reads the same. -/
def SameRegs (s t : State) : Prop := ∀ i : RegIdx, t.x i = s.x i

/-- Every byte of memory reads the same. -/
def SameBytes (s t : State) : Prop := ∀ a : Nat, t.byteAt a = s.byteAt a

/-- The bytes outside the n bytes from address a read the same. -/
def SameBytesOutside (a n : Nat) (s t : State) : Prop := ∀ b : Nat, (b < a ∨ a + n ≤ b) → t.byteAt b = s.byteAt b

/-- The configuration, the running flag, the halt reason and the model's own draw counter are the same. -/
def SameControl (s t : State) : Prop :=
  t.cfg = s.cfg ∧ t.running = s.running ∧ t.haltReason = s.haltReason ∧ t.draws = s.draws

/-! ### What an outcome says about the state before it -/

/-- The instruction completes: it answers a next state in which rd reads v (unless rd is x0, which reads 0 as ever), every
other register, every byte and all control state are unchanged, and pc is pc'. -/
def Writes (o : Result) (s : State) (rd : RegIdx) (v pc' : Word) : Prop :=
  ∃ t, o = .next t ∧ (∀ i : RegIdx, t.x i = if i = rd ∧ i ≠ 0 then v else s.x i) ∧ t.pc = pc' ∧ SameBytes s t ∧
    SameControl s t

/-- The instruction completes and changes pc only. -/
def Moves (o : Result) (s : State) (pc' : Word) : Prop :=
  ∃ t, o = .next t ∧ SameRegs s t ∧ t.pc = pc' ∧ SameBytes s t ∧ SameControl s t

/-- The step halts with r and changes nothing but the running flag and the halt reason (60_exceptions.md R289). -/
def Halts (o : Result) (s : State) (r : HaltReason) : Prop :=
  ∃ t, o = .next t ∧ t.running = false ∧ t.haltReason = some r ∧ t.pc = s.pc ∧ SameRegs s t ∧ SameBytes s t ∧
    t.cfg = s.cfg ∧ t.draws = s.draws

/-- A store of n bytes of v at ea completes: byte k of v stands at ea + k for k < n, every other byte, every register and all
control state are unchanged, and pc is pc + 4 (42_loads_stores.md R169, 20_memory.md R43). -/
def Stores (o : Result) (s : State) (ea : Word) (n : Nat) (v : Word) : Prop :=
  ∃ t, o = .next t ∧ (∀ k < n, t.byteAt (ea.toNat + k) = BitVec.ofNat 8 (v.toNat / 256 ^ k)) ∧
    SameBytesOutside ea.toNat n s t ∧ SameRegs s t ∧ t.pc = s.pc + 4 ∧ SameControl s t

/-- A byte a failing store of n bytes of v at ea may leave at address b: the old byte, or, at a target address inside the
window, the new one (20_memory.md R49). -/
def MayRemain (s : State) (ea : Word) (n : Nat) (v : Word) (b : Nat) (byte : Byte) : Prop :=
  byte = s.byteAt b ∨
    ∃ k < n, b = (ea.toNat + k) % 2 ^ 64 ∧ s.cfg.base ≤ b ∧ b < s.cfg.base + s.cfg.size ∧
      byte = BitVec.ofNat 8 (v.toNat / 256 ^ k)

/-- A store of n bytes of v at ea halts with WriteFailed(ea), every byte one that may remain (20_memory.md R49). -/
def StoreFails (o : Result) (s : State) (ea : Word) (n : Nat) (v : Word) : Prop :=
  ∃ t, o = .next t ∧ t.running = false ∧ t.haltReason = some (.writeFailed ea) ∧ t.pc = s.pc ∧ SameRegs s t ∧
    t.cfg = s.cfg ∧ ∀ b, MayRemain s ea n v b (t.byteAt b)

/-- The n bytes from address a as a little-endian number (20_memory.md R42). -/
def leValue (s : State) (a n : Nat) : Nat :=
  ((List.range n).map fun k => (s.byteAt (a + k)).toNat * 256 ^ k).sum

/-- The integer z reduced to n bits, read as signed and widened to 64 bits: `sext_n` of z (00_scope.md R7). -/
def sextInt (n : Nat) (z : Int) : Word := BitVec.ofInt 64 (Int.bmod z (2 ^ n))

/-- The signed reading of the low 32 bits of a register (00_scope.md R7, 44_shifts_word.md R200). -/
def signed32 (a : Word) : Int := Int.bmod a.toNat (2 ^ 32)

/-- Every word of a row, its masked bits those of the row, decodes as `f` of the word (30_encoding.md R92). -/
def RowDecodes (mask bits : InstrWord) (f : InstrWord → Instr) : Prop :=
  ∀ w : InstrWord, w &&& mask = bits → decode w = f w

/-! ### The invariant -/

/-- The listed bytes all lie in the mapped window (20_memory.md R41). -/
abbrev State.memInWindow (s : State) : Prop := ∀ c ∈ s.mem, s.cfg.base ≤ c.1 ∧ c.1 < s.cfg.base + s.cfg.size

/-- The machine's invariant: an admitted configuration, the store in canonical form and inside the window, and a halt reason
exactly when the machine has halted (10_state.md R26, R27). -/
abbrev State.Inv (s : State) : Prop :=
  Config.wf s.cfg ∧ Memory.wf s.mem ∧ s.memInWindow ∧ (s.running = true ↔ s.haltReason = none)

/-- A safe outcome: a next state; there is no fault and no refusal in this machine. -/
def Safe (o : Result) : Prop := ∃ t, o = .next t

/-- The four bytes at pc lie in the window and decode to i, and nothing is wrong with pc: the step fetches i
(40_execution_cycle.md R101, R102). -/
def Fetches (s : State) (i : Instr) : Prop :=
  ¬(s.cfg.misalignedPc = .halt ∧ s.pc.toNat % 4 ≠ 0) ∧
    s.cfg.base ≤ s.pc.toNat ∧ s.pc.toNat - s.cfg.base + 4 ≤ s.cfg.size ∧
    decodeBytes [s.byteAt s.pc.toNat, s.byteAt (s.pc.toNat + 1), s.byteAt (s.pc.toNat + 2), s.byteAt (s.pc.toNat + 3)]
      = some (i, [])

/-- By default, where IMPLEMENTED is the reference set, a step that fetches i halts with NotImplemented and its record
(40_execution_cycle.md R104, R115). -/
def HaltsByDefault (i : Instr) : Prop :=
  ∀ s : State, s.running = true → s.cfg.implemented = Mnemonic.referenceSet → Fetches s i →
    Halts (step s) s (.notImplemented i)

end Sys2Proof.Machine
end

