-- ==== Sys2Proof/Certificates/Slice0/Obligations.lean ====
section
/-!
DEFINITION. The statements for the provers, from the numbered rules of spec/. Values are said in exact integer arithmetic
(Nat and Int), apart from the model's own operations.
-/

open Sys2Proof Sys2Proof.Machine

/-! ## Decoder and encoding (30_encoding.md) -/

/-- Words written out from 95_test_vectors.md section 2 decode to the instructions they stand for. -/
def Obligations.KnownWordsDecode : Prop :=
  decode 0x002081B3 = .add 3 1 2 ∧ decode 0xFFF00013 = .addi 0 0 (-1) ∧ decode 0xFE20BC23 = .sd 1 2 (-8) ∧
  decode 0xFE208CE3 = .beq 1 2 (-8) ∧ decode 0x800002B7 = .lui 5 (-2147483648) ∧ decode 0xFFDFF06F = .jal 0 (-4) ∧
  decode 0x4200D193 = .srai 3 1 32 ∧ decode 0x01F0919B = .slliw 3 1 31 ∧ decode 0x022081B3 = .mul 3 1 2 ∧
  decode 0xF14020F3 = .csrrs 1 0 (-236) ∧ decode 0x8330000F = .fence ∧ decode 0x40001033 = .unknown 0x40001033

/-- The six fields are the bits R61 names. -/
def Obligations.FieldsAreTheirBits : Prop :=
  ∀ w : InstrWord,
    (opcodeOf w).toNat = w.toNat % 2 ^ 7 ∧ (rdOf w).toNat = w.toNat / 2 ^ 7 % 2 ^ 5 ∧
    (funct3Of w).toNat = w.toNat / 2 ^ 12 % 2 ^ 3 ∧ (rs1Of w).toNat = w.toNat / 2 ^ 15 % 2 ^ 5 ∧
    (rs2Of w).toNat = w.toNat / 2 ^ 20 % 2 ^ 5 ∧ (funct7Of w).toNat = w.toNat / 2 ^ 25 % 2 ^ 7

/-- The I and U immediates (R63, R66), with their ranges and worked examples. -/
def Obligations.ImmediatesIAndU : Prop :=
  (∀ w : InstrWord,
    (immI w).toInt = Int.bmod (w.toNat / 2 ^ 20) (2 ^ 12) ∧ -2048 ≤ (immI w).toInt ∧ (immI w).toInt ≤ 2047 ∧
    (immU w).toInt = Int.bmod (w.toNat / 2 ^ 12 * 2 ^ 12) (2 ^ 32) ∧ (immU w).toNat % 2 ^ 12 = 0) ∧
  immI 0xFFF00000 = -1 ∧ decode 0xFFF00000 = .unknown 0xFFF00000 ∧ decode 0xFFF00013 = .addi 0 0 (-1) ∧
  immU 0x00001000 = 0x1000 ∧ decode 0x00001000 = .unknown 0x00001000 ∧ decode 0x00001037 = .lui 0 0x1000 ∧
  immU 0x80000000 = 0xFFFFFFFF80000000

/-- The S and J immediates (R64, R67), with their ranges. -/
def Obligations.ImmediatesSAndJ : Prop :=
  ∀ w : InstrWord,
    (immS w).toInt = Int.bmod (w.toNat / 2 ^ 25 * 2 ^ 5 + w.toNat / 2 ^ 7 % 2 ^ 5) (2 ^ 12) ∧
    -2048 ≤ (immS w).toInt ∧ (immS w).toInt ≤ 2047 ∧
    (immJ w).toInt = Int.bmod (w.toNat / 2 ^ 31 * 2 ^ 20 + w.toNat / 2 ^ 12 % 2 ^ 8 * 2 ^ 12 +
      w.toNat / 2 ^ 20 % 2 * 2 ^ 11 + w.toNat / 2 ^ 21 % 2 ^ 10 * 2) (2 ^ 21) ∧
    (immJ w).toInt % 2 = 0 ∧ -1048576 ≤ (immJ w).toInt ∧ (immJ w).toInt ≤ 1048574

/-- The B immediate (R65): its bits, its range, and the source's construction from the S-type value S, in which bit 0 is
forced to zero and bit 11 is replaced by S[0]. -/
def Obligations.ImmediateB : Prop :=
  ∀ w : InstrWord,
    (immB w).toInt = Int.bmod (w.toNat / 2 ^ 31 * 2 ^ 12 + w.toNat / 2 ^ 7 % 2 * 2 ^ 11 +
      w.toNat / 2 ^ 25 % 2 ^ 6 * 2 ^ 5 + w.toNat / 2 ^ 8 % 2 ^ 4 * 2) (2 ^ 13) ∧
    (immB w).toInt % 2 = 0 ∧ -4096 ≤ (immB w).toInt ∧ (immB w).toInt ≤ 4094 ∧
    immB w = (immS w &&& ~~~(0x801 : Word)) ||| ((immS w &&& 1) <<< 11)

/-- The two-level dispatch is the opcode table: a word that matches a row decodes to that row's mnemonic, and a word that
matches none decodes to Unknown with the whole word (R70, R82, R92). -/
def Obligations.DecoderIsTheOpcodeTable : Prop :=
  ∀ w : InstrWord,
    (∀ m : Mnemonic, w &&& m.mask = m.matchBits → (decode w).mnemonic? = some m) ∧
    ((∀ m : Mnemonic, w &&& m.mask ≠ m.matchBits) → decode w = .unknown w)

/-- No two rows of the opcode table match one word (R92). -/
def Obligations.NoTwoRowsMatchOneWord : Prop :=
  ∀ (w : InstrWord) (m m' : Mnemonic), w &&& m.mask = m.matchBits → w &&& m'.mask = m'.matchBits → m = m'

/-- Decoding the encoding of a well-formed instruction gives it back, every operand at every value. -/
def Obligations.DecodeOfEncode : Prop :=
  ∀ i : Instr, i.wellFormed = true → decode (encode i) = i

/-- Encoding what was decoded gives the word back, but for the fences, whose other fields are ignored (R80). -/
def Obligations.EncodeOfDecode : Prop :=
  ∀ w : InstrWord, decode w ≠ .fence → decode w ≠ .fenceI → encode (decode w) = w

/-- The decoder's records are well formed. -/
def Obligations.DecodedIsWellFormed : Prop :=
  ∀ w : InstrWord, (decode w).wellFormed = true

/-- SYSTEM (R81): with funct3 = 0 only the two exact words are recognised, funct3 = 4 is Unknown, and the other funct3 values
are the six CSR instructions. -/
def Obligations.SystemDecoding : Prop :=
  ∀ w : InstrWord, opcodeOf w = 0x73 →
    (funct3Of w = 0 → decode w = if w = 0x00000073 then .ecall else if w = 0x00100073 then .ebreak else .unknown w) ∧
    (funct3Of w = 1 → decode w = .csrrw (rdOf w) (rs1Of w) (immI w)) ∧
    (funct3Of w = 2 → decode w = .csrrs (rdOf w) (rs1Of w) (immI w)) ∧
    (funct3Of w = 3 → decode w = .csrrc (rdOf w) (rs1Of w) (immI w)) ∧
    (funct3Of w = 4 → decode w = .unknown w) ∧
    (funct3Of w = 5 → decode w = .csrrwi (rdOf w) (rs1Of w) (immI w)) ∧
    (funct3Of w = 6 → decode w = .csrrsi (rdOf w) (rs1Of w) (immI w)) ∧
    (funct3Of w = 7 → decode w = .csrrci (rdOf w) (rs1Of w) (immI w))

/-! ## The step (40_execution_cycle.md, 60_exceptions.md) -/

/-- A running step runs the instruction its four bytes at pc decode to, when its mnemonic is in IMPLEMENTED: the step adds
nothing around exec, which moves pc itself (R100). -/
def Obligations.StepRunsTheDecodedInstruction : Prop :=
  ∀ (s : State) (i : Instr) (m : Mnemonic), s.running = true → Fetches s i → i.mnemonic? = some m →
    m ∈ s.cfg.implemented → step s = exec i s

/-- The checks of a step, in the order of R288, and what the first that applies gives. In the last row the step halts exactly
when the instruction's single data access fails. -/
def Obligations.StepPriority : Prop :=
  ∀ s : State,
    (s.running = false → step s = .next s) ∧
    (s.running = true → s.cfg.misalignedPc = .halt → s.pc.toNat % 4 ≠ 0 →
      Halts (step s) s (.fetchError .misaligned s.pc)) ∧
    (s.running = true → ¬(s.cfg.misalignedPc = .halt ∧ s.pc.toNat % 4 ≠ 0) →
      (s.pc.toNat < s.cfg.base ∨ s.cfg.size < s.pc.toNat - s.cfg.base + 4) →
      Halts (step s) s (.fetchError .unmapped s.pc)) ∧
    (∀ w, s.running = true → Fetches s (.unknown w) → Halts (step s) s (.notImplemented (.unknown w))) ∧
    (∀ i m, s.running = true → Fetches s i → i.mnemonic? = some m → m ∉ s.cfg.implemented →
      Halts (step s) s (.notImplemented i)) ∧
    (∀ i m, s.running = true → Fetches s i → i.mnemonic? = some m → m ∈ s.cfg.implemented →
      m ∉ Mnemonic.neverImplemented →
      ∃ t, step s = .next t ∧
        match i.access? with
        | none => t.running = true
        | some (rs1, imm, n) =>
          (inWindow s.cfg (s.x rs1 + imm) n = true → t.running = true) ∧
          (inWindow s.cfg (s.x rs1 + imm) n = false → t.running = false ∧
            t.haltReason = some (if i.isStore then .writeFailed (s.x rs1 + imm) else .readFailed (s.x rs1 + imm))))

/-- Halting is terminal and monotonic (R114): a step of a halted machine changes nothing, and once a run has halted, every
longer run ends in the same state. -/
def Obligations.HaltingIsMonotonic : Prop :=
  (∀ s : State, s.running = false → step s = .next s) ∧
  ∀ (j k : Nat) (s t : State), Host.Core.run core j s = .next t → t.running = false →
    Host.Core.run core (j + k) s = .next t

/-- Every step and every instruction answers a next state, in every state: there is no fault and no refusal (R289, R317). -/
def Obligations.EveryOutcomeIsNext : Prop :=
  (∀ s : State, Safe (step s)) ∧ ∀ (i : Instr) (s : State), Safe (exec i s)

/-- Halts are precise (R289, R291): the step that halts records a reason and leaves pc, the registers and the configuration;
it leaves memory too, unless the reason is WriteFailed(ea): then the step fetched a store whose effective address is ea, and
every byte is one that a failing store of its width and x[rs2] may leave. No later step executes anything. -/
def Obligations.HaltsArePrecise : Prop :=
  ∀ s t : State, s.running = true → step s = .next t → t.running = false →
    t.pc = s.pc ∧ SameRegs s t ∧ t.cfg = s.cfg ∧ step t = .next t ∧
    ∃ r, t.haltReason = some r ∧
      match r with
      | .writeFailed ea => ∃ rs1 rs2 imm i n,
          (i, n) ∈ [(Instr.sb rs1 rs2 imm, 1), (.sh rs1 rs2 imm, 2), (.sw rs1 rs2 imm, 4), (.sd rs1 rs2 imm, 8)] ∧
          Fetches s i ∧ ea = s.x rs1 + imm ∧ ∀ b, MayRemain s ea n (s.x rs2) b (t.byteAt b)
      | _ => SameBytes s t

/-- Whole-machine frame: an instruction changes no register but its rd, no byte unless it is a store, no configuration, and
it moves pc by 4 unless it is a control transfer or halts. -/
def Obligations.InstructionFrame : Prop :=
  ∀ (i : Instr) (s t : State), exec i s = .next t →
    (∀ r : RegIdx, i.dest? ≠ some r → t.x r = s.x r) ∧
    (i.isStore = false → SameBytes s t) ∧
    t.cfg = s.cfg ∧
    (i.isTransfer = false → t.running = true → t.pc = s.pc + 4) ∧
    (i.isTransfer = true → t.running = s.running ∧ t.haltReason = s.haltReason)

/-- Every step keeps the invariant: admitted configuration, store in canonical form and inside the window, halt reason
exactly when halted. -/
def Obligations.StepKeepsInv : Prop :=
  ∀ s t : State, s.Inv → step s = .next t → t.Inv

/-- The reset state is the construction of the model's own default configuration (log entries 2 to 4) with an empty image, and
it meets the invariant. -/
def Obligations.ResetMeetsInv : Prop :=
  State.construct Config.default (Vector.replicate 31 0) [] = some State.reset ∧ State.reset.Inv

/-- Every constructed machine meets the invariant, whatever its admitted configuration, REG_INIT and image. -/
def Obligations.ConstructionMeetsInv : Prop :=
  ∀ (cfg : Config) (regInit : Vector Word 31) (image : List Byte) (s : State),
    Config.wf cfg → State.construct cfg regInit image = some s → s.Inv

/-- Construction (R33, R311, with R22, R25 to R28, R34 and R310): refused where a precondition fails; else the image from
offset 0 and zeros up to SIZE, pc at BASE wherever BASE is a 64-bit value (ConstructionPc says the rest), x2 at BASE + SIZE, x0
zero, the other registers REG_INIT's, running, no reason. -/
def Obligations.ConstructionState : Prop :=
  ∀ (cfg : Config) (regInit : Vector Word 31) (image : List Byte),
    (cfg.size < image.length ∨ 2 ^ 64 < cfg.base + cfg.size → State.construct cfg regInit image = none) ∧
    (image.length ≤ cfg.size → cfg.base + cfg.size ≤ 2 ^ 64 →
      ∃ s, State.construct cfg regInit image = some s ∧ s.cfg = cfg ∧
        (cfg.base < 2 ^ 64 → s.pc.toNat = cfg.base) ∧ s.running = true ∧ s.haltReason = none ∧
        (∀ o, o < image.length → s.byteAt (cfg.base + o) = (image[o]?).getD 0) ∧
        (∀ o, image.length ≤ o → o < cfg.size → s.byteAt (cfg.base + o) = 0) ∧
        s.x 0 = 0 ∧ s.x 2 = BitVec.ofNat 64 (cfg.base + cfg.size) ∧
        ∀ i : Fin 31, i.val ≠ 1 → s.x (BitVec.ofNat 5 (i.val + 1)) = regInit[i])

/-- pc after construction, at every admitted BASE: BASE modulo 2^64. Where BASE = 2^64, which needs SIZE = 0, the spec gives pc
no value and this 0 is the model's choice (log entry 16); the first step then halts with FetchError(Unmapped, 0). -/
def Obligations.ConstructionPc : Prop :=
  ∀ (cfg : Config) (regInit : Vector Word 31) (image : List Byte) (s : State),
    State.construct cfg regInit image = some s →
      s.pc = BitVec.ofNat 64 cfg.base ∧
      (cfg.base = 2 ^ 64 → s.pc = 0 ∧ cfg.size = 0 ∧ Halts (step s) s (.fetchError .unmapped 0))

/-- No step changes the configuration (10_state.md R37). -/
def Obligations.StepKeepsConfig : Prop :=
  ∀ s t : State, step s = .next t → t.cfg = s.cfg

/-- Under MISALIGNED_PC = Halt an instruction completes only at a pc that is a multiple of 4, and under either value an
instruction that is no control transfer keeps an aligned pc aligned (R36, R102; log entry 7). -/
def Obligations.PcAlignment : Prop :=
  (∀ s t : State, s.cfg.misalignedPc = .halt → s.running = true → step s = .next t → t.running = true →
    s.pc.toNat % 4 = 0) ∧
  (∀ (i : Instr) (s t : State), exec i s = .next t → i.isTransfer = false → s.pc.toNat % 4 = 0 → t.pc.toNat % 4 = 0)

/-- The draw counter is the model's own and reaches nothing but the bytes of a failing store (R116): two states that differ
in it alone step to states that differ in it alone, unless the step halts with WriteFailed; and even then pc, registers,
running flag and halt reason agree. -/
def Obligations.DrawsReachOnlyFailedStores : Prop :=
  ∀ (s t t' : State) (d : Nat), step s = .next t → step { s with draws := d } = .next t' →
    t'.pc = t.pc ∧ SameRegs t t' ∧ t'.running = t.running ∧ t'.haltReason = t.haltReason ∧ t'.cfg = t.cfg ∧
    ((∀ ea, t.haltReason ≠ some (.writeFailed ea)) → SameBytes t t')

/-- The driver's run ends halted or with its bound exhausted, and in no other way (R117). -/
def Obligations.DriverEnds : Prop :=
  ∀ (k : Nat) (s : State), ∃ t n, drive k s = .next (t, n) ∧ n ≤ k ∧ (t.running = false ∨ n = 0)

/-- The gate (R104, R115): the reference set has 34 mnemonics, the backlog 30 and 8 are never implemented, 72 different
mnemonics in all; and where IMPLEMENTED is the reference set, every instruction outside it halts with NotImplemented and its
record. -/
def Obligations.DefaultGate : Prop :=
  Mnemonic.referenceSet.length = 34 ∧ Mnemonic.backlog.length = 30 ∧ Mnemonic.neverImplemented.length = 8 ∧
  Mnemonic.all.Nodup ∧ (∀ m : Mnemonic, m ∈ Mnemonic.all) ∧
  ∀ (s : State) (i : Instr) (m : Mnemonic), s.cfg.implemented = Mnemonic.referenceSet → s.running = true →
    Fetches s i → i.mnemonic? = some m → m ∈ Mnemonic.backlog ++ Mnemonic.neverImplemented →
    Halts (step s) s (.notImplemented i)

/-! ## Registers and memory (10_state.md, 20_memory.md) -/

/-- The register ports (10_state.md R22, R23): x0 reads 0 in every state, a write to it changes nothing, and a write to
another register changes what that register reads and nothing else. -/
def Obligations.RegisterPorts : Prop :=
  ∀ s : State, s.x 0 = 0 ∧ (∀ v, s.setX 0 v = s) ∧
    ∀ (i : RegIdx) (v : Word), i ≠ 0 →
      (s.setX i v).x i = v ∧ (∀ j, j ≠ i → (s.setX i v).x j = s.x j) ∧ (s.setX i v).pc = s.pc ∧
      SameBytes s (s.setX i v) ∧ SameControl s (s.setX i v)

/-- The bounds check (20_memory.md R44) in exact arithmetic, with its consequences: an access of n > 0 bytes passes only if
every byte does, and with SIZE = 0 none does. -/
def Obligations.BoundsCheck : Prop :=
  ∀ (c : Config) (a : Word) (n : Nat),
    (inWindow c a n = true ↔ c.base ≤ a.toNat ∧ a.toNat - c.base + n ≤ c.size) ∧
    (0 < n → (inWindow c a n = true ↔ ∀ k < n, c.base ≤ a.toNat + k ∧ a.toNat + k < c.base + c.size)) ∧
    (0 < n → c.size = 0 → inWindow c a n = false)

/-- A read after an 8-byte write gives the bytes the write left, at every offset and width inside it: little-endian, with no
alignment (20_memory.md R42, R43, R45, R47), under an admitted configuration, which every step keeps (StepKeepsInv). -/
def Obligations.MixedWidthReadBack : Prop :=
  ∀ (s : State) (a v : Word), Config.wf s.cfg → inWindow s.cfg a 8 = true →
    ∃ t, busWrite s a 8 v = .ok t ∧
      ∀ k n, 0 < n → k + n ≤ 8 → busRead t (a + BitVec.ofNat 64 k) n = some (v.extractLsb' (8 * k) (8 * n))

/-- Fetch coherence (20_memory.md R55): after an SW completes, a fetch at the stored address gives the stored word. -/
def Obligations.FetchSeesTheStore : Prop :=
  ∀ (s t : State) (rs1 rs2 : RegIdx) (imm : Word), exec (.sw rs1 rs2 imm) s = .next t → t.running = true →
    ¬(t.cfg.misalignedPc = .halt ∧ (s.x rs1 + imm).toNat % 4 ≠ 0) →
    fetch { t with pc := s.x rs1 + imm } = .ok ((s.x rs2).setWidth 32)

/-- The observer's memory dump (10_state.md R38, 60_exceptions.md R287): the bytes of a range inside the window, AddressError
for any other; a range of length 0 by the same check (log entry 15). -/
def Obligations.ObserverDump : Prop :=
  ∀ (s : State) (a : Word) (n : Nat),
    (a.toNat < s.cfg.base ∨ s.cfg.size < a.toNat - s.cfg.base + n → s.dumpMem a n = none) ∧
    (s.cfg.base ≤ a.toNat → a.toNat - s.cfg.base + n ≤ s.cfg.size →
      ∃ bytes, s.dumpMem a n = some bytes ∧ bytes.length = n ∧
        ∀ k, k < n → bytes[k]? = some (s.byteAt (a.toNat + k)))

/-! ## Integer arithmetic (41_integer_alu.md) -/

/-- ADD, SUB, SLT, SLTU, XOR, OR, AND (R130 to R136): their rows, and in every state the completion, result and frame. -/
def Obligations.RegisterArithmetic : Prop :=
  RowDecodes 0xFE00707F 0x00000033 (fun w => .add (rdOf w) (rs1Of w) (rs2Of w)) ∧
  RowDecodes 0xFE00707F 0x40000033 (fun w => .sub (rdOf w) (rs1Of w) (rs2Of w)) ∧
  RowDecodes 0xFE00707F 0x00002033 (fun w => .slt (rdOf w) (rs1Of w) (rs2Of w)) ∧
  RowDecodes 0xFE00707F 0x00003033 (fun w => .sltu (rdOf w) (rs1Of w) (rs2Of w)) ∧
  RowDecodes 0xFE00707F 0x00004033 (fun w => .xor (rdOf w) (rs1Of w) (rs2Of w)) ∧
  RowDecodes 0xFE00707F 0x00006033 (fun w => .or (rdOf w) (rs1Of w) (rs2Of w)) ∧
  RowDecodes 0xFE00707F 0x00007033 (fun w => .and (rdOf w) (rs1Of w) (rs2Of w)) ∧
  ∀ (rd rs1 rs2 : RegIdx) (s : State),
    Writes (exec (.add rd rs1 rs2) s) s rd (BitVec.ofNat 64 ((s.x rs1).toNat + (s.x rs2).toNat)) (s.pc + 4) ∧
    Writes (exec (.sub rd rs1 rs2) s) s rd (BitVec.ofInt 64 ((s.x rs1).toNat - (s.x rs2).toNat : Int)) (s.pc + 4) ∧
    Writes (exec (.slt rd rs1 rs2) s) s rd (if (s.x rs1).toInt < (s.x rs2).toInt then 1 else 0) (s.pc + 4) ∧
    Writes (exec (.sltu rd rs1 rs2) s) s rd (if (s.x rs1).toNat < (s.x rs2).toNat then 1 else 0) (s.pc + 4) ∧
    Writes (exec (.xor rd rs1 rs2) s) s rd (s.x rs1 ^^^ s.x rs2) (s.pc + 4) ∧
    Writes (exec (.or rd rs1 rs2) s) s rd (s.x rs1 ||| s.x rs2) (s.pc + 4) ∧
    Writes (exec (.and rd rs1 rs2) s) s rd (s.x rs1 &&& s.x rs2) (s.pc + 4)

/-- ADDI, SLTI, SLTIU, XORI, ORI, ANDI (R137 to R142): their rows, and completion, result and frame at every immediate. -/
def Obligations.ImmediateArithmetic : Prop :=
  RowDecodes 0x0000707F 0x00000013 (fun w => .addi (rdOf w) (rs1Of w) (immI w)) ∧
  RowDecodes 0x0000707F 0x00002013 (fun w => .slti (rdOf w) (rs1Of w) (immI w)) ∧
  RowDecodes 0x0000707F 0x00003013 (fun w => .sltiu (rdOf w) (rs1Of w) (immI w)) ∧
  RowDecodes 0x0000707F 0x00004013 (fun w => .xori (rdOf w) (rs1Of w) (immI w)) ∧
  RowDecodes 0x0000707F 0x00006013 (fun w => .ori (rdOf w) (rs1Of w) (immI w)) ∧
  RowDecodes 0x0000707F 0x00007013 (fun w => .andi (rdOf w) (rs1Of w) (immI w)) ∧
  ∀ (rd rs1 : RegIdx) (imm : Word) (s : State),
    Writes (exec (.addi rd rs1 imm) s) s rd (BitVec.ofNat 64 ((s.x rs1).toNat + imm.toNat)) (s.pc + 4) ∧
    Writes (exec (.slti rd rs1 imm) s) s rd (if (s.x rs1).toInt < imm.toInt then 1 else 0) (s.pc + 4) ∧
    Writes (exec (.sltiu rd rs1 imm) s) s rd (if (s.x rs1).toNat < imm.toNat then 1 else 0) (s.pc + 4) ∧
    Writes (exec (.xori rd rs1 imm) s) s rd (s.x rs1 ^^^ imm) (s.pc + 4) ∧
    Writes (exec (.ori rd rs1 imm) s) s rd (s.x rs1 ||| imm) (s.pc + 4) ∧
    Writes (exec (.andi rd rs1 imm) s) s rd (s.x rs1 &&& imm) (s.pc + 4)

/-- LUI and AUIPC (R143, R144), with the U immediate as a number; both are in the reference set. -/
def Obligations.UpperImmediates : Prop :=
  RowDecodes 0x0000007F 0x00000037 (fun w => .lui (rdOf w) (sextInt 32 (w.toNat / 2 ^ 12 * 2 ^ 12))) ∧
  RowDecodes 0x0000007F 0x00000017 (fun w => .auipc (rdOf w) (sextInt 32 (w.toNat / 2 ^ 12 * 2 ^ 12))) ∧
  ∀ (rd : RegIdx) (imm : Word) (s : State),
    Writes (exec (.lui rd imm) s) s rd imm (s.pc + 4) ∧
    Writes (exec (.auipc rd imm) s) s rd (BitVec.ofNat 64 (s.pc.toNat + imm.toNat)) (s.pc + 4) ∧
    Mnemonic.lui ∈ Mnemonic.referenceSet ∧ Mnemonic.auipc ∈ Mnemonic.referenceSet

/-! ## Loads and stores (42_loads_stores.md) -/

/-- LB, LH, LW, LD, LBU, LHU, LWU (R162 to R168): their rows; where every byte of the access is in the window, completion with
the extended little-endian value; elsewhere the halt ReadFailed(ea), with no register written. -/
def Obligations.Loads : Prop :=
  RowDecodes 0x0000707F 0x00000003 (fun w => .lb (rdOf w) (rs1Of w) (immI w)) ∧
  RowDecodes 0x0000707F 0x00001003 (fun w => .lh (rdOf w) (rs1Of w) (immI w)) ∧
  RowDecodes 0x0000707F 0x00002003 (fun w => .lw (rdOf w) (rs1Of w) (immI w)) ∧
  RowDecodes 0x0000707F 0x00003003 (fun w => .ld (rdOf w) (rs1Of w) (immI w)) ∧
  RowDecodes 0x0000707F 0x00004003 (fun w => .lbu (rdOf w) (rs1Of w) (immI w)) ∧
  RowDecodes 0x0000707F 0x00005003 (fun w => .lhu (rdOf w) (rs1Of w) (immI w)) ∧
  RowDecodes 0x0000707F 0x00006003 (fun w => .lwu (rdOf w) (rs1Of w) (immI w)) ∧
  ∀ (rd rs1 : RegIdx) (imm : Word) (s : State), ∀ ea, ea = BitVec.ofNat 64 ((s.x rs1).toNat + imm.toNat) →
    let loads := fun (i : Instr) (n : Nat) (v : Word) =>
      (s.cfg.base ≤ ea.toNat → ea.toNat - s.cfg.base + n ≤ s.cfg.size → Writes (exec i s) s rd v (s.pc + 4)) ∧
      (ea.toNat < s.cfg.base ∨ s.cfg.size < ea.toNat - s.cfg.base + n → Halts (exec i s) s (.readFailed ea))
    loads (.lb rd rs1 imm) 1 (sextInt 8 (leValue s ea.toNat 1)) ∧
    loads (.lh rd rs1 imm) 2 (sextInt 16 (leValue s ea.toNat 2)) ∧
    loads (.lw rd rs1 imm) 4 (sextInt 32 (leValue s ea.toNat 4)) ∧
    loads (.ld rd rs1 imm) 8 (BitVec.ofNat 64 (leValue s ea.toNat 8)) ∧
    loads (.lbu rd rs1 imm) 1 (BitVec.ofNat 64 (leValue s ea.toNat 1)) ∧
    loads (.lhu rd rs1 imm) 2 (BitVec.ofNat 64 (leValue s ea.toNat 2)) ∧
    loads (.lwu rd rs1 imm) 4 (BitVec.ofNat 64 (leValue s ea.toNat 4))

/-- SB, SH, SW (R170 to R172), and SD beside them: their rows; where every byte of the access is in the window, completion
with the low bytes
of x[rs2] at ea and every other byte unchanged; elsewhere the halt WriteFailed(ea), over bytes that may remain (R49). -/
def Obligations.StoreInstructions : Prop :=
  RowDecodes 0x0000707F 0x00000023 (fun w => .sb (rs1Of w) (rs2Of w) (immS w)) ∧
  RowDecodes 0x0000707F 0x00001023 (fun w => .sh (rs1Of w) (rs2Of w) (immS w)) ∧
  RowDecodes 0x0000707F 0x00002023 (fun w => .sw (rs1Of w) (rs2Of w) (immS w)) ∧
  RowDecodes 0x0000707F 0x00003023 (fun w => .sd (rs1Of w) (rs2Of w) (immS w)) ∧
  ∀ (rs1 rs2 : RegIdx) (imm : Word) (s : State), ∀ ea, ea = BitVec.ofNat 64 ((s.x rs1).toNat + imm.toNat) →
    let stores := fun (i : Instr) (n : Nat) =>
      (s.cfg.base ≤ ea.toNat → ea.toNat - s.cfg.base + n ≤ s.cfg.size → Stores (exec i s) s ea n (s.x rs2)) ∧
      (ea.toNat < s.cfg.base ∨ s.cfg.size < ea.toNat - s.cfg.base + n → StoreFails (exec i s) s ea n (s.x rs2))
    stores (.sb rs1 rs2 imm) 1 ∧ stores (.sh rs1 rs2 imm) 2 ∧ stores (.sw rs1 rs2 imm) 4 ∧ stores (.sd rs1 rs2 imm) 8

/-- SD and the round trip (R173): its row; where its eight bytes are in the window, aligned or not, it stores x[rs2] and an LD
from the same address then completes with the stored value; elsewhere it halts with WriteFailed(ea), over bytes that may
remain (R49). -/
def Obligations.StoreThenLoad : Prop :=
  RowDecodes 0x0000707F 0x00003023 (fun w => .sd (rs1Of w) (rs2Of w) (immS w)) ∧
  ∀ (s : State) (rs1 rs2 rd : RegIdx) (imm : Word),
    (inWindow s.cfg (s.x rs1 + imm) 8 = true →
      ∃ t, exec (.sd rs1 rs2 imm) s = .next t ∧ Stores (.next t) s (s.x rs1 + imm) 8 (s.x rs2) ∧
        Writes (exec (.ld rd rs1 imm) t) t rd (s.x rs2) (s.pc + 8)) ∧
    (inWindow s.cfg (s.x rs1 + imm) 8 = false →
      StoreFails (exec (.sd rs1 rs2 imm) s) s (s.x rs1 + imm) 8 (s.x rs2))

/-! ## Control transfer (43_control_transfer.md) -/

/-- JAL and JALR (R181, R182): their rows (JALR with another funct3 is Unknown), the link pc + 4, and the target, pc + imm or x[rs1] + imm with bit 0 cleared; x[rs1]
is read before the link is written. -/
def Obligations.Jumps : Prop :=
  RowDecodes 0x0000007F 0x0000006F (fun w => .jal (rdOf w) (immJ w)) ∧
  RowDecodes 0x0000707F 0x00000067 (fun w => .jalr (rdOf w) (rs1Of w) (immI w)) ∧
  (∀ w : InstrWord, opcodeOf w = 0x67 → funct3Of w ≠ 0 → decode w = .unknown w) ∧
  ∀ (rd rs1 : RegIdx) (imm : Word) (s : State),
    Writes (exec (.jal rd imm) s) s rd (s.pc + 4) (BitVec.ofNat 64 (s.pc.toNat + imm.toNat)) ∧
    Writes (exec (.jalr rd rs1 imm) s) s rd (s.pc + 4) (BitVec.ofNat 64 (((s.x rs1).toNat + imm.toNat) % 2 ^ 64 / 2 * 2))

/-- BEQ, BNE, BLT, BGE, BLTU, BGEU (R183 to R188): their rows, and the pc each leaves: exactly pc + imm when the relation
holds, pc + 4 when it does not. -/
def Obligations.Branches : Prop :=
  RowDecodes 0x0000707F 0x00000063 (fun w => .beq (rs1Of w) (rs2Of w) (immB w)) ∧
  RowDecodes 0x0000707F 0x00001063 (fun w => .bne (rs1Of w) (rs2Of w) (immB w)) ∧
  RowDecodes 0x0000707F 0x00004063 (fun w => .blt (rs1Of w) (rs2Of w) (immB w)) ∧
  RowDecodes 0x0000707F 0x00005063 (fun w => .bge (rs1Of w) (rs2Of w) (immB w)) ∧
  RowDecodes 0x0000707F 0x00006063 (fun w => .bltu (rs1Of w) (rs2Of w) (immB w)) ∧
  RowDecodes 0x0000707F 0x00007063 (fun w => .bgeu (rs1Of w) (rs2Of w) (immB w)) ∧
  ∀ (rs1 rs2 : RegIdx) (imm : Word) (s : State),
    Moves (exec (.beq rs1 rs2 imm) s) s (if s.x rs1 = s.x rs2 then s.pc + imm else s.pc + 4) ∧
    Moves (exec (.bne rs1 rs2 imm) s) s (if s.x rs1 ≠ s.x rs2 then s.pc + imm else s.pc + 4) ∧
    Moves (exec (.blt rs1 rs2 imm) s) s (if (s.x rs1).toInt < (s.x rs2).toInt then s.pc + imm else s.pc + 4) ∧
    Moves (exec (.bge rs1 rs2 imm) s) s (if (s.x rs2).toInt ≤ (s.x rs1).toInt then s.pc + imm else s.pc + 4) ∧
    Moves (exec (.bltu rs1 rs2 imm) s) s (if (s.x rs1).toNat < (s.x rs2).toNat then s.pc + imm else s.pc + 4) ∧
    Moves (exec (.bgeu rs1 rs2 imm) s) s (if (s.x rs2).toNat ≤ (s.x rs1).toNat then s.pc + imm else s.pc + 4)

/-! ## Shifts and word variants (44_shifts_word.md): their effect when they execute, and the default halt -/

/-- SLL, SRL, SRA, SLLI, SRLI, SRAI (R201 to R206). A register amount counts modulo 64, and an SLLI word with w[31:26] ≠ 0 is
Unknown (R204). -/
def Obligations.Shifts64 : Prop :=
  RowDecodes 0xFE00707F 0x00001033 (fun w => .sll (rdOf w) (rs1Of w) (rs2Of w)) ∧
  RowDecodes 0xFE00707F 0x00005033 (fun w => .srl (rdOf w) (rs1Of w) (rs2Of w)) ∧
  RowDecodes 0xFE00707F 0x40005033 (fun w => .sra (rdOf w) (rs1Of w) (rs2Of w)) ∧
  RowDecodes 0xFC00707F 0x00001013 (fun w => .slli (rdOf w) (rs1Of w) (shamt6Of w)) ∧
  RowDecodes 0xFC00707F 0x00005013 (fun w => .srli (rdOf w) (rs1Of w) (shamt6Of w)) ∧
  RowDecodes 0xFC00707F 0x40005013 (fun w => .srai (rdOf w) (rs1Of w) (shamt6Of w)) ∧
  (∀ w : InstrWord, opcodeOf w = 0x13 → funct3Of w = 1 → w.toNat / 2 ^ 26 ≠ 0 → decode w = .unknown w) ∧
  ∀ (rd rs1 rs2 : RegIdx) (shamt : BitVec 6) (s : State),
    let a := s.x rs1
    let k := (s.x rs2).toNat % 64
    Writes (exec (.sll rd rs1 rs2) s) s rd (BitVec.ofNat 64 (a.toNat * 2 ^ k)) (s.pc + 4) ∧
    Writes (exec (.srl rd rs1 rs2) s) s rd (BitVec.ofNat 64 (a.toNat / 2 ^ k)) (s.pc + 4) ∧
    Writes (exec (.sra rd rs1 rs2) s) s rd (BitVec.ofInt 64 (a.toInt / 2 ^ k)) (s.pc + 4) ∧
    Writes (exec (.slli rd rs1 shamt) s) s rd (BitVec.ofNat 64 (a.toNat * 2 ^ shamt.toNat)) (s.pc + 4) ∧
    Writes (exec (.srli rd rs1 shamt) s) s rd (BitVec.ofNat 64 (a.toNat / 2 ^ shamt.toNat)) (s.pc + 4) ∧
    Writes (exec (.srai rd rs1 shamt) s) s rd (BitVec.ofInt 64 (a.toInt / 2 ^ shamt.toNat)) (s.pc + 4) ∧
    ∀ i ∈ [Instr.sll rd rs1 rs2, .srl rd rs1 rs2, .sra rd rs1 rs2, .slli rd rs1 shamt, .srli rd rs1 shamt,
      .srai rd rs1 shamt], HaltsByDefault i

/-- ADDIW, SLLIW, SRLIW, SRAIW (R207 to R210): computed on the low 32 bits, the 32-bit result sign-extended; an SLLIW word
with w[25] = 1 is Unknown (R208). -/
def Obligations.WordImmediates : Prop :=
  RowDecodes 0x0000707F 0x0000001B (fun w => .addiw (rdOf w) (rs1Of w) (immI w)) ∧
  RowDecodes 0xFE00707F 0x0000101B (fun w => .slliw (rdOf w) (rs1Of w) (shamt5Of w)) ∧
  RowDecodes 0xFE00707F 0x0000501B (fun w => .srliw (rdOf w) (rs1Of w) (shamt5Of w)) ∧
  RowDecodes 0xFE00707F 0x4000501B (fun w => .sraiw (rdOf w) (rs1Of w) (shamt5Of w)) ∧
  (∀ w : InstrWord, opcodeOf w = 0x1B → funct3Of w = 1 → w.getLsbD 25 = true → decode w = .unknown w) ∧
  ∀ (rd rs1 : RegIdx) (imm : Word) (shamt : BitVec 5) (s : State),
    let a := (s.x rs1).toNat
    Writes (exec (.addiw rd rs1 imm) s) s rd (sextInt 32 (a + imm.toNat)) (s.pc + 4) ∧
    Writes (exec (.slliw rd rs1 shamt) s) s rd (sextInt 32 (a * 2 ^ shamt.toNat)) (s.pc + 4) ∧
    Writes (exec (.srliw rd rs1 shamt) s) s rd (sextInt 32 (a % 2 ^ 32 / 2 ^ shamt.toNat : Nat)) (s.pc + 4) ∧
    Writes (exec (.sraiw rd rs1 shamt) s) s rd (BitVec.ofInt 64 (signed32 (s.x rs1) / 2 ^ shamt.toNat)) (s.pc + 4) ∧
    ∀ i ∈ [Instr.addiw rd rs1 imm, .slliw rd rs1 shamt, .srliw rd rs1 shamt, .sraiw rd rs1 shamt], HaltsByDefault i

/-- ADDW, SUBW, SLLW, SRLW, SRAW (R211 to R215). A register amount counts modulo 32. -/
def Obligations.WordRegisterOps : Prop :=
  RowDecodes 0xFE00707F 0x0000003B (fun w => .addw (rdOf w) (rs1Of w) (rs2Of w)) ∧
  RowDecodes 0xFE00707F 0x4000003B (fun w => .subw (rdOf w) (rs1Of w) (rs2Of w)) ∧
  RowDecodes 0xFE00707F 0x0000103B (fun w => .sllw (rdOf w) (rs1Of w) (rs2Of w)) ∧
  RowDecodes 0xFE00707F 0x0000503B (fun w => .srlw (rdOf w) (rs1Of w) (rs2Of w)) ∧
  RowDecodes 0xFE00707F 0x4000503B (fun w => .sraw (rdOf w) (rs1Of w) (rs2Of w)) ∧
  ∀ (rd rs1 rs2 : RegIdx) (s : State),
    let a := (s.x rs1).toNat
    let b := (s.x rs2).toNat
    Writes (exec (.addw rd rs1 rs2) s) s rd (sextInt 32 (a + b)) (s.pc + 4) ∧
    Writes (exec (.subw rd rs1 rs2) s) s rd (sextInt 32 (a - b)) (s.pc + 4) ∧
    Writes (exec (.sllw rd rs1 rs2) s) s rd (sextInt 32 (a * 2 ^ (b % 32))) (s.pc + 4) ∧
    Writes (exec (.srlw rd rs1 rs2) s) s rd (sextInt 32 (a % 2 ^ 32 / 2 ^ (b % 32) : Nat)) (s.pc + 4) ∧
    Writes (exec (.sraw rd rs1 rs2) s) s rd (BitVec.ofInt 64 (signed32 (s.x rs1) / 2 ^ (b % 32))) (s.pc + 4) ∧
    ∀ i ∈ [Instr.addw rd rs1 rs2, .subw rd rs1 rs2, .sllw rd rs1 rs2, .srlw rd rs1 rs2, .sraw rd rs1 rs2], HaltsByDefault i

/-! ## Multiply, divide and remainder (45_muldiv.md): their effect when they execute, and the default halt -/

/-- MUL, MULH, MULHSU, MULHU, MULW (R231 to R234, R239): the halves of the exact product. -/
def Obligations.Multiplies : Prop :=
  RowDecodes 0xFE00707F 0x02000033 (fun w => .mul (rdOf w) (rs1Of w) (rs2Of w)) ∧
  RowDecodes 0xFE00707F 0x02001033 (fun w => .mulh (rdOf w) (rs1Of w) (rs2Of w)) ∧
  RowDecodes 0xFE00707F 0x02002033 (fun w => .mulhsu (rdOf w) (rs1Of w) (rs2Of w)) ∧
  RowDecodes 0xFE00707F 0x02003033 (fun w => .mulhu (rdOf w) (rs1Of w) (rs2Of w)) ∧
  RowDecodes 0xFE00707F 0x0200003B (fun w => .mulw (rdOf w) (rs1Of w) (rs2Of w)) ∧
  ∀ (rd rs1 rs2 : RegIdx) (s : State),
    let a := s.x rs1
    let b := s.x rs2
    Writes (exec (.mul rd rs1 rs2) s) s rd (BitVec.ofNat 64 (a.toNat * b.toNat)) (s.pc + 4) ∧
    Writes (exec (.mulh rd rs1 rs2) s) s rd (BitVec.ofInt 64 (a.toInt * b.toInt / 2 ^ 64)) (s.pc + 4) ∧
    Writes (exec (.mulhsu rd rs1 rs2) s) s rd (BitVec.ofInt 64 (a.toInt * b.toNat / 2 ^ 64)) (s.pc + 4) ∧
    Writes (exec (.mulhu rd rs1 rs2) s) s rd (BitVec.ofNat 64 (a.toNat * b.toNat / 2 ^ 64)) (s.pc + 4) ∧
    Writes (exec (.mulw rd rs1 rs2) s) s rd (sextInt 32 (a.toNat * b.toNat : Nat)) (s.pc + 4) ∧
    ∀ i ∈ [Instr.mul rd rs1 rs2, .mulh rd rs1 rs2, .mulhsu rd rs1 rs2, .mulhu rd rs1 rs2, .mulw rd rs1 rs2], HaltsByDefault i

/-- DIV, DIVU, REM, REMU (R235 to R238): the truncating quotient and its remainder, modulo 2^64; division by zero gives all
ones and the dividend. The overflow case of R230 is the truncated quotient 2^63 reduced modulo 2^64. -/
def Obligations.Divisions64 : Prop :=
  RowDecodes 0xFE00707F 0x02004033 (fun w => .div (rdOf w) (rs1Of w) (rs2Of w)) ∧
  RowDecodes 0xFE00707F 0x02005033 (fun w => .divu (rdOf w) (rs1Of w) (rs2Of w)) ∧
  RowDecodes 0xFE00707F 0x02006033 (fun w => .rem (rdOf w) (rs1Of w) (rs2Of w)) ∧
  RowDecodes 0xFE00707F 0x02007033 (fun w => .remu (rdOf w) (rs1Of w) (rs2Of w)) ∧
  ∀ (rd rs1 rs2 : RegIdx) (s : State),
    let a := s.x rs1
    let b := s.x rs2
    Writes (exec (.div rd rs1 rs2) s) s rd
      (if b = 0 then BitVec.allOnes 64 else BitVec.ofInt 64 (a.toInt.tdiv b.toInt)) (s.pc + 4) ∧
    Writes (exec (.divu rd rs1 rs2) s) s rd
      (if b = 0 then BitVec.allOnes 64 else BitVec.ofNat 64 (a.toNat / b.toNat)) (s.pc + 4) ∧
    Writes (exec (.rem rd rs1 rs2) s) s rd
      (if b = 0 then a else BitVec.ofInt 64 (a.toInt.tmod b.toInt)) (s.pc + 4) ∧
    Writes (exec (.remu rd rs1 rs2) s) s rd
      (if b = 0 then a else BitVec.ofNat 64 (a.toNat % b.toNat)) (s.pc + 4) ∧
    ∀ i ∈ [Instr.div rd rs1 rs2, .divu rd rs1 rs2, .rem rd rs1 rs2, .remu rd rs1 rs2], HaltsByDefault i

/-- DIVW, DIVUW, REMW, REMUW (R240 to R243): the same on the low 32 bits, the 32-bit result sign-extended. -/
def Obligations.Divisions32 : Prop :=
  RowDecodes 0xFE00707F 0x0200403B (fun w => .divw (rdOf w) (rs1Of w) (rs2Of w)) ∧
  RowDecodes 0xFE00707F 0x0200503B (fun w => .divuw (rdOf w) (rs1Of w) (rs2Of w)) ∧
  RowDecodes 0xFE00707F 0x0200603B (fun w => .remw (rdOf w) (rs1Of w) (rs2Of w)) ∧
  RowDecodes 0xFE00707F 0x0200703B (fun w => .remuw (rdOf w) (rs1Of w) (rs2Of w)) ∧
  ∀ (rd rs1 rs2 : RegIdx) (s : State),
    let a := s.x rs1
    let b := s.x rs2
    Writes (exec (.divw rd rs1 rs2) s) s rd
      (if signed32 b = 0 then BitVec.allOnes 64 else sextInt 32 ((signed32 a).tdiv (signed32 b))) (s.pc + 4) ∧
    Writes (exec (.divuw rd rs1 rs2) s) s rd
      (if signed32 b = 0 then BitVec.allOnes 64 else sextInt 32 (a.toNat % 2 ^ 32 / (b.toNat % 2 ^ 32) : Nat)) (s.pc + 4) ∧
    Writes (exec (.remw rd rs1 rs2) s) s rd
      (if signed32 b = 0 then sextInt 32 a.toNat else sextInt 32 ((signed32 a).tmod (signed32 b))) (s.pc + 4) ∧
    Writes (exec (.remuw rd rs1 rs2) s) s rd
      (if signed32 b = 0 then sextInt 32 a.toNat else sextInt 32 (a.toNat % 2 ^ 32 % (b.toNat % 2 ^ 32) : Nat)) (s.pc + 4) ∧
    ∀ i ∈ [Instr.divw rd rs1 rs2, .divuw rd rs1 rs2, .remw rd rs1 rs2, .remuw rd rs1 rs2], HaltsByDefault i

/-- The division table (R230) at both widths, case by case; the law that ties quotient and remainder in every case; and the
eight instructions write these results, those of the W forms sign-extended from 32 bits. -/
def Obligations.DivisionTable : Prop :=
  (∀ n, n = 32 ∨ n = 64 → ∀ a b : BitVec n,
    (b = 0 → quotSigned a b = BitVec.allOnes n ∧ quotUnsigned a b = BitVec.allOnes n ∧ remSigned a b = a ∧
      remUnsigned a b = a) ∧
    (a.toInt = -2 ^ (n - 1) → b.toInt = -1 → quotSigned a b = a ∧ remSigned a b = 0) ∧
    (b ≠ 0 → ¬(a.toInt = -2 ^ (n - 1) ∧ b.toInt = -1) →
      (quotSigned a b).toInt = a.toInt.tdiv b.toInt ∧ (remSigned a b).toInt = a.toInt.tmod b.toInt) ∧
    (b ≠ 0 → (quotUnsigned a b).toNat = a.toNat / b.toNat ∧ (remUnsigned a b).toNat = a.toNat % b.toNat) ∧
    b * quotSigned a b + remSigned a b = a ∧ b * quotUnsigned a b + remUnsigned a b = a) ∧
  ∀ (rd rs1 rs2 : RegIdx) (s : State),
    let a := s.x rs1
    let b := s.x rs2
    let lo := fun v : Word => v.extractLsb' 0 32
    Writes (exec (.div rd rs1 rs2) s) s rd (quotSigned a b) (s.pc + 4) ∧
    Writes (exec (.divu rd rs1 rs2) s) s rd (quotUnsigned a b) (s.pc + 4) ∧
    Writes (exec (.rem rd rs1 rs2) s) s rd (remSigned a b) (s.pc + 4) ∧
    Writes (exec (.remu rd rs1 rs2) s) s rd (remUnsigned a b) (s.pc + 4) ∧
    Writes (exec (.divw rd rs1 rs2) s) s rd ((quotSigned (lo a) (lo b)).signExtend 64) (s.pc + 4) ∧
    Writes (exec (.divuw rd rs1 rs2) s) s rd ((quotUnsigned (lo a) (lo b)).signExtend 64) (s.pc + 4) ∧
    Writes (exec (.remw rd rs1 rs2) s) s rd ((remSigned (lo a) (lo b)).signExtend 64) (s.pc + 4) ∧
    Writes (exec (.remuw rd rs1 rs2) s) s rd ((remUnsigned (lo a) (lo b)).signExtend 64) (s.pc + 4)

/-! ## Fences, system and CSR instructions (46_system_csr.md) -/

/-- FENCE and FENCE.I (R260, R261): every word of their rows decodes to them, whatever its other fields; by default they halt,
and when they execute they advance pc by 4 and change nothing else. -/
def Obligations.Fences : Prop :=
  RowDecodes 0x0000707F 0x0000000F (fun _ => .fence) ∧ RowDecodes 0x0000707F 0x0000100F (fun _ => .fenceI) ∧
  HaltsByDefault .fence ∧ HaltsByDefault .fenceI ∧
  ∀ s : State, Moves (exec .fence s) s (s.pc + 4) ∧ Moves (exec .fenceI s) s (s.pc + 4)

/-- ECALL and EBREAK (R262, R263): the exact words and no others, and a halt with NotImplemented in every state; a step that
fetches one halts
so for every IMPLEMENTED. -/
def Obligations.EnvironmentCalls : Prop :=
  (∀ w : InstrWord, (decode w = .ecall ↔ w = 0x00000073) ∧ (decode w = .ebreak ↔ w = 0x00100073)) ∧
  ∀ s : State, Halts (exec .ecall s) s (.notImplemented .ecall) ∧ Halts (exec .ebreak s) s (.notImplemented .ebreak) ∧
    ∀ i, i = .ecall ∨ i = .ebreak → s.running = true → Fetches s i → Halts (step s) s (.notImplemented i)

/-- The CSR instructions (R264 to R269): their rows, with the CSR number w[31:20] in the record (30_encoding.md R69), and at
every CSR number a halt with NotImplemented and the record: rd is not written and pc does not advance. -/
def Obligations.CsrInstructions : Prop :=
  RowDecodes 0x0000707F 0x00001073 (fun w => .csrrw (rdOf w) (rs1Of w) (immI w)) ∧
  RowDecodes 0x0000707F 0x00002073 (fun w => .csrrs (rdOf w) (rs1Of w) (immI w)) ∧
  RowDecodes 0x0000707F 0x00003073 (fun w => .csrrc (rdOf w) (rs1Of w) (immI w)) ∧
  RowDecodes 0x0000707F 0x00005073 (fun w => .csrrwi (rdOf w) (rs1Of w) (immI w)) ∧
  RowDecodes 0x0000707F 0x00006073 (fun w => .csrrsi (rdOf w) (rs1Of w) (immI w)) ∧
  RowDecodes 0x0000707F 0x00007073 (fun w => .csrrci (rdOf w) (rs1Of w) (immI w)) ∧
  (∀ w, csrNumber (immI w) = BitVec.ofNat 12 (w.toNat / 2 ^ 20)) ∧
  ∀ (rd rs1 : RegIdx) (imm : Word) (s : State), ∀ i ∈ [Instr.csrrw rd rs1 imm, .csrrs rd rs1 imm, .csrrc rd rs1 imm,
      .csrrwi rd rs1 imm, .csrrsi rd rs1 imm, .csrrci rd rs1 imm],
    Halts (exec i s) s (.notImplemented i) ∧
    (s.running = true → Fetches s i → Halts (step s) s (.notImplemented i))

/-- A word of no row (60_exceptions.md R283): the halt NotImplemented(Unknown(word)), executed or stepped. -/
def Obligations.UnknownWords : Prop :=
  ∀ (w : InstrWord) (s : State),
    Halts (exec (.unknown w) s) s (.notImplemented (.unknown w)) ∧
    ((∀ m : Mnemonic, w &&& m.mask ≠ m.matchBits) → s.running = true → Fetches s (decode w) →
      Halts (step s) s (.notImplemented (.unknown w)))

/-- The CSR symbolic table (R270): the spec's three names; that it has none at any other number is the model's choice of the
minimum table (log entry 10). -/
def Obligations.CsrSymbolicTable : Prop :=
  csrLookup 0x300 = some "mstatus" ∧ csrLookup 0x301 = some "misa" ∧ csrLookup 0xF14 = some "mhartid" ∧
  ∀ n : BitVec 12, n ≠ 0x300 → n ≠ 0x301 → n ≠ 0xF14 → csrLookup n = none

/-! ## Pseudo-instructions (30_encoding.md R87) -/

/-- The parts of an offset always fit the U and I immediates and add up to it over the range of R87; the expansion of li, LUI
then ADDIW, leaves in rd every 32-bit constant, and that of la, AUIPC then ADDI, leaves pc + off (log entry 8). -/
def Obligations.PseudoParts : Prop :=
  (∀ off : Word, fitsImmU (hiPart off) = true ∧ fitsImm12 (loPart off) = true) ∧
  (∀ off : Word, -2 ^ 31 ≤ off.toInt → off.toInt ≤ 2 ^ 31 - 2049 → loPart off = off - hiPart off) ∧
  (∀ (s : State) (rd : RegIdx) (imm : Word), rd ≠ 0 → -2 ^ 31 ≤ imm.toInt → imm.toInt < 2 ^ 31 →
    ∃ t u, exec (.lui rd (hiPart imm)) s = .next t ∧ exec (.addiw rd rd (loPart imm)) t = .next u ∧ u.x rd = imm) ∧
  (∀ (s : State) (rd : RegIdx) (off : Word), rd ≠ 0 → -2 ^ 31 ≤ off.toInt → off.toInt ≤ 2 ^ 31 - 2049 →
    ∃ t u, exec (.auipc rd (hiPart off)) s = .next t ∧ exec (.addi rd rd (loPart off)) t = .next u ∧
      u.x rd = s.pc + off)
end

