-- ==== Sys2Proof/Laws/Decode.lean ====
section
/-!
SUPPORT. The laws of the field extractors and of the encoder's formats: what each field of a word is as a number, that the
extractors read back what the formats place, and which fields each mask of the opcode table (spec/30_encoding.md R92) fixes.
-/

namespace Sys2Proof

/-- The number an append stands for. -/
theorem toNat_append_eq {m n : Nat} (x : BitVec m) (y : BitVec n) : (x ++ y).toNat = x.toNat * 2 ^ n + y.toNat := by
  rw [BitVec.toNat_append, ← Nat.shiftLeft_add_eq_or_of_lt y.isLt, Nat.shiftLeft_eq]

/-- A field as a number. -/
theorem toNat_field {m : Nat} (w : BitVec m) (lo n : Nat) : (w.extractLsb' lo n).toNat = w.toNat / 2 ^ lo % 2 ^ n := by
  rw [BitVec.extractLsb'_toNat, Nat.shiftRight_eq_div_pow]

section Formats

variable (f7 : BitVec 7) (f6 sh6 : BitVec 6) (rs2 rs1 rd : RegIdx) (f3 : BitVec 3) (op : BitVec 7) (imm : Word)

theorem encodeR_toNat : (encodeR f7 rs2 rs1 f3 rd op).toNat =
    f7.toNat * 2 ^ 25 + rs2.toNat * 2 ^ 20 + rs1.toNat * 2 ^ 15 + f3.toNat * 2 ^ 12 + rd.toNat * 2 ^ 7 + op.toNat := by
  show BitVec.toNat (w := 7 + 5 + 5 + 3 + 5 + 7) (f7 ++ rs2 ++ rs1 ++ f3 ++ rd ++ op) = _
  rw [toNat_append_eq, toNat_append_eq, toNat_append_eq, toNat_append_eq, toNat_append_eq]
  omega

/-- The R layout with a 12-bit immediate in the place of funct7 and rs2. -/
theorem encodeI_toNat : (encodeI imm rs1 f3 rd op).toNat =
    imm.toNat % 2 ^ 12 * 2 ^ 20 + rs1.toNat * 2 ^ 15 + f3.toNat * 2 ^ 12 + rd.toNat * 2 ^ 7 + op.toNat := by
  show BitVec.toNat (w := 12 + 5 + 3 + 5 + 7) (imm.extractLsb' 0 12 ++ rs1 ++ f3 ++ rd ++ op) = _
  rw [toNat_append_eq, toNat_append_eq, toNat_append_eq, toNat_append_eq, toNat_field]
  omega

theorem encodeS_toNat : (encodeS imm rs2 rs1 f3 op).toNat =
    imm.toNat / 2 ^ 5 % 2 ^ 7 * 2 ^ 25 + rs2.toNat * 2 ^ 20 + rs1.toNat * 2 ^ 15 + f3.toNat * 2 ^ 12
      + imm.toNat % 2 ^ 5 * 2 ^ 7 + op.toNat := by
  show BitVec.toNat (w := 7 + 5 + 5 + 3 + 5 + 7)
    (imm.extractLsb' 5 7 ++ rs2 ++ rs1 ++ f3 ++ imm.extractLsb' 0 5 ++ op) = _
  rw [toNat_append_eq, toNat_append_eq, toNat_append_eq, toNat_append_eq, toNat_append_eq, toNat_field, toNat_field]
  omega

theorem encodeB_toNat : (encodeB imm rs2 rs1 f3 op).toNat =
    imm.toNat / 2 ^ 12 % 2 * 2 ^ 31 + imm.toNat / 2 ^ 5 % 2 ^ 6 * 2 ^ 25 + rs2.toNat * 2 ^ 20 + rs1.toNat * 2 ^ 15
      + f3.toNat * 2 ^ 12 + imm.toNat / 2 % 2 ^ 4 * 2 ^ 8 + imm.toNat / 2 ^ 11 % 2 * 2 ^ 7 + op.toNat := by
  show BitVec.toNat (w := 1 + 6 + 5 + 5 + 3 + 4 + 1 + 7)
    (imm.extractLsb' 12 1 ++ imm.extractLsb' 5 6 ++ rs2 ++ rs1 ++ f3 ++ imm.extractLsb' 1 4 ++ imm.extractLsb' 11 1
      ++ op) = _
  rw [toNat_append_eq, toNat_append_eq, toNat_append_eq, toNat_append_eq, toNat_append_eq, toNat_append_eq,
    toNat_append_eq, toNat_field, toNat_field, toNat_field, toNat_field]
  omega

theorem encodeU_toNat : (encodeU imm rd op).toNat =
    imm.toNat / 2 ^ 12 % 2 ^ 20 * 2 ^ 12 + rd.toNat * 2 ^ 7 + op.toNat := by
  show BitVec.toNat (w := 20 + 5 + 7) (imm.extractLsb' 12 20 ++ rd ++ op) = _
  rw [toNat_append_eq, toNat_append_eq, toNat_field]
  omega

theorem encodeJ_toNat : (encodeJ imm rd op).toNat =
    imm.toNat / 2 ^ 20 % 2 * 2 ^ 31 + imm.toNat / 2 % 2 ^ 10 * 2 ^ 21 + imm.toNat / 2 ^ 11 % 2 * 2 ^ 20
      + imm.toNat / 2 ^ 12 % 2 ^ 8 * 2 ^ 12 + rd.toNat * 2 ^ 7 + op.toNat := by
  show BitVec.toNat (w := 1 + 10 + 1 + 8 + 5 + 7)
    (imm.extractLsb' 20 1 ++ imm.extractLsb' 1 10 ++ imm.extractLsb' 11 1 ++ imm.extractLsb' 12 8 ++ rd ++ op) = _
  rw [toNat_append_eq, toNat_append_eq, toNat_append_eq, toNat_append_eq, toNat_append_eq, toNat_field, toNat_field,
    toNat_field, toNat_field]
  omega

theorem encodeShift64_toNat : (encodeShift64 f6 sh6 rs1 f3 rd op).toNat =
    f6.toNat * 2 ^ 26 + sh6.toNat * 2 ^ 20 + rs1.toNat * 2 ^ 15 + f3.toNat * 2 ^ 12 + rd.toNat * 2 ^ 7 + op.toNat := by
  show BitVec.toNat (w := 6 + 6 + 5 + 3 + 5 + 7) (f6 ++ sh6 ++ rs1 ++ f3 ++ rd ++ op) = _
  rw [toNat_append_eq, toNat_append_eq, toNat_append_eq, toNat_append_eq, toNat_append_eq]
  omega

end Formats

/-! ### A word is the format of its own fields -/

section OfFields

variable (w : InstrWord)

theorem opcodeOf_toNat : (opcodeOf w).toNat = w.toNat % 2 ^ 7 := by rw [opcodeOf, toNat_field]; omega
theorem rdOf_toNat : (rdOf w).toNat = w.toNat / 2 ^ 7 % 2 ^ 5 := toNat_field w 7 5
theorem funct3Of_toNat : (funct3Of w).toNat = w.toNat / 2 ^ 12 % 2 ^ 3 := toNat_field w 12 3
theorem rs1Of_toNat : (rs1Of w).toNat = w.toNat / 2 ^ 15 % 2 ^ 5 := toNat_field w 15 5
theorem rs2Of_toNat : (rs2Of w).toNat = w.toNat / 2 ^ 20 % 2 ^ 5 := toNat_field w 20 5
theorem funct7Of_toNat : (funct7Of w).toNat = w.toNat / 2 ^ 25 % 2 ^ 7 := toNat_field w 25 7
theorem funct6Of_toNat : (funct6Of w).toNat = w.toNat / 2 ^ 26 % 2 ^ 6 := toNat_field w 26 6
theorem shamt6Of_toNat : (shamt6Of w).toNat = w.toNat / 2 ^ 20 % 2 ^ 6 := toNat_field w 20 6
theorem shamt5Of_toNat : (shamt5Of w).toNat = w.toNat / 2 ^ 20 % 2 ^ 5 := toNat_field w 20 5

theorem encodeR_fields : encodeR (funct7Of w) (rs2Of w) (rs1Of w) (funct3Of w) (rdOf w) (opcodeOf w) = w := by
  apply BitVec.eq_of_toNat_eq
  rw [encodeR_toNat, funct7Of_toNat, rs2Of_toNat, rs1Of_toNat, funct3Of_toNat, rdOf_toNat, opcodeOf_toNat]
  have := w.isLt
  omega

theorem encodeShift64_fields :
    encodeShift64 (funct6Of w) (shamt6Of w) (rs1Of w) (funct3Of w) (rdOf w) (opcodeOf w) = w := by
  apply BitVec.eq_of_toNat_eq
  rw [encodeShift64_toNat, funct6Of_toNat, shamt6Of_toNat, rs1Of_toNat, funct3Of_toNat, rdOf_toNat, opcodeOf_toNat]
  have := w.isLt
  omega

end OfFields

/-! ### The extractors on the R and shift layouts, and two words of one layout -/

section ReadBack

variable (f7 : BitVec 7) (f6 sh6 : BitVec 6) (rs2 rs1 rd : RegIdx) (f3 : BitVec 3) (op : BitVec 7)

@[simp] theorem opcodeOf_encodeR : opcodeOf (encodeR f7 rs2 rs1 f3 rd op) = op := by
  apply BitVec.eq_of_toNat_eq; rw [opcodeOf_toNat, encodeR_toNat]; omega

@[simp] theorem rdOf_encodeR : rdOf (encodeR f7 rs2 rs1 f3 rd op) = rd := by
  apply BitVec.eq_of_toNat_eq; rw [rdOf_toNat, encodeR_toNat]; omega

@[simp] theorem funct3Of_encodeR : funct3Of (encodeR f7 rs2 rs1 f3 rd op) = f3 := by
  apply BitVec.eq_of_toNat_eq; rw [funct3Of_toNat, encodeR_toNat]; omega

@[simp] theorem rs1Of_encodeR : rs1Of (encodeR f7 rs2 rs1 f3 rd op) = rs1 := by
  apply BitVec.eq_of_toNat_eq; rw [rs1Of_toNat, encodeR_toNat]; omega

@[simp] theorem rs2Of_encodeR : rs2Of (encodeR f7 rs2 rs1 f3 rd op) = rs2 := by
  apply BitVec.eq_of_toNat_eq; rw [rs2Of_toNat, encodeR_toNat]; omega

@[simp] theorem shamt5Of_encodeR : shamt5Of (encodeR f7 rs2 rs1 f3 rd op) = rs2 := rs2Of_encodeR f7 rs2 rs1 rd f3 op

@[simp] theorem funct7Of_encodeR : funct7Of (encodeR f7 rs2 rs1 f3 rd op) = f7 := by
  apply BitVec.eq_of_toNat_eq; rw [funct7Of_toNat, encodeR_toNat]; omega

@[simp] theorem opcodeOf_encodeShift64 : opcodeOf (encodeShift64 f6 sh6 rs1 f3 rd op) = op := by
  apply BitVec.eq_of_toNat_eq; rw [opcodeOf_toNat, encodeShift64_toNat]; omega

@[simp] theorem rdOf_encodeShift64 : rdOf (encodeShift64 f6 sh6 rs1 f3 rd op) = rd := by
  apply BitVec.eq_of_toNat_eq; rw [rdOf_toNat, encodeShift64_toNat]; omega

@[simp] theorem funct3Of_encodeShift64 : funct3Of (encodeShift64 f6 sh6 rs1 f3 rd op) = f3 := by
  apply BitVec.eq_of_toNat_eq; rw [funct3Of_toNat, encodeShift64_toNat]; omega

@[simp] theorem rs1Of_encodeShift64 : rs1Of (encodeShift64 f6 sh6 rs1 f3 rd op) = rs1 := by
  apply BitVec.eq_of_toNat_eq; rw [rs1Of_toNat, encodeShift64_toNat]; omega

@[simp] theorem shamt6Of_encodeShift64 : shamt6Of (encodeShift64 f6 sh6 rs1 f3 rd op) = sh6 := by
  apply BitVec.eq_of_toNat_eq; rw [shamt6Of_toNat, encodeShift64_toNat]; omega

@[simp] theorem funct6Of_encodeShift64 : funct6Of (encodeShift64 f6 sh6 rs1 f3 rd op) = f6 := by
  apply BitVec.eq_of_toNat_eq; rw [funct6Of_toNat, encodeShift64_toNat]; omega

/-! ### The other layouts are the R layout with immediate bits in some of its fields -/

variable (imm : Word)

theorem encodeI_eq_encodeR :
    encodeI imm rs1 f3 rd op = encodeR (imm.extractLsb' 5 7) (imm.extractLsb' 0 5) rs1 f3 rd op := by
  apply BitVec.eq_of_toNat_eq
  rw [encodeI_toNat, encodeR_toNat, toNat_field, toNat_field]
  omega

theorem encodeS_eq_encodeR :
    encodeS imm rs2 rs1 f3 op = encodeR (imm.extractLsb' 5 7) rs2 rs1 f3 (imm.extractLsb' 0 5) op := by
  apply BitVec.eq_of_toNat_eq
  rw [encodeS_toNat, encodeR_toNat, toNat_field, toNat_field]
  omega

theorem encodeB_eq_encodeR : encodeB imm rs2 rs1 f3 op =
    encodeR (imm.extractLsb' 12 1 ++ imm.extractLsb' 5 6) rs2 rs1 f3 (imm.extractLsb' 1 4 ++ imm.extractLsb' 11 1) op := by
  apply BitVec.eq_of_toNat_eq
  rw [encodeB_toNat, encodeR_toNat, toNat_append_eq, toNat_append_eq, toNat_field, toNat_field, toNat_field, toNat_field]
  omega

theorem encodeU_eq_encodeR : encodeU imm rd op =
    encodeR (imm.extractLsb' 25 7) (imm.extractLsb' 20 5) (imm.extractLsb' 15 5) (imm.extractLsb' 12 3) rd op := by
  apply BitVec.eq_of_toNat_eq
  rw [encodeU_toNat, encodeR_toNat, toNat_field, toNat_field, toNat_field, toNat_field]
  omega

theorem encodeJ_eq_encodeR : encodeJ imm rd op =
    encodeR (imm.extractLsb' 20 1 ++ imm.extractLsb' 5 6) (imm.extractLsb' 1 4 ++ imm.extractLsb' 11 1)
      (imm.extractLsb' 15 5) (imm.extractLsb' 12 3) rd op := by
  apply BitVec.eq_of_toNat_eq
  rw [encodeJ_toNat, encodeR_toNat, toNat_append_eq, toNat_append_eq]
  simp only [toNat_field]
  have h5 : imm.toNat / 2 ^ 5 = imm.toNat / 2 / 2 ^ 4 := by omega
  have h15 : imm.toNat / 2 ^ 15 = imm.toNat / 2 ^ 12 / 2 ^ 3 := by omega
  rw [h5, h15]
  generalize imm.toNat / 2 = e
  generalize imm.toNat / 2 ^ 12 = k
  omega

/-! ### What each mask keeps -/

theorem encodeR_and_maskR : encodeR f7 rs2 rs1 f3 rd op &&& 0xFE00707F#32 = encodeR f7 0 0 f3 0 op := by
  show (f7 ++ rs2 ++ rs1 ++ f3 ++ rd ++ op) &&& (0x7F#7 ++ 0#5 ++ 0#5 ++ 7#3 ++ 0#5 ++ 0x7F#7)
    = f7 ++ 0#5 ++ 0#5 ++ f3 ++ 0#5 ++ op
  simp only [BitVec.and_append]
  rw [show (0x7F#7) = BitVec.allOnes 7 from rfl, show (7#3) = BitVec.allOnes 3 from rfl]
  simp only [BitVec.and_allOnes, BitVec.and_zero]

theorem encodeR_and_maskI : encodeR f7 rs2 rs1 f3 rd op &&& 0x0000707F#32 = encodeR 0 0 0 f3 0 op := by
  show (f7 ++ rs2 ++ rs1 ++ f3 ++ rd ++ op) &&& (0#7 ++ 0#5 ++ 0#5 ++ 7#3 ++ 0#5 ++ 0x7F#7)
    = 0#7 ++ 0#5 ++ 0#5 ++ f3 ++ 0#5 ++ op
  simp only [BitVec.and_append]
  rw [show (0x7F#7) = BitVec.allOnes 7 from rfl, show (7#3) = BitVec.allOnes 3 from rfl]
  simp only [BitVec.and_allOnes, BitVec.and_zero]

theorem encodeR_and_maskU : encodeR f7 rs2 rs1 f3 rd op &&& 0x0000007F#32 = encodeR 0 0 0 0 0 op := by
  show (f7 ++ rs2 ++ rs1 ++ f3 ++ rd ++ op) &&& (0#7 ++ 0#5 ++ 0#5 ++ 0#3 ++ 0#5 ++ 0x7F#7)
    = 0#7 ++ 0#5 ++ 0#5 ++ 0#3 ++ 0#5 ++ op
  simp only [BitVec.and_append]
  rw [show (0x7F#7) = BitVec.allOnes 7 from rfl]
  simp only [BitVec.and_allOnes, BitVec.and_zero]

theorem encodeI_and_mask : encodeI imm rs1 f3 rd op &&& 0x0000707F#32 = encodeR 0 0 0 f3 0 op := by
  rw [encodeI_eq_encodeR, encodeR_and_maskI]

theorem encodeS_and_mask : encodeS imm rs2 rs1 f3 op &&& 0x0000707F#32 = encodeR 0 0 0 f3 0 op := by
  rw [encodeS_eq_encodeR, encodeR_and_maskI]

theorem encodeB_and_mask : encodeB imm rs2 rs1 f3 op &&& 0x0000707F#32 = encodeR 0 0 0 f3 0 op := by
  rw [encodeB_eq_encodeR, encodeR_and_maskI]

theorem encodeU_and_mask : encodeU imm rd op &&& 0x0000007F#32 = encodeR 0 0 0 0 0 op := by
  rw [encodeU_eq_encodeR, encodeR_and_maskU]

theorem encodeJ_and_mask : encodeJ imm rd op &&& 0x0000007F#32 = encodeR 0 0 0 0 0 op := by
  rw [encodeJ_eq_encodeR, encodeR_and_maskU]

theorem encodeShift64_and_mask :
    encodeShift64 f6 sh6 rs1 f3 rd op &&& 0xFC00707F#32 = encodeShift64 f6 0 0 f3 0 op := by
  show (f6 ++ sh6 ++ rs1 ++ f3 ++ rd ++ op) &&& (0x3F#6 ++ 0#6 ++ 0#5 ++ 7#3 ++ 0#5 ++ 0x7F#7)
    = f6 ++ 0#6 ++ 0#5 ++ f3 ++ 0#5 ++ op
  simp only [BitVec.and_append]
  rw [show (0x7F#7) = BitVec.allOnes 7 from rfl, show (7#3) = BitVec.allOnes 3 from rfl,
    show (0x3F#6) = BitVec.allOnes 6 from rfl]
  simp only [BitVec.and_allOnes, BitVec.and_zero]

end ReadBack

/-! ### Which fields a row of each mask fixes (R92) -/

section Rows

variable (w : InstrWord) (f7 : BitVec 7) (f6 : BitVec 6) (f3 : BitVec 3) (op : BitVec 7)

theorem and_maskR_iff :
    w &&& 0xFE00707F#32 = encodeR f7 0 0 f3 0 op ↔ funct7Of w = f7 ∧ funct3Of w = f3 ∧ opcodeOf w = op := by
  rw [← encodeR_fields w, encodeR_and_maskR]
  simp only [funct7Of_encodeR, funct3Of_encodeR, opcodeOf_encodeR]
  constructor
  · intro h
    have h7 := congrArg funct7Of h
    have h3 := congrArg funct3Of h
    have ho := congrArg opcodeOf h
    simp only [funct7Of_encodeR, funct3Of_encodeR, opcodeOf_encodeR] at h7 h3 ho
    exact ⟨h7, h3, ho⟩
  · rintro ⟨h7, h3, ho⟩
    rw [h7, h3, ho]

theorem and_maskI_iff : w &&& 0x0000707F#32 = encodeR 0 0 0 f3 0 op ↔ funct3Of w = f3 ∧ opcodeOf w = op := by
  rw [← encodeR_fields w, encodeR_and_maskI]
  simp only [funct3Of_encodeR, opcodeOf_encodeR]
  constructor
  · intro h
    have h3 := congrArg funct3Of h
    have ho := congrArg opcodeOf h
    simp only [funct3Of_encodeR, opcodeOf_encodeR] at h3 ho
    exact ⟨h3, ho⟩
  · rintro ⟨h3, ho⟩
    rw [h3, ho]

theorem and_maskU_iff : w &&& 0x0000007F#32 = encodeR 0 0 0 0 0 op ↔ opcodeOf w = op := by
  rw [← encodeR_fields w, encodeR_and_maskU]
  simp only [opcodeOf_encodeR]
  constructor
  · intro h
    have ho := congrArg opcodeOf h
    simpa only [opcodeOf_encodeR] using ho
  · intro ho
    rw [ho]

theorem and_maskShift64_iff :
    w &&& 0xFC00707F#32 = encodeShift64 f6 0 0 f3 0 op ↔ funct6Of w = f6 ∧ funct3Of w = f3 ∧ opcodeOf w = op := by
  rw [← encodeShift64_fields w, encodeShift64_and_mask]
  simp only [funct6Of_encodeShift64, funct3Of_encodeShift64, opcodeOf_encodeShift64]
  constructor
  · intro h
    have h6 := congrArg funct6Of h
    have h3 := congrArg funct3Of h
    have ho := congrArg opcodeOf h
    simp only [funct6Of_encodeShift64, funct3Of_encodeShift64, opcodeOf_encodeShift64] at h6 h3 ho
    exact ⟨h6, h3, ho⟩
  · rintro ⟨h6, h3, ho⟩
    rw [h6, h3, ho]

end Rows

/-! ### The primary dispatch (R71) -/

/-- All the decoder can do: the sub-decoder of one of the 13 major opcodes, or Unknown. -/
theorem decode_cases (w : InstrWord) :
    (opcodeOf w = 0x03#7 ∧ decode w = decodeLoad w) ∨
    (opcodeOf w = 0x0F#7 ∧ decode w = decodeMiscMem w) ∨
    (opcodeOf w = 0x13#7 ∧ decode w = decodeOpImm w) ∨
    (opcodeOf w = 0x17#7 ∧ decode w = .auipc (rdOf w) (immU w)) ∨
    (opcodeOf w = 0x1B#7 ∧ decode w = decodeOpImm32 w) ∨
    (opcodeOf w = 0x23#7 ∧ decode w = decodeStore w) ∨
    (opcodeOf w = 0x33#7 ∧ decode w = decodeOp w) ∨
    (opcodeOf w = 0x37#7 ∧ decode w = .lui (rdOf w) (immU w)) ∨
    (opcodeOf w = 0x3B#7 ∧ decode w = decodeOp32 w) ∨
    (opcodeOf w = 0x63#7 ∧ decode w = decodeBranch w) ∨
    (opcodeOf w = 0x67#7 ∧ decode w = decodeJalr w) ∨
    (opcodeOf w = 0x6F#7 ∧ decode w = .jal (rdOf w) (immJ w)) ∨
    (opcodeOf w = 0x73#7 ∧ decode w = decodeSystem w) ∨
    decode w = .unknown w := by
  unfold decode
  by_cases o03 : opcodeOf w = 0x03#7
  · rw [if_pos o03]
    exact .inl ⟨o03, rfl⟩
  rw [if_neg o03]
  refine .inr ?_
  by_cases o0F : opcodeOf w = 0x0F#7
  · rw [if_pos o0F]
    exact .inl ⟨o0F, rfl⟩
  rw [if_neg o0F]
  refine .inr ?_
  by_cases o13 : opcodeOf w = 0x13#7
  · rw [if_pos o13]
    exact .inl ⟨o13, rfl⟩
  rw [if_neg o13]
  refine .inr ?_
  by_cases o17 : opcodeOf w = 0x17#7
  · rw [if_pos o17]
    exact .inl ⟨o17, rfl⟩
  rw [if_neg o17]
  refine .inr ?_
  by_cases o1B : opcodeOf w = 0x1B#7
  · rw [if_pos o1B]
    exact .inl ⟨o1B, rfl⟩
  rw [if_neg o1B]
  refine .inr ?_
  by_cases o23 : opcodeOf w = 0x23#7
  · rw [if_pos o23]
    exact .inl ⟨o23, rfl⟩
  rw [if_neg o23]
  refine .inr ?_
  by_cases o33 : opcodeOf w = 0x33#7
  · rw [if_pos o33]
    exact .inl ⟨o33, rfl⟩
  rw [if_neg o33]
  refine .inr ?_
  by_cases o37 : opcodeOf w = 0x37#7
  · rw [if_pos o37]
    exact .inl ⟨o37, rfl⟩
  rw [if_neg o37]
  refine .inr ?_
  by_cases o3B : opcodeOf w = 0x3B#7
  · rw [if_pos o3B]
    exact .inl ⟨o3B, rfl⟩
  rw [if_neg o3B]
  refine .inr ?_
  by_cases o63 : opcodeOf w = 0x63#7
  · rw [if_pos o63]
    exact .inl ⟨o63, rfl⟩
  rw [if_neg o63]
  refine .inr ?_
  by_cases o67 : opcodeOf w = 0x67#7
  · rw [if_pos o67]
    exact .inl ⟨o67, rfl⟩
  rw [if_neg o67]
  refine .inr ?_
  by_cases o6F : opcodeOf w = 0x6F#7
  · rw [if_pos o6F]
    exact .inl ⟨o6F, rfl⟩
  rw [if_neg o6F]
  refine .inr ?_
  by_cases o73 : opcodeOf w = 0x73#7
  · rw [if_pos o73]
    exact .inl ⟨o73, rfl⟩
  rw [if_neg o73]
  refine .inr ?_
  rfl

/-! ### Signed readings -/

/-- `sext` of an n-bit value as an integer: the value minus 2^n where its top bit is set (spec/00_scope.md R7). -/
theorem toInt_sext64 {n : Nat} (v : BitVec n) (h : n ≤ 64) : (v.signExtend 64).toInt = v.toInt :=
  BitVec.toInt_signExtend_of_le h

/-- The four fetched bytes as a word: the little-endian number they spell (R60). -/
theorem wordOfBytes_toNat (b0 b1 b2 b3 : Byte) : (wordOfBytes b0 b1 b2 b3).toNat =
    b0.toNat + 256 * (b1.toNat + 256 * (b2.toNat + 256 * b3.toNat)) := by
  show BitVec.toNat (w := 8 + 8 + 8 + 8) (b3 ++ b2 ++ b1 ++ b0) = _
  rw [toNat_append_eq, toNat_append_eq, toNat_append_eq]
  omega

/-- The bytes of a word spell the word (R60). -/
theorem wordOfBytes_bytesOfWord (w : InstrWord) :
    wordOfBytes (w.extractLsb' 0 8) (w.extractLsb' 8 8) (w.extractLsb' 16 8) (w.extractLsb' 24 8) = w := by
  apply BitVec.eq_of_toNat_eq
  rw [wordOfBytes_toNat, toNat_field, toNat_field, toNat_field, toNat_field]
  have := w.isLt
  omega

end Sys2Proof
end

