-- ==== Sys2Proof/Laws/Memory.lean ====
section
/-!
SUPPORT. The backing store's laws: a read after a write, what a write leaves alone, and that every memory operation keeps the
canonical form and writes no address outside its bytes.
-/

namespace Sys2Proof.Machine

variable {m : Memory} {a b : Nat} {v : Byte}

@[simp] theorem Memory.read_nil (a : Nat) : Memory.read [] a = 0 := rfl

theorem Memory.read_cons (c : Host.Cell) (m : Memory) (a : Nat) :
    Memory.read (c :: m) a = if a = c.1 then c.2 else Memory.read m a := rfl

theorem Memory.read_eq_zero (h : ∀ c ∈ m, c.1 ≠ a) : Memory.read m a = 0 := by
  induction m with
  | nil => rfl
  | cons c m ih =>
    rw [Memory.read_cons, if_neg (h c (by simp)).symm]
    exact ih fun d hd => h d (by simp [hd])

theorem Memory.read_put (m : Memory) (a : Nat) (v : Byte) (b : Nat) :
    Memory.read (Memory.put m a v) b = if b = a then v else Memory.read m b := by
  induction m with
  | nil => rfl
  | cons c m ih =>
    simp only [Memory.put]
    split
    · rw [Memory.read_cons]
    · split
      · rename_i h
        subst h
        simp only [Memory.read_cons]
        split <;> rfl
      · rename_i h
        simp only [Memory.read_cons, ih]
        split
        · rename_i hb
          subst hb
          rw [if_neg (Ne.symm h)]
        · rfl

theorem Memory.read_filter (m : Memory) (a b : Nat) :
    Memory.read (m.filter fun c => c.1 != a) b = if b = a then 0 else Memory.read m b := by
  induction m with
  | nil => simp
  | cons c m ih =>
    by_cases h : c.1 = a
    · rw [List.filter_cons_of_neg (by simp [h]), ih, Memory.read_cons, ← h]
      split <;> simp_all
    · rw [List.filter_cons_of_pos (by simp [h]), Memory.read_cons, ih, Memory.read_cons]
      split
      · rename_i hb
        rw [if_neg (by rw [hb]; exact h)]
      · rfl

/-- A read after a write: the byte written at its address, the byte that was there anywhere else. -/
theorem Memory.read_write (m : Memory) (a : Nat) (v : Byte) (b : Nat) :
    Memory.read (Memory.write m a v) b = if b = a then v else Memory.read m b := by
  unfold Memory.write
  split
  · rename_i h
    rw [h, Memory.read_filter]
  · exact Memory.read_put m a v b

theorem Memory.mem_put {c : Host.Cell} (h : c ∈ Memory.put m a v) : c = (a, v) ∨ c ∈ m := by
  induction m with
  | nil => simpa [Memory.put] using h
  | cons d m ih =>
    simp only [Memory.put] at h
    split at h
    · simpa using h
    · split at h
      · rcases List.mem_cons.1 h with h | h
        · exact .inl h
        · exact .inr (by simp [h])
      · rcases List.mem_cons.1 h with h | h
        · exact .inr (by simp [h])
        · rcases ih h with h | h
          · exact .inl h
          · exact .inr (by simp [h])

/-- An entry after a write is the byte written or was there before. -/
theorem Memory.mem_write {c : Host.Cell} (h : c ∈ Memory.write m a v) : c = (a, v) ∨ c ∈ m := by
  unfold Memory.write at h
  split at h
  · exact .inr (List.mem_filter.1 h).1
  · exact Memory.mem_put h

theorem Memory.put_wf (h : Memory.wf m) (hv : v ≠ 0) : Memory.wf (Memory.put m a v) := by
  refine ⟨?_, fun c hc => ?_⟩
  · obtain ⟨h, -⟩ := h
    induction m with
    | nil => simp [Memory.put]
    | cons c m ih =>
      obtain ⟨hc, hm⟩ := List.pairwise_cons.1 h
      simp only [Memory.put]
      split
      · rename_i hlt
        refine List.pairwise_cons.2 ⟨fun d hd => ?_, h⟩
        rcases List.mem_cons.1 hd with rfl | hd
        · exact hlt
        · exact lt_trans hlt (hc d hd)
      · split
        · rename_i heq
          subst heq
          exact List.pairwise_cons.2 ⟨hc, hm⟩
        · rename_i hlt hne
          refine List.pairwise_cons.2 ⟨fun d hd => ?_, ih hm⟩
          rcases Memory.mem_put hd with rfl | hd
          · exact lt_of_le_of_ne (not_lt.1 hlt) (Ne.symm hne)
          · exact hc d hd
  · rcases Memory.mem_put hc with rfl | hc
    · exact hv
    · exact h.2 c hc

/-- Writing a byte keeps the canonical form. -/
theorem Memory.write_wf (h : Memory.wf m) : Memory.wf (Memory.write m a v) := by
  unfold Memory.write
  split
  · exact ⟨h.1.filter _, fun c hc => h.2 c (List.mem_filter.1 hc).1⟩
  · rename_i hv
    exact Memory.put_wf h hv

/-- Two stores in canonical form that read alike are the same data. -/
theorem Memory.ext_of_wf {m m' : Memory} (h : Memory.wf m) (h' : Memory.wf m')
    (hr : ∀ a, Memory.read m a = Memory.read m' a) : m = m' := by
  induction m generalizing m' with
  | nil =>
    cases m' with
    | nil => rfl
    | cons d m' => exact absurd (by simpa [Memory.read_cons] using (hr d.1).symm) (h'.2 d (by simp))
  | cons c m ih =>
    cases m' with
    | nil => exact absurd (by simpa [Memory.read_cons] using hr c.1) (h.2 c (by simp))
    | cons d m' =>
      obtain ⟨hc, hm⟩ := List.pairwise_cons.1 h.1
      obtain ⟨hd, hm'⟩ := List.pairwise_cons.1 h'.1
      have below {e : Host.Cell} {n : Memory} {x : Nat} (hn : ∀ f ∈ n, e.1 < f.1) (hx : x < e.1) :
          Memory.read (e :: n) x = 0 := by
        refine Memory.read_eq_zero fun f hf => ?_
        rcases List.mem_cons.1 hf with rfl | hf
        · exact Nat.ne_of_gt hx
        · exact Nat.ne_of_gt (lt_trans hx (hn f hf))
      have h1 : c.1 = d.1 := by
        rcases Nat.lt_trichotomy c.1 d.1 with hlt | heq | hlt
        · have := hr c.1
          rw [below hd hlt, Memory.read_cons, if_pos rfl] at this
          exact absurd this (h.2 c (by simp))
        · exact heq
        · have := hr d.1
          rw [below hc hlt, Memory.read_cons, if_pos rfl] at this
          exact absurd this.symm (h'.2 d (by simp))
      have h2 : c.2 = d.2 := by
        have := hr c.1
        rwa [Memory.read_cons, Memory.read_cons, if_pos rfl, if_pos h1] at this
      have hcd : c = d := Prod.ext h1 h2
      subst hcd
      refine congrArg _ (ih ⟨hm, fun e he => h.2 e (by simp [he])⟩ ⟨hm', fun e he => h'.2 e (by simp [he])⟩ fun x => ?_)
      by_cases hx : x = c.1
      · subst hx
        rw [Memory.read_eq_zero fun e he => Nat.ne_of_gt (hc e he), Memory.read_eq_zero fun e he => Nat.ne_of_gt (hd e he)]
      · have := hr x
        rwa [Memory.read_cons, Memory.read_cons, if_neg hx, if_neg hx] at this

/-! ### Wide writes and reads -/

/-- The bytes after a wide write: byte k of v at a + k for k < n, what was there anywhere else. -/
theorem Memory.read_writeLE (m : Memory) (a n : Nat) (v : Word) (b : Nat) :
    Memory.read (Memory.writeLE m a n v) b =
      if a ≤ b ∧ b < a + n then v.extractLsb' (8 * (b - a)) 8 else Memory.read m b := by
  induction n generalizing m a v with
  | zero =>
    rw [if_neg (by omega)]
    rfl
  | succ n ih =>
    simp only [Memory.writeLE]
    rw [ih, Memory.read_write]
    rcases Nat.lt_trichotomy b a with h | h | h
    · rw [if_neg (by omega), if_neg (by omega), if_neg (by omega)]
    · subst h
      rw [if_neg (by omega), if_pos rfl, if_pos (by omega)]
      ext i hi
      simp [BitVec.getElem_setWidth, BitVec.getElem_extractLsb']
    · by_cases h' : b < a + (n + 1)
      · rw [if_pos (by omega), if_pos (by omega)]
        ext i hi
        simp only [BitVec.getElem_extractLsb', BitVec.getLsbD_ushiftRight]
        congr 1
        omega
      · rw [if_neg (by omega), if_neg (by omega), if_neg (by omega)]

theorem Memory.writeLE_wf {n : Nat} {w : Word} (h : Memory.wf m) : Memory.wf (Memory.writeLE m a n w) := by
  induction n generalizing m a w with
  | zero => exact h
  | succ n ih => exact ih (Memory.write_wf h)

/-- An entry after a wide write lies at one of the n addresses or was there before. -/
theorem Memory.mem_writeLE {n : Nat} {w : Word} {c : Host.Cell} (h : c ∈ Memory.writeLE m a n w) :
    (a ≤ c.1 ∧ c.1 < a + n) ∨ c ∈ m := by
  induction n generalizing m a w with
  | zero => exact .inr h
  | succ n ih =>
    rcases ih h with h | h
    · exact .inl ⟨by omega, by omega⟩
    · rcases Memory.mem_write h with rfl | h
      · exact .inl ⟨le_refl a, by omega⟩
      · exact .inr h

theorem Memory.readLE_lt (m : Memory) (a n : Nat) : Memory.readLE m a n < 2 ^ (8 * n) := by
  induction n generalizing a with
  | zero => simp [Memory.readLE]
  | succ n ih =>
    have := ih (a + 1)
    have hb := (Memory.read m a).isLt
    have e : 2 ^ (8 * (n + 1)) = 256 * 2 ^ (8 * n) := by
      rw [show 8 * (n + 1) = 8 + 8 * n by omega, Nat.pow_add]
    simp only [Memory.readLE]
    omega

/-- A wide read depends only on its n bytes. -/
theorem Memory.readLE_congr {m m' : Memory} {a n : Nat}
    (h : ∀ k < n, Memory.read m (a + k) = Memory.read m' (a + k)) : Memory.readLE m a n = Memory.readLE m' a n := by
  induction n generalizing a with
  | zero => rfl
  | succ n ih =>
    have h0 : Memory.read m a = Memory.read m' a := h 0 (by omega)
    simp only [Memory.readLE]
    rw [h0, ih fun k hk => by
      have := h (k + 1) (by omega)
      rwa [show a + (k + 1) = a + 1 + k by omega] at this]

/-- A wide read of bytes that are those of w from bit 8j on is the number w[8(j+n)-1 : 8j]. -/
theorem Memory.readLE_of_bytes {m : Memory} {a n j : Nat} {w : Word}
    (h : ∀ k < n, Memory.read m (a + k) = w.extractLsb' (8 * (j + k)) 8) :
    Memory.readLE m a n = w.toNat / 2 ^ (8 * j) % 2 ^ (8 * n) := by
  induction n generalizing a j with
  | zero => simp [Memory.readLE, Nat.mod_one]
  | succ n ih =>
    simp only [Memory.readLE]
    rw [ih (j := j + 1) fun k hk => by
      have := h (k + 1) (by omega)
      rwa [show a + (k + 1) = a + 1 + k by omega, show j + (k + 1) = j + 1 + k by omega] at this]
    have h0 := h 0 (by omega)
    simp only [Nat.add_zero] at h0
    rw [h0, BitVec.extractLsb'_toNat, Nat.shiftRight_eq_div_pow,
      show 8 * (j + 1) = 8 * j + 8 by omega, Nat.pow_add, ← Nat.div_div_eq_div_mul,
      show 8 * (n + 1) = 8 + 8 * n by omega, Nat.pow_add, Nat.mod_mul]

/-! ### The image -/

theorem Memory.mem_ofImage {image : List Byte} {c : Host.Cell} (h : c ∈ Memory.ofImage a image) :
    a ≤ c.1 ∧ c.1 < a + image.length ∧ c.2 ≠ 0 := by
  induction image generalizing a with
  | nil => simp [Memory.ofImage] at h
  | cons b bs ih =>
    simp only [Memory.ofImage] at h
    rw [List.length_cons]
    split at h
    · have := ih h
      exact ⟨by omega, by omega, this.2.2⟩
    · rcases List.mem_cons.1 h with rfl | h
      · exact ⟨le_refl a, by simp, by assumption⟩
      · have := ih h
        exact ⟨by omega, by omega, this.2.2⟩

/-- The store of an image is in canonical form. -/
theorem Memory.ofImage_wf (a : Nat) (image : List Byte) : Memory.wf (Memory.ofImage a image) := by
  refine ⟨?_, fun c hc => (Memory.mem_ofImage hc).2.2⟩
  induction image generalizing a with
  | nil => simp [Memory.ofImage]
  | cons b bs ih =>
    simp only [Memory.ofImage]
    split
    · exact ih (a + 1)
    · refine List.pairwise_cons.2 ⟨fun c hc => ?_, ih (a + 1)⟩
      have := (Memory.mem_ofImage hc).1
      show a < c.1
      omega

/-- The byte at offset o of a loaded image: the image's, and 0 beyond its end (10_state.md R33). -/
theorem Memory.read_ofImage (a o : Nat) (image : List Byte) :
    Memory.read (Memory.ofImage a image) (a + o) = (image[o]?).getD 0 := by
  induction image generalizing a o with
  | nil => simp [Memory.ofImage]
  | cons b bs ih =>
    simp only [Memory.ofImage]
    cases o with
    | zero =>
      split
      · rename_i hb
        rw [Memory.read_eq_zero fun c hc => by have := (Memory.mem_ofImage hc).1; omega]
        simp [hb]
      · simp [Memory.read_cons]
    | succ o =>
      have := ih (a + 1) o
      rw [show a + 1 + o = a + (o + 1) by omega] at this
      split
      · simpa using this
      · rw [Memory.read_cons, if_neg (by show ¬a + (o + 1) = a; omega)]
        simpa using this

/-! ### A failing write -/

section FailedBytes

variable {c : Config} {draw : BitVec 8} {a v : Word}

theorem failedBytes_wf {m : Memory} {k n : Nat} (h : Memory.wf m) : Memory.wf (failedBytes c draw a v m k n) := by
  induction n generalizing m k with
  | zero => exact h
  | succ n ih =>
    refine ih ?_
    split
    · exact Memory.write_wf h
    · exact h

theorem inWindow_iff {n : Nat} :
    inWindow c a n = true ↔ c.base ≤ a.toNat ∧ a.toNat - c.base + n ≤ c.size := by
  simp [inWindow]

/-- An entry after a failing write lies in the window or was there before. -/
theorem mem_failedBytes {m : Memory} {k n : Nat} {e : Host.Cell} (h : e ∈ failedBytes c draw a v m k n) :
    (c.base ≤ e.1 ∧ e.1 < c.base + c.size) ∨ e ∈ m := by
  induction n generalizing m k with
  | zero => exact .inr h
  | succ n ih =>
    rcases ih h with h | h
    · exact .inl h
    · split at h
      · rename_i hw
        rcases Memory.mem_write h with rfl | h
        · have := inWindow_iff.1 (Bool.and_eq_true _ _ ▸ hw : _ ∧ _).1
          exact .inl ⟨this.1, by show (a + BitVec.ofNat 64 k).toNat < _; omega⟩
        · exact .inr h
      · exact .inr h

/-- A byte after a failing write is the old byte, or the new byte of one of the n target addresses, inside the window. -/
theorem read_failedBytes (m : Memory) (k n b : Nat) :
    Memory.read (failedBytes c draw a v m k n) b = Memory.read m b ∨
      ∃ j, k ≤ j ∧ j < k + n ∧ b = (a + BitVec.ofNat 64 j).toNat ∧ inWindow c (a + BitVec.ofNat 64 j) 1 = true ∧
        Memory.read (failedBytes c draw a v m k n) b = v.extractLsb' (8 * j) 8 := by
  induction n generalizing m k with
  | zero => exact .inl rfl
  | succ n ih =>
    simp only [failedBytes]
    split
    · rename_i hw
      obtain ⟨hw, -⟩ := (Bool.and_eq_true _ _ ▸ hw : _ ∧ _)
      rcases ih (Memory.write m (a + BitVec.ofNat 64 k).toNat (v.extractLsb' (8 * k) 8)) (k + 1) with h | ⟨j, h1, h2, h3⟩
      · rw [h, Memory.read_write]
        split
        · rename_i hb
          exact .inr ⟨k, le_refl k, by omega, hb, hw, rfl⟩
        · exact .inl rfl
      · exact .inr ⟨j, by omega, by omega, h3⟩
    · rcases ih m (k + 1) with h | ⟨j, h1, h2, h3⟩
      · exact .inl h
      · exact .inr ⟨j, by omega, by omega, h3⟩

end FailedBytes

end Sys2Proof.Machine
end

