-- ==== Sys2Proof/Laws/Operands.lean ====
section
/-!
SUPPORT. One lemma for each operand form, comparison and result computation: its value in exact integer arithmetic.
-/

namespace Sys2Proof.Machine

/-! ### Extensions and the 32-bit view (spec/00_scope.md R7, 44_shifts_word.md R200) -/

theorem sextWord_toInt {n : Nat} (v : BitVec n) (h : n ≤ 64) : (sextWord v).toInt = v.toInt := toInt_sext64 v h

theorem zextWord_toNat {n : Nat} (v : BitVec n) (h : n ≤ 64) : (zextWord v).toNat = v.toNat := by
  rw [zextWord, BitVec.toNat_setWidth, Nat.mod_eq_of_lt]
  exact lt_of_lt_of_le v.isLt (Nat.pow_le_pow_right (by omega) h)

theorem low32_toNat (a : Word) : (low32 a).toNat = a.toNat % 2 ^ 32 := by
  rw [low32, BitVec.toNat_setWidth]

theorem low32_toInt (a : Word) : (low32 a).toInt = Int.bmod a.toNat (2 ^ 32) := by
  refine (BitVec.toInt_eq_toNat_bmod _).trans ?_
  rw [low32_toNat]
  exact Int.emod_bmod (a.toNat : Int) (2 ^ 32)

/-! ### Shift amounts and targets (44_shifts_word.md R201, R213, 43_control_transfer.md R180) -/

theorem amount6_eq (b : Word) : amount6 b = b.toNat % 64 := by
  rw [amount6, toNat_field]
  omega

theorem amount5_eq (b : Word) : amount5 b = b.toNat % 32 := by
  rw [amount5, toNat_field]
  omega

/-- An arithmetic right shift is division rounding down. -/
theorem sshiftRight_eq_ofInt {n : Nat} (a : BitVec n) (k : Nat) : a.sshiftRight k = BitVec.ofInt n (a.toInt / 2 ^ k) := by
  rw [BitVec.sshiftRight, Int.shiftRight_eq_div_pow]
  simp

/-! ### Comparisons (41_integer_alu.md R132, R133) -/

theorem lessSigned_eq (a b : Word) : lessSigned a b = decide (a.toInt < b.toInt) := rfl

theorem lessUnsigned_eq (a b : Word) : lessUnsigned a b = decide (a.toNat < b.toNat) := rfl

theorem flagWord_decide (p : Prop) [Decidable p] : flagWord (decide p) = if p then 1 else 0 := by
  by_cases h : p <;> simp [flagWord, h]

/-! ### Products and quotients (45_muldiv.md R230 to R234) -/

/-- The high half of a product is the product divided by 2^64, rounding down. -/
theorem highHalf_eq (p : Int) : highHalf p = BitVec.ofInt 64 (p / 2 ^ 64) := by
  apply BitVec.eq_of_toNat_eq
  rw [highHalf, toNat_field, BitVec.toNat_ofInt, BitVec.toNat_ofInt]
  push_cast
  omega

theorem toInt_intMin_eq {n : Nat} (hn : 0 < n) : (BitVec.intMin n).toInt = -2 ^ (n - 1) := by
  rw [BitVec.toInt_intMin, Nat.mod_eq_of_lt (Nat.pow_lt_pow_right (by omega) (by omega))]
  push_cast
  rfl

theorem toInt_allOnes_eq {n : Nat} (hn : 0 < n) : (BitVec.allOnes n).toInt = -1 := by
  rw [BitVec.toInt_allOnes, if_pos hn]

/-- The overflowing quotient, 2^(n-1) reduced modulo 2^n, is the dividend -2^(n-1). -/
theorem ofInt_overflow {n : Nat} (hn : 0 < n) : BitVec.ofInt n (2 ^ (n - 1)) = BitVec.intMin n := by
  have h : (2 : Int) ^ n = 2 * 2 ^ (n - 1) := by
    rw [← pow_succ']
    congr 1
    omega
  apply BitVec.eq_of_toInt_eq
  rw [toInt_intMin_eq hn, BitVec.toInt_ofInt]
  conv_lhs => rw [show (2 : Int) ^ (n - 1) = -2 ^ (n - 1) + 2 ^ n by rw [h]; ring]
  have hb := Int.add_bmod_right (-2 ^ (n - 1)) (2 ^ n)
  push_cast at hb ⊢
  rw [hb]
  have hp : (0 : Int) < 2 ^ (n - 1) := by positivity
  apply Int.bmod_eq_of_le <;> push_cast <;> rw [h] <;> omega

/-- The signed quotient with its overflow row folded in: the truncating quotient modulo 2^n. -/
theorem quotSigned_eq {n : Nat} (hn : 0 < n) (a b : BitVec n) :
    quotSigned a b = if b = 0 then BitVec.allOnes n else BitVec.ofInt n (a.toInt.tdiv b.toInt) := by
  unfold quotSigned
  split
  · rfl
  · split
    · rename_i h
      rw [h.1, h.2, toInt_intMin_eq hn, toInt_allOnes_eq hn, Int.tdiv_neg, Int.tdiv_one, neg_neg, ofInt_overflow hn]
    · rfl

/-- The signed remainder with its overflow row folded in. -/
theorem remSigned_eq {n : Nat} (hn : 0 < n) (a b : BitVec n) :
    remSigned a b = if b = 0 then a else BitVec.ofInt n (a.toInt.tmod b.toInt) := by
  unfold remSigned
  split
  · rfl
  · split
    · rename_i h
      rw [h.1, h.2, toInt_intMin_eq hn, toInt_allOnes_eq hn, Int.tmod_neg, Int.tmod_one]
      rfl
    · rfl

end Sys2Proof.Machine
end

