-- ==== Sys2Proof/Laws/State.lean ====
section
/-!
SUPPORT. One lemma per field per update of the state, so that no later proof unfolds a record update, and the laws of the two
register ports (spec/10_state.md R22, R23).
-/

namespace Sys2Proof.Machine

variable (s : State)

/-! ### The write port -/

@[simp] theorem State.setX_cfg (i : RegIdx) (v : Word) : (s.setX i v).cfg = s.cfg := by
  unfold State.setX; split <;> rfl

@[simp] theorem State.setX_pc (i : RegIdx) (v : Word) : (s.setX i v).pc = s.pc := by
  unfold State.setX; split <;> rfl

@[simp] theorem State.setX_running (i : RegIdx) (v : Word) : (s.setX i v).running = s.running := by
  unfold State.setX; split <;> rfl

@[simp] theorem State.setX_haltReason (i : RegIdx) (v : Word) : (s.setX i v).haltReason = s.haltReason := by
  unfold State.setX; split <;> rfl

@[simp] theorem State.setX_mem (i : RegIdx) (v : Word) : (s.setX i v).mem = s.mem := by
  unfold State.setX; split <;> rfl

@[simp] theorem State.setX_draws (i : RegIdx) (v : Word) : (s.setX i v).draws = s.draws := by
  unfold State.setX; split <;> rfl

/-! ### The pc sequencer -/

@[simp] theorem State.sequential_regs : s.sequential.regs = s.regs := rfl

@[simp] theorem State.sequential_cfg : s.sequential.cfg = s.cfg := rfl

@[simp] theorem State.sequential_pc : s.sequential.pc = s.pc + 4 := rfl

@[simp] theorem State.sequential_running : s.sequential.running = s.running := rfl

@[simp] theorem State.sequential_haltReason : s.sequential.haltReason = s.haltReason := rfl

@[simp] theorem State.sequential_mem : s.sequential.mem = s.mem := rfl

@[simp] theorem State.sequential_draws : s.sequential.draws = s.draws := rfl

@[simp] theorem State.transfer_regs (t : Word) : (s.transfer t).regs = s.regs := rfl

@[simp] theorem State.transfer_cfg (t : Word) : (s.transfer t).cfg = s.cfg := rfl

/-- The compensation composes to the target itself (40_execution_cycle.md R110). -/
@[simp] theorem State.transfer_pc (t : Word) : (s.transfer t).pc = t := by
  show t - 4 + 4 = t
  exact BitVec.sub_add_cancel t 4

@[simp] theorem State.transfer_running (t : Word) : (s.transfer t).running = s.running := rfl

@[simp] theorem State.transfer_haltReason (t : Word) : (s.transfer t).haltReason = s.haltReason := rfl

@[simp] theorem State.transfer_mem (t : Word) : (s.transfer t).mem = s.mem := rfl

@[simp] theorem State.transfer_draws (t : Word) : (s.transfer t).draws = s.draws := rfl

/-! ### The halt -/

@[simp] theorem State.halt_regs (r : HaltReason) : (s.halt r).regs = s.regs := rfl

@[simp] theorem State.halt_cfg (r : HaltReason) : (s.halt r).cfg = s.cfg := rfl

@[simp] theorem State.halt_pc (r : HaltReason) : (s.halt r).pc = s.pc := rfl

@[simp] theorem State.halt_running (r : HaltReason) : (s.halt r).running = false := rfl

@[simp] theorem State.halt_haltReason (r : HaltReason) : (s.halt r).haltReason = some r := rfl

@[simp] theorem State.halt_mem (r : HaltReason) : (s.halt r).mem = s.mem := rfl

@[simp] theorem State.halt_draws (r : HaltReason) : (s.halt r).draws = s.draws := rfl

/-! ### A failing write (20_memory.md R49) -/

@[simp] theorem failedWrite_regs (a : Word) (n : Nat) (v : Word) : (failedWrite s a n v).regs = s.regs := rfl

@[simp] theorem failedWrite_cfg (a : Word) (n : Nat) (v : Word) : (failedWrite s a n v).cfg = s.cfg := rfl

@[simp] theorem failedWrite_pc (a : Word) (n : Nat) (v : Word) : (failedWrite s a n v).pc = s.pc := rfl

@[simp] theorem failedWrite_running (a : Word) (n : Nat) (v : Word) : (failedWrite s a n v).running = s.running := rfl

@[simp] theorem failedWrite_haltReason (a : Word) (n : Nat) (v : Word) : (failedWrite s a n v).haltReason = s.haltReason := rfl

@[simp] theorem failedWrite_draws (a : Word) (n : Nat) (v : Word) : (failedWrite s a n v).draws = s.draws + 1 := rfl

theorem failedWrite_mem (a : Word) (n : Nat) (v : Word) :
    (failedWrite s a n v).mem = failedBytes s.cfg (Config.writeFailBytes s.draws) a v s.mem 0 n := rfl

/-! ### Reading registers -/

/-- x0 reads 0 in every state (R22). -/
@[simp] theorem State.x_zero : s.x 0#5 = 0#64 := rfl

/-- The read port depends on the register slots only. -/
theorem State.x_congr {s t : State} (h : t.regs = s.regs) (i : RegIdx) : t.x i = s.x i := by
  unfold State.x
  split
  · rfl
  · simp only [h]

@[simp] theorem State.sequential_x (i : RegIdx) : s.sequential.x i = s.x i := rfl

@[simp] theorem State.transfer_x (t : Word) (i : RegIdx) : (s.transfer t).x i = s.x i := rfl

@[simp] theorem State.halt_x (r : HaltReason) (i : RegIdx) : (s.halt r).x i = s.x i := rfl

@[simp] theorem failedWrite_x (a : Word) (n : Nat) (v : Word) (i : RegIdx) : (failedWrite s a n v).x i = s.x i := rfl

/-- A read after a write (R22, R23): the value written at its own register unless that is x0, the old value elsewhere. -/
theorem State.x_setX (i : RegIdx) (v : Word) (j : RegIdx) :
    (s.setX i v).x j = if j = i ∧ j ≠ 0 then v else s.x j := by
  by_cases hj : j = 0
  · subst hj
    simp
  · by_cases hi : i = 0
    · subst hi
      rw [if_neg fun h => hj h.1]
      unfold State.setX
      rw [dif_pos rfl]
    · have hi' : i.toNat ≠ 0 := fun h => hi (BitVec.eq_of_toNat_eq h)
      have hj' : j.toNat ≠ 0 := fun h => hj (BitVec.eq_of_toNat_eq h)
      unfold State.setX State.x
      rw [dif_neg hj, dif_neg hj, dif_neg hi, Vector.getElem_set]
      by_cases h : j = i
      · rw [if_pos (by rw [h]), if_pos ⟨h, hj⟩]
      · have hne : j.toNat ≠ i.toNat := fun e => h (BitVec.eq_of_toNat_eq e)
        rw [if_neg (by omega), if_neg fun e => h e.1]

/-! ### Reading bytes -/

theorem State.byteAt_eq (a : Nat) : s.byteAt a = Memory.read s.mem a := rfl

/-- The byte accessor depends on the store only. -/
theorem State.byteAt_congr {s t : State} (h : t.mem = s.mem) (a : Nat) : t.byteAt a = s.byteAt a := by
  rw [State.byteAt_eq, State.byteAt_eq, h]

/-! ### Construction and reset (70_reset_and_hazards.md R310) -/

section Init

variable (cfg : Config) (regInit : Vector Word 31) (image : List Byte)

@[simp] theorem State.init_cfg : (State.init cfg regInit image).cfg = cfg := rfl

@[simp] theorem State.init_pc : (State.init cfg regInit image).pc = BitVec.ofNat 64 cfg.base := rfl

@[simp] theorem State.init_running : (State.init cfg regInit image).running = true := rfl

@[simp] theorem State.init_haltReason : (State.init cfg regInit image).haltReason = none := rfl

@[simp] theorem State.init_mem : (State.init cfg regInit image).mem = Memory.ofImage cfg.base image := rfl

end Init

end Sys2Proof.Machine
end

