-- ==== Sys2Proof/Laws/Ops.lean ====
section
/-!
SUPPORT. One lemma for each shared operation: everything it can answer. The meanings' proofs cite these and do not unfold the
operations.
-/

namespace Sys2Proof.Machine

variable {s : State} {a v : Word} {n : Nat}

/-! ### The bus (spec/20_memory.md R42 to R44, R49) -/

/-- The bounds check without subtraction: the access starts at or above BASE and ends at or below BASE + SIZE. -/
theorem inWindow_iff_bounds {c : Config} :
    inWindow c a n = true ↔ c.base ≤ a.toNat ∧ a.toNat + n ≤ c.base + c.size := by
  rw [inWindow_iff]
  omega

/-- A read inside the window gives the little-endian value of its bytes. -/
theorem busRead_of_inWindow (h : inWindow s.cfg a n = true) :
    busRead s a n = some (BitVec.ofNat (8 * n) (Memory.readLE s.mem a.toNat n)) := if_pos h

/-- A read outside the window is an AddressError. -/
theorem busRead_of_not_inWindow (h : inWindow s.cfg a n = false) : busRead s a n = none :=
  if_neg (by simp [h])

/-- A write inside the window writes its n bytes and nothing else. -/
theorem busWrite_of_inWindow (h : inWindow s.cfg a n = true) :
    busWrite s a n v = .ok { s with mem := Memory.writeLE s.mem a.toNat n v } := if_pos h

/-- A write outside the window is an AddressError over what the failing write leaves. -/
theorem busWrite_of_not_inWindow (h : inWindow s.cfg a n = false) :
    busWrite s a n v = .error (failedWrite s a n v) := if_neg (by simp [h])

/-- A byte after a failing write (R49): the old byte, or the new byte of one of its in-window targets. -/
theorem byteAt_failedWrite (s : State) (a v : Word) (n b : Nat) :
    (failedWrite s a n v).byteAt b = s.byteAt b ∨
      ∃ j < n, b = (a + BitVec.ofNat 64 j).toNat ∧ inWindow s.cfg (a + BitVec.ofNat 64 j) 1 = true ∧
        (failedWrite s a n v).byteAt b = v.extractLsb' (8 * j) 8 := by
  rcases read_failedBytes (c := s.cfg) (draw := Config.writeFailBytes s.draws) (a := a) (v := v) s.mem 0 n b with
    h | ⟨j, -, h2, h3, h4, h5⟩
  · exact .inl h
  · exact .inr ⟨j, by omega, h3, h4, h5⟩

/-! ### What a completed instruction answers -/

theorem writeBack_eq (rd : RegIdx) (v : Word) (s : State) : writeBack rd v s = .next (s.setX rd v).sequential := rfl

theorem linkAndJump_eq (rd : RegIdx) (link t : Word) (s : State) :
    linkAndJump rd link t s = .next ((s.setX rd link).transfer t) := rfl

theorem branchIf_eq (cond : Bool) (t : Word) (s : State) :
    branchIf cond t s = .next (if cond then s.transfer t else s.sequential) := rfl

theorem raiseHalt_eq (r : HaltReason) (s : State) : raiseHalt r s = .next (s.halt r) := rfl

/-- All a load can answer (spec/42_loads_stores.md R161): the extended value in rd, or the halt ReadFailed. -/
theorem load_eq (n : Nat) (ext : BitVec (8 * n) → Word) (rd rs1 : RegIdx) (imm : Word) (s : State) :
    load n ext rd rs1 imm s =
      if inWindow s.cfg (effectiveAddress s rs1 imm) n then
        .next (s.setX rd (ext (BitVec.ofNat (8 * n)
          (Memory.readLE s.mem (effectiveAddress s rs1 imm).toNat n)))).sequential
      else .next (s.halt (.readFailed (effectiveAddress s rs1 imm))) := by
  unfold load
  cases hw : inWindow s.cfg (effectiveAddress s rs1 imm) n
  · rw [busRead_of_not_inWindow hw]
    rfl
  · rw [busRead_of_inWindow hw]
    rfl

/-- All a store can answer (spec/42_loads_stores.md R169): the bytes written, or the halt WriteFailed over a failed write. -/
theorem store_eq (n : Nat) (rs1 rs2 : RegIdx) (imm : Word) (s : State) :
    store n rs1 rs2 imm s =
      if inWindow s.cfg (effectiveAddress s rs1 imm) n then
        .next (State.sequential
          { s with mem := Memory.writeLE s.mem (effectiveAddress s rs1 imm).toNat n (s.x rs2) })
      else
        .next ((failedWrite s (effectiveAddress s rs1 imm) n (s.x rs2)).halt
          (.writeFailed (effectiveAddress s rs1 imm))) := by
  unfold store
  cases hw : inWindow s.cfg (effectiveAddress s rs1 imm) n
  · rw [busWrite_of_not_inWindow hw]
    rfl
  · rw [busWrite_of_inWindow hw]
    rfl

end Sys2Proof.Machine
end

