-- ==== Sys2Proof/Laws/Outcomes.lean ====
section
/-!
SUPPORT. What each shared operation answers, said in the terms of Safety.lean, and what the fetch stage of a step does, once:
the per-instruction statements and the whole-machine ones cite these.
-/

namespace Sys2Proof.Machine

variable {s : State}

/-! ### Completed instructions -/

/-- A write-back completes: rd reads the value, pc is pc + 4, nothing else changes. -/
theorem writes_writeBack (rd : RegIdx) (v : Word) (s : State) : Writes (writeBack rd v s) s rd v (s.pc + 4) := by
  refine ⟨_, rfl, fun i => ?_, ?_, fun a => ?_, ?_⟩
  · rw [State.sequential_x, State.x_setX]
  · rw [State.sequential_pc, State.setX_pc]
  · exact State.byteAt_congr (by rw [State.sequential_mem, State.setX_mem]) a
  · exact ⟨by simp, by simp, by simp, by simp⟩

/-- A jump completes: rd reads the link, pc is the target itself, nothing else changes. -/
theorem writes_linkAndJump (rd : RegIdx) (link t : Word) (s : State) :
    Writes (linkAndJump rd link t s) s rd link t := by
  refine ⟨_, rfl, fun i => ?_, ?_, fun a => ?_, ?_⟩
  · rw [State.transfer_x, State.x_setX]
  · rw [State.transfer_pc]
  · exact State.byteAt_congr (by rw [State.transfer_mem, State.setX_mem]) a
  · exact ⟨by simp, by simp, by simp, by simp⟩

/-- Going on in sequence moves pc by 4 and changes nothing else. -/
theorem moves_sequential (s : State) : Moves (.next s.sequential) s (s.pc + 4) :=
  ⟨_, rfl, fun _ => rfl, rfl, fun _ => rfl, rfl, rfl, rfl, rfl⟩

/-- A branch moves pc to its target or by 4 and changes nothing else. -/
theorem moves_branchIf (cond : Bool) (t : Word) (s : State) :
    Moves (branchIf cond t s) s (if cond then t else s.pc + 4) := by
  cases cond
  · exact moves_sequential s
  · exact ⟨_, rfl, fun _ => rfl, State.transfer_pc s t, fun _ => rfl, rfl, rfl, rfl, rfl⟩

/-- The halt records its reason and changes nothing else. -/
theorem halts_raiseHalt (r : HaltReason) (s : State) : Halts (raiseHalt r s) s r :=
  ⟨_, rfl, rfl, rfl, rfl, fun _ => rfl, fun _ => rfl, rfl, rfl⟩

/-! ### Loads and stores -/

theorem leValue_succ (s : State) (a n : Nat) :
    leValue s a (n + 1) = (s.byteAt a).toNat + 256 * leValue s (a + 1) n := by
  unfold leValue
  rw [List.range_succ_eq_map, List.map_cons, List.sum_cons, List.map_map, ← List.sum_map_mul_left]
  simp only [Nat.add_zero, pow_zero, mul_one, Function.comp_def]
  congr 2
  apply List.map_congr_left
  intro k _
  rw [show a + k.succ = a + 1 + k by omega, pow_succ]
  ring

/-- The wide read of the store is the little-endian value of its bytes. -/
theorem readLE_eq_leValue (s : State) (a n : Nat) : Memory.readLE s.mem a n = leValue s a n := by
  induction n generalizing a with
  | zero => rfl
  | succ n ih =>
    rw [leValue_succ, ← ih]
    rfl

/-- A load inside the window completes with the extension of the little-endian value. -/
theorem writes_load {n : Nat} {ext : BitVec (8 * n) → Word} {rd rs1 : RegIdx} {imm : Word}
    (h : inWindow s.cfg (effectiveAddress s rs1 imm) n = true) :
    Writes (load n ext rd rs1 imm s) s rd
      (ext (BitVec.ofNat (8 * n) (leValue s (effectiveAddress s rs1 imm).toNat n))) (s.pc + 4) := by
  rw [load_eq, if_pos h, readLE_eq_leValue, ← writeBack_eq]
  exact writes_writeBack rd _ s

/-- A load outside the window halts with ReadFailed. -/
theorem halts_load {n : Nat} {ext : BitVec (8 * n) → Word} {rd rs1 : RegIdx} {imm : Word}
    (h : inWindow s.cfg (effectiveAddress s rs1 imm) n = false) :
    Halts (load n ext rd rs1 imm s) s (.readFailed (effectiveAddress s rs1 imm)) := by
  rw [load_eq, if_neg (by simp [h]), ← raiseHalt_eq]
  exact halts_raiseHalt _ s

/-- A load writes rd or halts with ReadFailed. -/
theorem load_cases (n : Nat) (ext : BitVec (8 * n) → Word) (rd rs1 : RegIdx) (imm : Word) (s : State) :
    (∃ v, load n ext rd rs1 imm s = writeBack rd v s) ∨ ∃ ea, load n ext rd rs1 imm s = raiseHalt (.readFailed ea) s := by
  rw [load_eq]
  split
  · exact .inl ⟨_, rfl⟩
  · exact .inr ⟨_, rfl⟩

/-- Byte k of a word as a number. -/
theorem extract_byte (v : Word) (k : Nat) : v.extractLsb' (8 * k) 8 = BitVec.ofNat 8 (v.toNat / 256 ^ k) := by
  apply BitVec.eq_of_toNat_eq
  rw [toNat_field, BitVec.toNat_ofNat, show (256 : Nat) = 2 ^ 8 by rfl, ← pow_mul]

/-- A store inside the window completes with its bytes written. -/
theorem stores_store {n : Nat} {rs1 rs2 : RegIdx} {imm : Word}
    (h : inWindow s.cfg (effectiveAddress s rs1 imm) n = true) :
    Stores (store n rs1 rs2 imm s) s (effectiveAddress s rs1 imm) n (s.x rs2) := by
  rw [store_eq, if_pos h]
  refine ⟨_, rfl, fun k hk => ?_, fun b hb => ?_, fun _ => rfl, rfl, rfl, rfl, rfl, rfl⟩
  · rw [State.byteAt_eq, State.sequential_mem, Memory.read_writeLE, if_pos (by omega), ← extract_byte]
    congr 2
    omega
  · rw [State.byteAt_eq, State.sequential_mem, Memory.read_writeLE, if_neg (by omega)]
    rfl

/-- A store outside the window halts with WriteFailed over bytes that may remain. -/
theorem storeFails_store {n : Nat} {rs1 rs2 : RegIdx} {imm : Word}
    (h : inWindow s.cfg (effectiveAddress s rs1 imm) n = false) :
    StoreFails (store n rs1 rs2 imm s) s (effectiveAddress s rs1 imm) n (s.x rs2) := by
  rw [store_eq, if_neg (by simp [h])]
  refine ⟨_, rfl, rfl, rfl, rfl, fun _ => rfl, rfl, fun b => ?_⟩
  rcases byteAt_failedWrite s (effectiveAddress s rs1 imm) (s.x rs2) n b with h | ⟨j, hj, hb, hw, h⟩
  · exact .inl h
  · have hw := inWindow_iff.1 hw
    rw [← hb] at hw
    refine .inr ⟨j, hj, ?_, hw.1, by omega, ?_⟩
    · rw [hb, BitVec.toNat_add, BitVec.toNat_ofNat, Nat.add_mod_mod]
    · rw [← extract_byte]
      exact h

/-! ### Every instruction -/

/-- All an instruction can do, once: write a register and go on in sequence; link and jump; branch; go on in sequence;
store; or halt, as a failed load or as an instruction that never executes. -/
theorem exec_cases (i : Instr) (s : State) :
    (∃ rd v, i.dest? = some rd ∧ i.isStore = false ∧ i.isTransfer = false ∧ exec i s = writeBack rd v s) ∨
    (∃ rd v t, i.dest? = some rd ∧ i.isStore = false ∧ i.isTransfer = true ∧ exec i s = linkAndJump rd v t s) ∨
    (∃ c t, i.isStore = false ∧ i.isTransfer = true ∧ exec i s = branchIf c t s) ∨
    (i.isStore = false ∧ i.isTransfer = false ∧ exec i s = .next s.sequential) ∨
    (∃ rs1 rs2 imm n, (i, n) ∈ [(Instr.sb rs1 rs2 imm, 1), (.sh rs1 rs2 imm, 2), (.sw rs1 rs2 imm, 4), (.sd rs1 rs2 imm, 8)] ∧
      i.isStore = true ∧ i.isTransfer = false ∧ exec i s = store n rs1 rs2 imm s) ∨
    (∃ ea, i.isStore = false ∧ i.isTransfer = false ∧ exec i s = raiseHalt (.readFailed ea) s) ∨
    (i.isStore = false ∧ i.isTransfer = false ∧ (∀ m, i.mnemonic? = some m → m ∈ Mnemonic.neverImplemented) ∧
      exec i s = raiseHalt (.notImplemented i) s) := by
  cases i with
  | add rd rs1 rs2 => exact .inl ⟨rd, _, rfl, rfl, rfl, rfl⟩
  | sub rd rs1 rs2 => exact .inl ⟨rd, _, rfl, rfl, rfl, rfl⟩
  | slt rd rs1 rs2 => exact .inl ⟨rd, _, rfl, rfl, rfl, rfl⟩
  | sltu rd rs1 rs2 => exact .inl ⟨rd, _, rfl, rfl, rfl, rfl⟩
  | xor rd rs1 rs2 => exact .inl ⟨rd, _, rfl, rfl, rfl, rfl⟩
  | or rd rs1 rs2 => exact .inl ⟨rd, _, rfl, rfl, rfl, rfl⟩
  | and rd rs1 rs2 => exact .inl ⟨rd, _, rfl, rfl, rfl, rfl⟩
  | addi rd rs1 imm => exact .inl ⟨rd, _, rfl, rfl, rfl, rfl⟩
  | slti rd rs1 imm => exact .inl ⟨rd, _, rfl, rfl, rfl, rfl⟩
  | sltiu rd rs1 imm => exact .inl ⟨rd, _, rfl, rfl, rfl, rfl⟩
  | xori rd rs1 imm => exact .inl ⟨rd, _, rfl, rfl, rfl, rfl⟩
  | ori rd rs1 imm => exact .inl ⟨rd, _, rfl, rfl, rfl, rfl⟩
  | andi rd rs1 imm => exact .inl ⟨rd, _, rfl, rfl, rfl, rfl⟩
  | lui rd imm => exact .inl ⟨rd, _, rfl, rfl, rfl, rfl⟩
  | auipc rd imm => exact .inl ⟨rd, _, rfl, rfl, rfl, rfl⟩
  | lb rd rs1 imm =>
    obtain ⟨v, h⟩ | ⟨ea, h⟩ := load_cases 1 sextWord rd rs1 imm s
    · exact .inl ⟨rd, v, rfl, rfl, rfl, h⟩
    · exact .inr (.inr (.inr (.inr (.inr (.inl ⟨ea, rfl, rfl, h⟩)))))
  | lh rd rs1 imm =>
    obtain ⟨v, h⟩ | ⟨ea, h⟩ := load_cases 2 sextWord rd rs1 imm s
    · exact .inl ⟨rd, v, rfl, rfl, rfl, h⟩
    · exact .inr (.inr (.inr (.inr (.inr (.inl ⟨ea, rfl, rfl, h⟩)))))
  | lw rd rs1 imm =>
    obtain ⟨v, h⟩ | ⟨ea, h⟩ := load_cases 4 sextWord rd rs1 imm s
    · exact .inl ⟨rd, v, rfl, rfl, rfl, h⟩
    · exact .inr (.inr (.inr (.inr (.inr (.inl ⟨ea, rfl, rfl, h⟩)))))
  | ld rd rs1 imm =>
    obtain ⟨v, h⟩ | ⟨ea, h⟩ := load_cases 8 zextWord rd rs1 imm s
    · exact .inl ⟨rd, v, rfl, rfl, rfl, h⟩
    · exact .inr (.inr (.inr (.inr (.inr (.inl ⟨ea, rfl, rfl, h⟩)))))
  | lbu rd rs1 imm =>
    obtain ⟨v, h⟩ | ⟨ea, h⟩ := load_cases 1 zextWord rd rs1 imm s
    · exact .inl ⟨rd, v, rfl, rfl, rfl, h⟩
    · exact .inr (.inr (.inr (.inr (.inr (.inl ⟨ea, rfl, rfl, h⟩)))))
  | lhu rd rs1 imm =>
    obtain ⟨v, h⟩ | ⟨ea, h⟩ := load_cases 2 zextWord rd rs1 imm s
    · exact .inl ⟨rd, v, rfl, rfl, rfl, h⟩
    · exact .inr (.inr (.inr (.inr (.inr (.inl ⟨ea, rfl, rfl, h⟩)))))
  | lwu rd rs1 imm =>
    obtain ⟨v, h⟩ | ⟨ea, h⟩ := load_cases 4 zextWord rd rs1 imm s
    · exact .inl ⟨rd, v, rfl, rfl, rfl, h⟩
    · exact .inr (.inr (.inr (.inr (.inr (.inl ⟨ea, rfl, rfl, h⟩)))))
  | sb rs1 rs2 imm => exact .inr (.inr (.inr (.inr (.inl ⟨rs1, rs2, imm, _, by simp, rfl, rfl, rfl⟩))))
  | sh rs1 rs2 imm => exact .inr (.inr (.inr (.inr (.inl ⟨rs1, rs2, imm, _, by simp, rfl, rfl, rfl⟩))))
  | sw rs1 rs2 imm => exact .inr (.inr (.inr (.inr (.inl ⟨rs1, rs2, imm, _, by simp, rfl, rfl, rfl⟩))))
  | sd rs1 rs2 imm => exact .inr (.inr (.inr (.inr (.inl ⟨rs1, rs2, imm, _, by simp, rfl, rfl, rfl⟩))))
  | jal rd imm => exact .inr (.inl ⟨rd, _, _, rfl, rfl, rfl, rfl⟩)
  | jalr rd rs1 imm => exact .inr (.inl ⟨rd, _, _, rfl, rfl, rfl, rfl⟩)
  | beq rs1 rs2 imm => exact .inr (.inr (.inl ⟨_, _, rfl, rfl, rfl⟩))
  | bne rs1 rs2 imm => exact .inr (.inr (.inl ⟨_, _, rfl, rfl, rfl⟩))
  | blt rs1 rs2 imm => exact .inr (.inr (.inl ⟨_, _, rfl, rfl, rfl⟩))
  | bge rs1 rs2 imm => exact .inr (.inr (.inl ⟨_, _, rfl, rfl, rfl⟩))
  | bltu rs1 rs2 imm => exact .inr (.inr (.inl ⟨_, _, rfl, rfl, rfl⟩))
  | bgeu rs1 rs2 imm => exact .inr (.inr (.inl ⟨_, _, rfl, rfl, rfl⟩))
  | sll rd rs1 rs2 => exact .inl ⟨rd, _, rfl, rfl, rfl, rfl⟩
  | srl rd rs1 rs2 => exact .inl ⟨rd, _, rfl, rfl, rfl, rfl⟩
  | sra rd rs1 rs2 => exact .inl ⟨rd, _, rfl, rfl, rfl, rfl⟩
  | slli rd rs1 shamt => exact .inl ⟨rd, _, rfl, rfl, rfl, rfl⟩
  | srli rd rs1 shamt => exact .inl ⟨rd, _, rfl, rfl, rfl, rfl⟩
  | srai rd rs1 shamt => exact .inl ⟨rd, _, rfl, rfl, rfl, rfl⟩
  | addiw rd rs1 imm => exact .inl ⟨rd, _, rfl, rfl, rfl, rfl⟩
  | slliw rd rs1 shamt => exact .inl ⟨rd, _, rfl, rfl, rfl, rfl⟩
  | srliw rd rs1 shamt => exact .inl ⟨rd, _, rfl, rfl, rfl, rfl⟩
  | sraiw rd rs1 shamt => exact .inl ⟨rd, _, rfl, rfl, rfl, rfl⟩
  | addw rd rs1 rs2 => exact .inl ⟨rd, _, rfl, rfl, rfl, rfl⟩
  | subw rd rs1 rs2 => exact .inl ⟨rd, _, rfl, rfl, rfl, rfl⟩
  | sllw rd rs1 rs2 => exact .inl ⟨rd, _, rfl, rfl, rfl, rfl⟩
  | srlw rd rs1 rs2 => exact .inl ⟨rd, _, rfl, rfl, rfl, rfl⟩
  | sraw rd rs1 rs2 => exact .inl ⟨rd, _, rfl, rfl, rfl, rfl⟩
  | mul rd rs1 rs2 => exact .inl ⟨rd, _, rfl, rfl, rfl, rfl⟩
  | mulh rd rs1 rs2 => exact .inl ⟨rd, _, rfl, rfl, rfl, rfl⟩
  | mulhsu rd rs1 rs2 => exact .inl ⟨rd, _, rfl, rfl, rfl, rfl⟩
  | mulhu rd rs1 rs2 => exact .inl ⟨rd, _, rfl, rfl, rfl, rfl⟩
  | div rd rs1 rs2 => exact .inl ⟨rd, _, rfl, rfl, rfl, rfl⟩
  | divu rd rs1 rs2 => exact .inl ⟨rd, _, rfl, rfl, rfl, rfl⟩
  | rem rd rs1 rs2 => exact .inl ⟨rd, _, rfl, rfl, rfl, rfl⟩
  | remu rd rs1 rs2 => exact .inl ⟨rd, _, rfl, rfl, rfl, rfl⟩
  | mulw rd rs1 rs2 => exact .inl ⟨rd, _, rfl, rfl, rfl, rfl⟩
  | divw rd rs1 rs2 => exact .inl ⟨rd, _, rfl, rfl, rfl, rfl⟩
  | divuw rd rs1 rs2 => exact .inl ⟨rd, _, rfl, rfl, rfl, rfl⟩
  | remw rd rs1 rs2 => exact .inl ⟨rd, _, rfl, rfl, rfl, rfl⟩
  | remuw rd rs1 rs2 => exact .inl ⟨rd, _, rfl, rfl, rfl, rfl⟩
  | fence => exact .inr (.inr (.inr (.inl ⟨rfl, rfl, rfl⟩)))
  | fenceI => exact .inr (.inr (.inr (.inl ⟨rfl, rfl, rfl⟩)))
  | ecall => exact .inr (.inr (.inr (.inr (.inr (.inr ⟨rfl, rfl, fun _ h => Option.some.inj h ▸ by decide, rfl⟩)))))
  | ebreak => exact .inr (.inr (.inr (.inr (.inr (.inr ⟨rfl, rfl, fun _ h => Option.some.inj h ▸ by decide, rfl⟩)))))
  | csrrw rd rs1 imm => exact .inr (.inr (.inr (.inr (.inr (.inr ⟨rfl, rfl, fun _ h => Option.some.inj h ▸ by decide, rfl⟩)))))
  | csrrs rd rs1 imm => exact .inr (.inr (.inr (.inr (.inr (.inr ⟨rfl, rfl, fun _ h => Option.some.inj h ▸ by decide, rfl⟩)))))
  | csrrc rd rs1 imm => exact .inr (.inr (.inr (.inr (.inr (.inr ⟨rfl, rfl, fun _ h => Option.some.inj h ▸ by decide, rfl⟩)))))
  | csrrwi rd rs1 imm => exact .inr (.inr (.inr (.inr (.inr (.inr ⟨rfl, rfl, fun _ h => Option.some.inj h ▸ by decide, rfl⟩)))))
  | csrrsi rd rs1 imm => exact .inr (.inr (.inr (.inr (.inr (.inr ⟨rfl, rfl, fun _ h => Option.some.inj h ▸ by decide, rfl⟩)))))
  | csrrci rd rs1 imm => exact .inr (.inr (.inr (.inr (.inr (.inr ⟨rfl, rfl, fun _ h => Option.some.inj h ▸ by decide, rfl⟩)))))
  | unknown word => exact .inr (.inr (.inr (.inr (.inr (.inr ⟨rfl, rfl, fun _ h => (nomatch h), rfl⟩)))))

/-! ### Fetch, decode and the gate -/

/-- The four bytes of a fetch are the word the bus reads. -/
theorem busRead_four (h : inWindow s.cfg s.pc 4 = true) :
    busRead s s.pc 4 = some (wordOfBytes (s.byteAt s.pc.toNat) (s.byteAt (s.pc.toNat + 1)) (s.byteAt (s.pc.toNat + 2))
      (s.byteAt (s.pc.toNat + 3))) := by
  rw [busRead_of_inWindow h]
  congr 1
  apply BitVec.eq_of_toNat_eq
  rw [wordOfBytes_toNat, BitVec.toNat_ofNat, Nat.mod_eq_of_lt (Memory.readLE_lt s.mem s.pc.toNat 4)]
  simp only [Memory.readLE, State.byteAt_eq, Nat.add_assoc, Nat.reduceAdd]
  omega

/-- What the fetch stage does, once: an error of the fetch, or the instruction its four bytes decode to. -/
theorem fetch_cases (s : State) :
    (s.cfg.misalignedPc = .halt ∧ s.pc.toNat % 4 ≠ 0 ∧ fetch s = .error (.fetchError .misaligned s.pc)) ∨
    (¬(s.cfg.misalignedPc = .halt ∧ s.pc.toNat % 4 ≠ 0) ∧ inWindow s.cfg s.pc 4 = false ∧
      fetch s = .error (.fetchError .unmapped s.pc)) ∨
    ∃ w, fetch s = .ok w ∧ Fetches s (decode w) := by
  unfold fetch
  by_cases hm : s.cfg.misalignedPc = .halt ∧ s.pc.toNat % 4 ≠ 0
  · rw [if_pos hm]
    exact .inl ⟨hm.1, hm.2, rfl⟩
  · rw [if_neg hm]
    cases hw : inWindow s.cfg s.pc 4
    · rw [busRead_of_not_inWindow hw]
      exact .inr (.inl ⟨hm, rfl, rfl⟩)
    · rw [busRead_four hw]
      have hb := inWindow_iff.1 hw
      exact .inr (.inr ⟨_, rfl, hm, hb.1, hb.2, rfl⟩)

/-- Where the step fetches i, the fetch stage gives a word that decodes to i. -/
theorem fetch_of_fetches {i : Instr} (h : Fetches s i) : ∃ w, fetch s = .ok w ∧ decode w = i := by
  obtain ⟨hm, hb, hs, hd⟩ := h
  have hw : inWindow s.cfg s.pc 4 = true := inWindow_iff.2 ⟨hb, hs⟩
  refine ⟨wordOfBytes (s.byteAt s.pc.toNat) (s.byteAt (s.pc.toNat + 1)) (s.byteAt (s.pc.toNat + 2))
    (s.byteAt (s.pc.toNat + 3)), ?_, ?_⟩
  · rw [fetch, if_neg hm, busRead_four hw]
  · simpa [decodeBytes] using hd

/-- What a running step does once it fetches i: the gate's halt, or i executes. -/
theorem step_of_fetches {i : Instr} (hr : s.running = true) (h : Fetches s i) :
    step s = if mayExecute s.cfg i then exec i s else raiseHalt (.notImplemented i) s := by
  obtain ⟨w, hf, rfl⟩ := fetch_of_fetches h
  unfold step fetchDecode
  rw [if_pos hr, hf]
  cases hg : mayExecute s.cfg (decode w) <;> simp [hg]

/-- All a step can do, once: nothing when halted; the halt of a failed fetch; the gate's halt; or the instruction fetched
executes. -/
theorem step_cases (s : State) :
    (s.running = false ∧ step s = .next s) ∨
    (s.running = true ∧ ∃ c, step s = raiseHalt (.fetchError c s.pc) s) ∨
    (s.running = true ∧ ∃ i, Fetches s i ∧ mayExecute s.cfg i = false ∧ step s = raiseHalt (.notImplemented i) s) ∨
    (s.running = true ∧ ∃ i, Fetches s i ∧ mayExecute s.cfg i = true ∧ step s = exec i s) := by
  cases hr : s.running
  · exact .inl ⟨rfl, by unfold step; rw [hr]; rfl⟩
  · refine .inr ?_
    rcases fetch_cases s with ⟨-, -, h⟩ | ⟨-, -, h⟩ | ⟨w, -, h⟩
    · exact .inl ⟨rfl, .misaligned, by unfold step fetchDecode; rw [if_pos hr, h]⟩
    · exact .inl ⟨rfl, .unmapped, by unfold step fetchDecode; rw [if_pos hr, h]⟩
    · have hs := step_of_fetches hr h
      cases hg : mayExecute s.cfg (decode w) <;> rw [hg] at hs
      · exact .inr (.inl ⟨rfl, _, h, hg, hs⟩)
      · exact .inr (.inr ⟨rfl, _, h, hg, hs⟩)

/-! ### Runs of the host's core -/

/-- A run of one more step goes on from what the first step answers. -/
theorem run_succ {t : State} (h : step s = .next t) (k : Nat) : Host.Core.run core (k + 1) s = Host.Core.run core k t := by
  simp only [Host.Core.run, show core.step s = .next t from h]

end Sys2Proof.Machine
end

