-- ==== Sys2Proof/Laws/PerInstr.lean ====
section
/-!
SUPPORT. Per-instruction families. EncodingRow: the encoder puts every instruction into its own row of the opcode table
(spec/30_encoding.md R92).
-/

namespace Sys2Proof.Laws.EncodingRow

open Sys2Proof

/-- The word of an instruction matches the row of its mnemonic. -/
def Statement (i : Instr) : Prop := ∀ m, i.mnemonic? = some m → m.matchesWord (encode i) = true

theorem of_row {i : Instr} {m : Mnemonic} (hi : i.mnemonic? = some m) (h : encode i &&& m.mask = m.matchBits) :
    Statement i := by
  intro m' hm'
  rw [hi] at hm'
  rw [← Option.some.inj hm', Mnemonic.matchesWord, h]
  exact beq_self_eq_true _

theorem add (rd rs1 rs2 : RegIdx) : Statement (.add rd rs1 rs2) :=
  of_row (m := .add) rfl (encodeR_and_maskR ..)

theorem sub (rd rs1 rs2 : RegIdx) : Statement (.sub rd rs1 rs2) :=
  of_row (m := .sub) rfl (encodeR_and_maskR ..)

theorem slt (rd rs1 rs2 : RegIdx) : Statement (.slt rd rs1 rs2) :=
  of_row (m := .slt) rfl (encodeR_and_maskR ..)

theorem sltu (rd rs1 rs2 : RegIdx) : Statement (.sltu rd rs1 rs2) :=
  of_row (m := .sltu) rfl (encodeR_and_maskR ..)

theorem xor (rd rs1 rs2 : RegIdx) : Statement (.xor rd rs1 rs2) :=
  of_row (m := .xor) rfl (encodeR_and_maskR ..)

theorem or (rd rs1 rs2 : RegIdx) : Statement (.or rd rs1 rs2) :=
  of_row (m := .or) rfl (encodeR_and_maskR ..)

theorem and (rd rs1 rs2 : RegIdx) : Statement (.and rd rs1 rs2) :=
  of_row (m := .and) rfl (encodeR_and_maskR ..)

theorem addi (rd rs1 : RegIdx) (imm : Word) : Statement (.addi rd rs1 imm) :=
  of_row (m := .addi) rfl (encodeI_and_mask ..)

theorem slti (rd rs1 : RegIdx) (imm : Word) : Statement (.slti rd rs1 imm) :=
  of_row (m := .slti) rfl (encodeI_and_mask ..)

theorem sltiu (rd rs1 : RegIdx) (imm : Word) : Statement (.sltiu rd rs1 imm) :=
  of_row (m := .sltiu) rfl (encodeI_and_mask ..)

theorem xori (rd rs1 : RegIdx) (imm : Word) : Statement (.xori rd rs1 imm) :=
  of_row (m := .xori) rfl (encodeI_and_mask ..)

theorem ori (rd rs1 : RegIdx) (imm : Word) : Statement (.ori rd rs1 imm) :=
  of_row (m := .ori) rfl (encodeI_and_mask ..)

theorem andi (rd rs1 : RegIdx) (imm : Word) : Statement (.andi rd rs1 imm) :=
  of_row (m := .andi) rfl (encodeI_and_mask ..)

theorem lui (rd : RegIdx) (imm : Word) : Statement (.lui rd imm) :=
  of_row (m := .lui) rfl (encodeU_and_mask ..)

theorem auipc (rd : RegIdx) (imm : Word) : Statement (.auipc rd imm) :=
  of_row (m := .auipc) rfl (encodeU_and_mask ..)

theorem lb (rd rs1 : RegIdx) (imm : Word) : Statement (.lb rd rs1 imm) :=
  of_row (m := .lb) rfl (encodeI_and_mask ..)

theorem lh (rd rs1 : RegIdx) (imm : Word) : Statement (.lh rd rs1 imm) :=
  of_row (m := .lh) rfl (encodeI_and_mask ..)

theorem lw (rd rs1 : RegIdx) (imm : Word) : Statement (.lw rd rs1 imm) :=
  of_row (m := .lw) rfl (encodeI_and_mask ..)

theorem ld (rd rs1 : RegIdx) (imm : Word) : Statement (.ld rd rs1 imm) :=
  of_row (m := .ld) rfl (encodeI_and_mask ..)

theorem lbu (rd rs1 : RegIdx) (imm : Word) : Statement (.lbu rd rs1 imm) :=
  of_row (m := .lbu) rfl (encodeI_and_mask ..)

theorem lhu (rd rs1 : RegIdx) (imm : Word) : Statement (.lhu rd rs1 imm) :=
  of_row (m := .lhu) rfl (encodeI_and_mask ..)

theorem lwu (rd rs1 : RegIdx) (imm : Word) : Statement (.lwu rd rs1 imm) :=
  of_row (m := .lwu) rfl (encodeI_and_mask ..)

theorem sb (rs1 rs2 : RegIdx) (imm : Word) : Statement (.sb rs1 rs2 imm) :=
  of_row (m := .sb) rfl (encodeS_and_mask ..)

theorem sh (rs1 rs2 : RegIdx) (imm : Word) : Statement (.sh rs1 rs2 imm) :=
  of_row (m := .sh) rfl (encodeS_and_mask ..)

theorem sw (rs1 rs2 : RegIdx) (imm : Word) : Statement (.sw rs1 rs2 imm) :=
  of_row (m := .sw) rfl (encodeS_and_mask ..)

theorem sd (rs1 rs2 : RegIdx) (imm : Word) : Statement (.sd rs1 rs2 imm) :=
  of_row (m := .sd) rfl (encodeS_and_mask ..)

theorem jal (rd : RegIdx) (imm : Word) : Statement (.jal rd imm) :=
  of_row (m := .jal) rfl (encodeJ_and_mask ..)

theorem jalr (rd rs1 : RegIdx) (imm : Word) : Statement (.jalr rd rs1 imm) :=
  of_row (m := .jalr) rfl (encodeI_and_mask ..)

theorem beq (rs1 rs2 : RegIdx) (imm : Word) : Statement (.beq rs1 rs2 imm) :=
  of_row (m := .beq) rfl (encodeB_and_mask ..)

theorem bne (rs1 rs2 : RegIdx) (imm : Word) : Statement (.bne rs1 rs2 imm) :=
  of_row (m := .bne) rfl (encodeB_and_mask ..)

theorem blt (rs1 rs2 : RegIdx) (imm : Word) : Statement (.blt rs1 rs2 imm) :=
  of_row (m := .blt) rfl (encodeB_and_mask ..)

theorem bge (rs1 rs2 : RegIdx) (imm : Word) : Statement (.bge rs1 rs2 imm) :=
  of_row (m := .bge) rfl (encodeB_and_mask ..)

theorem bltu (rs1 rs2 : RegIdx) (imm : Word) : Statement (.bltu rs1 rs2 imm) :=
  of_row (m := .bltu) rfl (encodeB_and_mask ..)

theorem bgeu (rs1 rs2 : RegIdx) (imm : Word) : Statement (.bgeu rs1 rs2 imm) :=
  of_row (m := .bgeu) rfl (encodeB_and_mask ..)

theorem sll (rd rs1 rs2 : RegIdx) : Statement (.sll rd rs1 rs2) :=
  of_row (m := .sll) rfl (encodeR_and_maskR ..)

theorem srl (rd rs1 rs2 : RegIdx) : Statement (.srl rd rs1 rs2) :=
  of_row (m := .srl) rfl (encodeR_and_maskR ..)

theorem sra (rd rs1 rs2 : RegIdx) : Statement (.sra rd rs1 rs2) :=
  of_row (m := .sra) rfl (encodeR_and_maskR ..)

theorem slli (rd rs1 : RegIdx) (shamt : BitVec 6) : Statement (.slli rd rs1 shamt) :=
  of_row (m := .slli) rfl (encodeShift64_and_mask ..)

theorem srli (rd rs1 : RegIdx) (shamt : BitVec 6) : Statement (.srli rd rs1 shamt) :=
  of_row (m := .srli) rfl (encodeShift64_and_mask ..)

theorem srai (rd rs1 : RegIdx) (shamt : BitVec 6) : Statement (.srai rd rs1 shamt) :=
  of_row (m := .srai) rfl (encodeShift64_and_mask ..)

theorem addiw (rd rs1 : RegIdx) (imm : Word) : Statement (.addiw rd rs1 imm) :=
  of_row (m := .addiw) rfl (encodeI_and_mask ..)

theorem slliw (rd rs1 : RegIdx) (shamt : BitVec 5) : Statement (.slliw rd rs1 shamt) :=
  of_row (m := .slliw) rfl (encodeR_and_maskR ..)

theorem srliw (rd rs1 : RegIdx) (shamt : BitVec 5) : Statement (.srliw rd rs1 shamt) :=
  of_row (m := .srliw) rfl (encodeR_and_maskR ..)

theorem sraiw (rd rs1 : RegIdx) (shamt : BitVec 5) : Statement (.sraiw rd rs1 shamt) :=
  of_row (m := .sraiw) rfl (encodeR_and_maskR ..)

theorem addw (rd rs1 rs2 : RegIdx) : Statement (.addw rd rs1 rs2) :=
  of_row (m := .addw) rfl (encodeR_and_maskR ..)

theorem subw (rd rs1 rs2 : RegIdx) : Statement (.subw rd rs1 rs2) :=
  of_row (m := .subw) rfl (encodeR_and_maskR ..)

theorem sllw (rd rs1 rs2 : RegIdx) : Statement (.sllw rd rs1 rs2) :=
  of_row (m := .sllw) rfl (encodeR_and_maskR ..)

theorem srlw (rd rs1 rs2 : RegIdx) : Statement (.srlw rd rs1 rs2) :=
  of_row (m := .srlw) rfl (encodeR_and_maskR ..)

theorem sraw (rd rs1 rs2 : RegIdx) : Statement (.sraw rd rs1 rs2) :=
  of_row (m := .sraw) rfl (encodeR_and_maskR ..)

theorem mul (rd rs1 rs2 : RegIdx) : Statement (.mul rd rs1 rs2) :=
  of_row (m := .mul) rfl (encodeR_and_maskR ..)

theorem mulh (rd rs1 rs2 : RegIdx) : Statement (.mulh rd rs1 rs2) :=
  of_row (m := .mulh) rfl (encodeR_and_maskR ..)

theorem mulhsu (rd rs1 rs2 : RegIdx) : Statement (.mulhsu rd rs1 rs2) :=
  of_row (m := .mulhsu) rfl (encodeR_and_maskR ..)

theorem mulhu (rd rs1 rs2 : RegIdx) : Statement (.mulhu rd rs1 rs2) :=
  of_row (m := .mulhu) rfl (encodeR_and_maskR ..)

theorem div (rd rs1 rs2 : RegIdx) : Statement (.div rd rs1 rs2) :=
  of_row (m := .div) rfl (encodeR_and_maskR ..)

theorem divu (rd rs1 rs2 : RegIdx) : Statement (.divu rd rs1 rs2) :=
  of_row (m := .divu) rfl (encodeR_and_maskR ..)

theorem rem (rd rs1 rs2 : RegIdx) : Statement (.rem rd rs1 rs2) :=
  of_row (m := .rem) rfl (encodeR_and_maskR ..)

theorem remu (rd rs1 rs2 : RegIdx) : Statement (.remu rd rs1 rs2) :=
  of_row (m := .remu) rfl (encodeR_and_maskR ..)

theorem mulw (rd rs1 rs2 : RegIdx) : Statement (.mulw rd rs1 rs2) :=
  of_row (m := .mulw) rfl (encodeR_and_maskR ..)

theorem divw (rd rs1 rs2 : RegIdx) : Statement (.divw rd rs1 rs2) :=
  of_row (m := .divw) rfl (encodeR_and_maskR ..)

theorem divuw (rd rs1 rs2 : RegIdx) : Statement (.divuw rd rs1 rs2) :=
  of_row (m := .divuw) rfl (encodeR_and_maskR ..)

theorem remw (rd rs1 rs2 : RegIdx) : Statement (.remw rd rs1 rs2) :=
  of_row (m := .remw) rfl (encodeR_and_maskR ..)

theorem remuw (rd rs1 rs2 : RegIdx) : Statement (.remuw rd rs1 rs2) :=
  of_row (m := .remuw) rfl (encodeR_and_maskR ..)

theorem fence : Statement .fence :=
  of_row (m := .fence) rfl (by decide)

theorem fenceI : Statement .fenceI :=
  of_row (m := .fenceI) rfl (by decide)

theorem ecall : Statement .ecall :=
  of_row (m := .ecall) rfl (by decide)

theorem ebreak : Statement .ebreak :=
  of_row (m := .ebreak) rfl (by decide)

theorem csrrw (rd rs1 : RegIdx) (imm : Word) : Statement (.csrrw rd rs1 imm) :=
  of_row (m := .csrrw) rfl (encodeI_and_mask ..)

theorem csrrs (rd rs1 : RegIdx) (imm : Word) : Statement (.csrrs rd rs1 imm) :=
  of_row (m := .csrrs) rfl (encodeI_and_mask ..)

theorem csrrc (rd rs1 : RegIdx) (imm : Word) : Statement (.csrrc rd rs1 imm) :=
  of_row (m := .csrrc) rfl (encodeI_and_mask ..)

theorem csrrwi (rd rs1 : RegIdx) (imm : Word) : Statement (.csrrwi rd rs1 imm) :=
  of_row (m := .csrrwi) rfl (encodeI_and_mask ..)

theorem csrrsi (rd rs1 : RegIdx) (imm : Word) : Statement (.csrrsi rd rs1 imm) :=
  of_row (m := .csrrsi) rfl (encodeI_and_mask ..)

theorem csrrci (rd rs1 : RegIdx) (imm : Word) : Statement (.csrrci rd rs1 imm) :=
  of_row (m := .csrrci) rfl (encodeI_and_mask ..)

theorem unknown (word : InstrWord) : Statement (.unknown word) := by
  intro m h
  cases h

end Sys2Proof.Laws.EncodingRow
end

