-- ==== Sys2Proof/Tests/Slice0.lean ====
section
/-!
SUPPORT. Tests. Expected values come from spec/95_test_vectors.md, from the opcode table of spec/30_encoding.md R92 and from the
immediate layouts of R63 to R67; the witnesses meet the hypotheses of the statements in Certificates/Slice0/Obligations.lean.
-/

namespace Sys2Proof.Tests

open Sys2Proof Sys2Proof.Machine

/-! ### Helpers -/

/-- A machine at BASE with one instruction word there, x1 and x2 given and x3 = 0xDEAD. -/
def start (cfg : Config) (w : Nat) (x1 x2 : Word) : State :=
  ((((State.init cfg (Vector.replicate 31 0) []).setX 1 x1).setX 2 x2).setX 3 0xDEAD).withFetchWord 32 w

/-- The same at P = BASE + 0x200, with x5 given too. -/
def startAt (w : Nat) (x1 x2 x5 : Word) : State :=
  (((({ State.reset with pc := 0x80000200 }.setX 1 x1).setX 2 x2).setX 3 0xDEAD).setX 5 x5).withFetchWord 32 w

/-- The eight bytes of section 4.1 at A = BASE + 0x100. -/
def withData (s : State) : State := { s with mem := Memory.writeLE s.mem 0x80000100 8 0x923456781234FF80 }

/-- The step completes, leaves v in register i and goes on at pc. -/
def sees (o : Result) (i : RegIdx) (v pc : Word) : Bool :=
  match o with
  | .next t => t.running && t.haltReason == none && t.x i == v && t.pc == pc
  | .fault _ => false
  | .refused _ => false

/-- The step halts with r; pc stays BASE, x3 stays 0xDEAD. -/
def haltsWith (o : Result) (r : HaltReason) : Bool :=
  match o with
  | .next t => !t.running && t.haltReason == some r && t.pc == 0x80000000 && t.x 3 == 0xDEAD
  | .fault _ => false
  | .refused _ => false

/-- The sixteen bytes from A - 8 after the step. -/
def bytesAfter (o : Result) : Option (List Byte) :=
  match o with
  | .next t => t.dumpMem 0x800000F8 16
  | .fault _ => none
  | .refused _ => none

/-! ### Ill-formed terms, refused by WellFormed (one for each check) -/

/-- 2048 is past the 12-bit range, in an I and in an S form; -2049 lies below it. -/
theorem test_ill_formed_imm12 :
    (Instr.addi 1 2 2048).wellFormed = false ∧ (Instr.sd 1 2 2048).wellFormed = false ∧
    (Instr.lb 1 2 (-2049)).wellFormed = false ∧ (Instr.csrrw 1 2 0xF14).wellFormed = false ∧
    (Instr.addi 1 2 2047).wellFormed = true ∧ (Instr.sd 1 2 (-2048)).wellFormed = true := by decide

/-- An odd offset, and 4096, in a B form. -/
theorem test_ill_formed_immB :
    (Instr.beq 1 2 7).wellFormed = false ∧ (Instr.bgeu 1 2 4096).wellFormed = false ∧
    (Instr.beq 1 2 4094).wellFormed = true ∧ (Instr.beq 1 2 (-4096)).wellFormed = true := by decide

/-- A value with low bits, and one that is not the sign extension of 32 bits, in a U form. -/
theorem test_ill_formed_immU :
    (Instr.lui 1 1).wellFormed = false ∧ (Instr.auipc 1 0x80000000).wellFormed = false ∧
    (Instr.lui 1 (-2147483648)).wellFormed = true := by decide

/-- An odd offset, and 2^20, in a J form. -/
theorem test_ill_formed_immJ :
    (Instr.jal 1 1).wellFormed = false ∧ (Instr.jal 1 1048576).wellFormed = false ∧
    (Instr.jal 1 1048574).wellFormed = true := by decide

/-- The word of ADD is no Unknown record. -/
theorem test_ill_formed_unknown :
    (Instr.unknown 0x002081B3).wellFormed = false ∧ (Instr.unknown 0x40001033).wellFormed = true := by decide

/-! ### Decoding: a word of every row, from section 2 to 8's assembly and the encodings of R92 -/

theorem test_decode_op :
    decode 0x002081B3 = .add 3 1 2 ∧ decode 0x402081B3 = .sub 3 1 2 ∧ decode 0x0020A1B3 = .slt 3 1 2 ∧
    decode 0x0020B1B3 = .sltu 3 1 2 ∧ decode 0x0020C1B3 = .xor 3 1 2 ∧ decode 0x0020E1B3 = .or 3 1 2 ∧
    decode 0x0020F1B3 = .and 3 1 2 ∧ decode 0x002091B3 = .sll 3 1 2 ∧ decode 0x0020D1B3 = .srl 3 1 2 ∧
    decode 0x4020D1B3 = .sra 3 1 2 := by decide

theorem test_decode_op_imm :
    decode 0x80000013 = .addi 0 0 (-2048) ∧ decode 0xFFC0A193 = .slti 3 1 (-4) ∧ decode 0xFFF0B193 = .sltiu 3 1 (-1) ∧
    decode 0x7FF0C193 = .xori 3 1 0x7FF ∧ decode 0x0FF0E193 = .ori 3 1 0xFF ∧ decode 0x0FF0F193 = .andi 3 1 0xFF ∧
    decode 0x03F09193 = .slli 3 1 63 ∧ decode 0x0200D193 = .srli 3 1 32 ∧ decode 0x4200D193 = .srai 3 1 32 := by decide

theorem test_decode_upper :
    decode 0x800002B7 = .lui 5 (-2147483648) ∧ decode 0xFFFFF2B7 = .lui 5 (-4096) ∧
    decode 0x00001297 = .auipc 5 4096 := by decide

theorem test_decode_loads :
    decode 0xFFF08183 = .lb 3 1 (-1) ∧ decode 0x00109183 = .lh 3 1 1 ∧ decode 0x0040A183 = .lw 3 1 4 ∧
    decode 0x0000B183 = .ld 3 1 0 ∧ decode 0x0000C183 = .lbu 3 1 0 ∧ decode 0x0000D183 = .lhu 3 1 0 ∧
    decode 0x0040E183 = .lwu 3 1 4 := by decide

theorem test_decode_stores :
    decode 0x80208023 = .sb 1 2 (-2048) ∧ decode 0x00209023 = .sh 1 2 0 ∧ decode 0x0020A0A3 = .sw 1 2 1 ∧
    decode 0x7E20BFA3 = .sd 1 2 2047 := by decide

theorem test_decode_jumps :
    decode 0x7FFFF06F = .jal 0 1048574 ∧ decode 0x8000006F = .jal 0 (-1048576) ∧ decode 0x0010006F = .jal 0 2048 ∧
    decode 0xE01FF06F = .jal 0 (-512) ∧ decode 0x004280E7 = .jalr 1 5 4 := by decide

theorem test_decode_branches :
    decode 0x000000E3 = .beq 0 0 2048 ∧ decode 0x80000063 = .beq 0 0 (-4096) ∧ decode 0x00209463 = .bne 1 2 8 ∧
    decode 0x0020C663 = .blt 1 2 12 ∧ decode 0xFE20DEE3 = .bge 1 2 (-4) ∧ decode 0x0020E863 = .bltu 1 2 16 ∧
    decode 0x7E20FFE3 = .bgeu 1 2 4094 := by decide

theorem test_decode_op_32 :
    decode 0x0010819B = .addiw 3 1 1 ∧ decode 0x01F0919B = .slliw 3 1 31 ∧ decode 0x0040D19B = .srliw 3 1 4 ∧
    decode 0x4040D19B = .sraiw 3 1 4 ∧ decode 0x002081BB = .addw 3 1 2 ∧ decode 0x402081BB = .subw 3 1 2 ∧
    decode 0x002091BB = .sllw 3 1 2 ∧ decode 0x0020D1BB = .srlw 3 1 2 ∧ decode 0x4020D1BB = .sraw 3 1 2 := by decide

theorem test_decode_muldiv :
    decode 0x022081B3 = .mul 3 1 2 ∧ decode 0x022091B3 = .mulh 3 1 2 ∧ decode 0x0220A1B3 = .mulhsu 3 1 2 ∧
    decode 0x0220B1B3 = .mulhu 3 1 2 ∧ decode 0x0220C1B3 = .div 3 1 2 ∧ decode 0x0220D1B3 = .divu 3 1 2 ∧
    decode 0x0220E1B3 = .rem 3 1 2 ∧ decode 0x0220F1B3 = .remu 3 1 2 := by decide

theorem test_decode_muldiv_32 :
    decode 0x022081BB = .mulw 3 1 2 ∧ decode 0x0220C1BB = .divw 3 1 2 ∧ decode 0x0220D1BB = .divuw 3 1 2 ∧
    decode 0x0220E1BB = .remw 3 1 2 ∧ decode 0x0220F1BB = .remuw 3 1 2 := by decide

theorem test_decode_system :
    decode 0x8330000F = .fence ∧ decode 0x0FF0000F = .fence ∧ decode 0x0000100F = .fenceI ∧ decode 0x00000073 = .ecall ∧
    decode 0x00100073 = .ebreak ∧ decode 0x300110F3 = .csrrw 1 2 768 ∧ decode 0xF14020F3 = .csrrs 1 0 (-236) ∧
    decode 0x30013073 = .csrrc 0 2 768 ∧ decode 0x3002D073 = .csrrwi 0 5 768 ∧ decode 0x30046073 = .csrrsi 0 8 768 ∧
    decode 0x30047073 = .csrrci 0 8 768 ∧ csrNumber (-236) = 3860 := by decide

/-- The Unknown words of section 1.1, with the two recognised ones beside them. -/
theorem test_decode_unknown :
    decode 0x00000000 = .unknown 0x00000000 ∧ decode 0xFFFFFFFF = .unknown 0xFFFFFFFF ∧
    decode 0x40001033 = .unknown 0x40001033 ∧ decode 0x0000600F = .unknown 0x0000600F ∧
    decode 0x00200073 = .unknown 0x00200073 ∧ decode 0x0000303B = .unknown 0x0000303B ∧
    decode 0x0200D01B = .unknown 0x0200D01B ∧ decode 0x0000A033 = .slt 0 1 0 ∧ decode 0x02004033 = .div 0 0 0 := by decide

/-- The encoder writes section 2's words. -/
theorem test_encode :
    encode (.sd 1 2 (-8)) = 0xFE20BC23 ∧ encode (.bgeu 1 2 4094) = 0x7E20FFE3 ∧ encode (.beq 1 2 (-8)) = 0xFE208CE3 ∧
    encode (.lui 5 (-2147483648)) = 0x800002B7 ∧ encode (.jal 0 (-4)) = 0xFFDFF06F ∧ encode (.jal 1 16) = 0x010000EF ∧
    encode (.srai 3 1 32) = 0x4200D193 ∧ encode (.slliw 3 1 31) = 0x01F0919B ∧
    encode (.csrrs 1 0 (-236)) = 0xF14020F3 := by decide

/-- Bytes in address order, least significant first (20_memory.md R55), and too few of them. -/
theorem test_decodeBytes :
    decodeBytes [0xB3, 0x81, 0x20, 0x00] = some (.add 3 1 2, []) ∧ decodeBytes [0xB3, 0x81, 0x20] = none ∧
    decodeTableWord 32 0x002081B3 = some (.add 3 1 2) := by decide

/-! ### Assembler text (R86) and pseudo-instructions (R87) -/

theorem test_asmText :
    asmText (.sd 1 2 (-8)) = "sd x2, -8(x1)" ∧ asmText (.lui 5 (-4096)) = "lui x5, 1048575" ∧
    asmText (.jalr 1 5 4) = "jalr x1, 4(x5)" ∧ asmText (.srai 3 1 32) = "srai x3, x1, 32" := by decide

/-- The parts of 0x12345800, whose low part is negative, and of -1. -/
theorem test_parts :
    hiPart 0x12345800 = 0x12346000 ∧ loPart 0x12345800 = -2048 ∧ hiPart (-1) = 0 ∧ loPart (-1) = -1 := by decide

/-! ### Integer ALU (section 3) -/

/-- `add x3, x1, x2` (R130). -/
theorem test_add_1 :
    sees (step (start Config.default 0x002081B3 0xFFFFFFFFFFFFFFFF 0x1)) 3 0x0 0x80000004 = true := by decide

/-- `add x1, x1, x1` (R130, R106). -/
theorem test_add_2 :
    sees (step (start Config.default 0x001080B3 0x4000000000000000 0)) 1 0x8000000000000000 0x80000004 = true := by decide

/-- `sub x3, x1, x2` (R131). -/
theorem test_sub_1 :
    sees (step (start Config.default 0x402081B3 0x8000000000000000 0x1)) 3 0x7FFFFFFFFFFFFFFF 0x80000004 = true := by decide

/-- `slt x3, x1, x2` (R132). -/
theorem test_slt_1 :
    sees (step (start Config.default 0x0020A1B3 0x8000000000000000 0x7FFFFFFFFFFFFFFF)) 3 0x1 0x80000004 = true := by decide

/-- `slt x3, x1, x2` (R132). -/
theorem test_slt_2 :
    sees (step (start Config.default 0x0020A1B3 0x7 0x7)) 3 0x0 0x80000004 = true := by decide

/-- `sltu x3, x1, x2` (R133). -/
theorem test_sltu_1 :
    sees (step (start Config.default 0x0020B1B3 0xFFFFFFFFFFFFFFFF 0x1)) 3 0x0 0x80000004 = true := by decide

/-- `sltu x3, x0, x2` (R133 (snez)). -/
theorem test_sltu_2 :
    sees (step (start Config.default 0x002031B3 0 0x9)) 3 0x1 0x80000004 = true := by decide

/-- `xor x3, x1, x2` (R134). -/
theorem test_xor_1 :
    sees (step (start Config.default 0x0020C1B3 0xF0F0 0xFF00)) 3 0xFF0 0x80000004 = true := by decide

/-- `or x3, x1, x2` (R135). -/
theorem test_or_1 :
    sees (step (start Config.default 0x0020E1B3 0xF0 0xF)) 3 0xFF 0x80000004 = true := by decide

/-- `and x3, x1, x2` (R136). -/
theorem test_and_1 :
    sees (step (start Config.default 0x0020F1B3 0xF0 0x3C)) 3 0x30 0x80000004 = true := by decide

/-- `addi x3, x1, 2047` (R137). -/
theorem test_addi_1 :
    sees (step (start Config.default 0x7FF08193 0xFFFFFFFFFFFFFFFF 0)) 3 0x7FE 0x80000004 = true := by decide

/-- `addi x3, x1, -2048` (R137). -/
theorem test_addi_2 :
    sees (step (start Config.default 0x80008193 0x0 0)) 3 0xFFFFFFFFFFFFF800 0x80000004 = true := by decide

/-- `slti x3, x1, -4` (R138). -/
theorem test_slti_1 :
    sees (step (start Config.default 0xFFC0A193 0xFFFFFFFFFFFFFFFB 0)) 3 0x1 0x80000004 = true := by decide

/-- `slti x3, x1, -4` (R138). -/
theorem test_slti_2 :
    sees (step (start Config.default 0xFFC0A193 0x3 0)) 3 0x0 0x80000004 = true := by decide

/-- `sltiu x3, x1, -1` (R139). -/
theorem test_sltiu_1 :
    sees (step (start Config.default 0xFFF0B193 0x5 0)) 3 0x1 0x80000004 = true := by decide

/-- `sltiu x3, x1, -1` (R139). -/
theorem test_sltiu_2 :
    sees (step (start Config.default 0xFFF0B193 0xFFFFFFFFFFFFFFFF 0)) 3 0x0 0x80000004 = true := by decide

/-- `xori x3, x1, -1` (R140 (not)). -/
theorem test_xori_1 :
    sees (step (start Config.default 0xFFF0C193 0x0 0)) 3 0xFFFFFFFFFFFFFFFF 0x80000004 = true := by decide

/-- `xori x3, x1, 0x7FF` (R140). -/
theorem test_xori_2 :
    sees (step (start Config.default 0x7FF0C193 0xFFF 0)) 3 0x800 0x80000004 = true := by decide

/-- `ori x3, x1, -2048` (R141). -/
theorem test_ori_1 :
    sees (step (start Config.default 0x8000E193 0x1 0)) 3 0xFFFFFFFFFFFFF801 0x80000004 = true := by decide

/-- `andi x3, x1, -8` (R142). -/
theorem test_andi_1 :
    sees (step (start Config.default 0xFF80F193 0xFFFFFFFFFFFFFFFF 0)) 3 0xFFFFFFFFFFFFFFF8 0x80000004 = true := by decide

/-- `lui x5, 0x80000` (R143). -/
theorem test_lui_1 :
    sees (step (start Config.default 0x800002B7 0 0)) 5 0xFFFFFFFF80000000 0x80000004 = true := by decide

/-- `auipc x5, 1` (R144). -/
theorem test_auipc_1 :
    sees (step (start Config.default 0x00001297 0 0)) 5 0x80001000 0x80000004 = true := by decide

/-- `auipc x5, 0x80000` (R144). -/
theorem test_auipc_2 :
    sees (step (start Config.default 0x80000297 0 0)) 5 0x0 0x80000004 = true := by decide

/-! ### Loads and stores (section 4) -/

/-- `lb x3, 0(x1)` (R162). -/
theorem test_lb_1 :
    sees (step (withData (start Config.default 0x00008183 0x80000100 0))) 3 0xFFFFFFFFFFFFFF80 0x80000004 = true := by decide

/-- `lh x3, 0(x1)` (R163). -/
theorem test_lh_1 :
    sees (step (withData (start Config.default 0x00009183 0x80000100 0))) 3 0xFFFFFFFFFFFFFF80 0x80000004 = true := by decide

/-- `lh x3, 1(x1)` (R163 (misaligned)). -/
theorem test_lh_2 :
    sees (step (withData (start Config.default 0x00109183 0x80000100 0))) 3 0x34FF 0x80000004 = true := by decide

/-- `lw x3, 4(x1)` (R164). -/
theorem test_lw_1 :
    sees (step (withData (start Config.default 0x0040A183 0x80000100 0))) 3 0xFFFFFFFF92345678 0x80000004 = true := by decide

/-- `lw x3, 3(x1)` (R164 (misaligned)). -/
theorem test_lw_2 :
    sees (step (withData (start Config.default 0x0030A183 0x80000100 0))) 3 0x34567812 0x80000004 = true := by decide

/-- `ld x3, 0(x1)` (R165). -/
theorem test_ld_1 :
    sees (step (withData (start Config.default 0x0000B183 0x80000100 0))) 3 0x923456781234FF80 0x80000004 = true := by decide

/-- `lbu x3, 0(x1)` (R166). -/
theorem test_lbu_1 :
    sees (step (withData (start Config.default 0x0000C183 0x80000100 0))) 3 0x80 0x80000004 = true := by decide

/-- `lhu x3, 0(x1)` (R167). -/
theorem test_lhu_1 :
    sees (step (withData (start Config.default 0x0000D183 0x80000100 0))) 3 0xFF80 0x80000004 = true := by decide

/-- `lwu x3, 4(x1)` (R168). -/
theorem test_lwu_1 :
    sees (step (withData (start Config.default 0x0040E183 0x80000100 0))) 3 0x92345678 0x80000004 = true := by decide

/-- `ld x3, 0(x1)` at x1 = 0x80000FF9, section 4.2: ReadFailed. -/
theorem test_ld_2 :
    haltsWith (step (start Config.default 0x0000B183 0x80000FF9 0)) (.readFailed 0x80000FF9) = true := by decide

/-- `lb x3, -1(x1)` at x1 = 0x80000000, section 4.2: ReadFailed. -/
theorem test_lb_2 :
    haltsWith (step (start Config.default 0xFFF08183 0x80000000 0)) (.readFailed 0x7FFFFFFF) = true := by decide

/-- `sb x2, 0(x1)` (R170): the bytes A-8 to A+7. -/
theorem test_sb_1 :
    bytesAfter (step (withData (start Config.default 0x00208023 0x80000100 0x1122334455667788))) =
      some [0x00, 0x00, 0x00, 0x00, 0x00, 0x00, 0x00, 0x00, 0x88, 0xFF, 0x34, 0x12, 0x78, 0x56, 0x34, 0x92] := by decide

/-- `sh x2, 0(x1)` (R171): the bytes A-8 to A+7. -/
theorem test_sh_1 :
    bytesAfter (step (withData (start Config.default 0x00209023 0x80000100 0x1122334455667788))) =
      some [0x00, 0x00, 0x00, 0x00, 0x00, 0x00, 0x00, 0x00, 0x88, 0x77, 0x34, 0x12, 0x78, 0x56, 0x34, 0x92] := by decide

/-- `sw x2, 0(x1)` (R172): the bytes A-8 to A+7. -/
theorem test_sw_1 :
    bytesAfter (step (withData (start Config.default 0x0020A023 0x80000100 0x1122334455667788))) =
      some [0x00, 0x00, 0x00, 0x00, 0x00, 0x00, 0x00, 0x00, 0x88, 0x77, 0x66, 0x55, 0x78, 0x56, 0x34, 0x92] := by decide

/-- `sw x2, 1(x1)` (R172 (misaligned)): the bytes A-8 to A+7. -/
theorem test_sw_2 :
    bytesAfter (step (withData (start Config.default 0x0020A0A3 0x80000100 0x1122334455667788))) =
      some [0x00, 0x00, 0x00, 0x00, 0x00, 0x00, 0x00, 0x00, 0x80, 0x88, 0x77, 0x66, 0x55, 0x56, 0x34, 0x92] := by decide

/-- `sd x2, -8(x1)` (R173): the bytes A-8 to A+7. -/
theorem test_sd_1 :
    bytesAfter (step (withData (start Config.default 0xFE20BC23 0x80000100 0x1122334455667788))) =
      some [0x88, 0x77, 0x66, 0x55, 0x44, 0x33, 0x22, 0x11, 0x80, 0xFF, 0x34, 0x12, 0x78, 0x56, 0x34, 0x92] := by decide

/-- `sd x2, 0(x1)` at x1 = 0x80000FFC, section 4.4: WriteFailed. The bytes it leaves are a free value. -/
theorem test_sd_2 :
    haltsWith (step (start Config.default 0x0020B023 0x80000FFC 0x1122334455667788)) (.writeFailed 0x80000FFC) = true :=
  by decide

/-- `sb x2, 0(x1)` at x1 = 0x7FFFFFFF, section 4.4: WriteFailed. The bytes it leaves are a free value. -/
theorem test_sb_2 :
    haltsWith (step (start Config.default 0x00208023 0x7FFFFFFF 0x1122334455667788)) (.writeFailed 0x7FFFFFFF) = true :=
  by decide

/-! ### Control transfer (section 5), at P = 0x80000200 -/

/-- `jal x1, 16` (R181). -/
theorem test_jal_1 :
    sees (step (startAt 0x010000EF 0 0 0)) 1 0x80000204 0x80000210 = true := by decide

/-- `jal x0, -512` (R181 (j)). -/
theorem test_jal_2 :
    sees (step (startAt 0xE01FF06F 0 0 0)) 0 0x0 0x80000000 = true := by decide

/-- `jalr x0, 1(x5)` (R182 (target = 2 mod 4)). -/
theorem test_jalr_1 :
    sees (step (startAt 0x00128067 0 0 0x80000401)) 0 0x0 0x80000402 = true := by decide

/-- `jalr x5, 8(x5)` (R182, R106 (rd = rs1)). -/
theorem test_jalr_2 :
    sees (step (startAt 0x008282E7 0 0 0x80000400)) 5 0x80000204 0x80000408 = true := by decide

/-- `beq x1, x2, -8` (R183 taken). -/
theorem test_beq_1 :
    sees (step (startAt 0xFE208CE3 0x7 0x7 0)) 3 0xDEAD 0x800001F8 = true := by decide

/-- `beq x1, x2, -8` (R183 not taken). -/
theorem test_beq_2 :
    sees (step (startAt 0xFE208CE3 0x7 0x8 0)) 3 0xDEAD 0x80000204 = true := by decide

/-- `bne x1, x2, 8` (R184 taken). -/
theorem test_bne_1 :
    sees (step (startAt 0x00209463 0x1 0x2 0)) 3 0xDEAD 0x80000208 = true := by decide

/-- `bne x1, x1, 8` (R184 never taken). -/
theorem test_bne_2 :
    sees (step (startAt 0x00109463 0x1 0 0)) 3 0xDEAD 0x80000204 = true := by decide

/-- `blt x1, x2, 12` (R185 taken (-1 < 0)). -/
theorem test_blt_1 :
    sees (step (startAt 0x0020C663 0xFFFFFFFFFFFFFFFF 0x0 0)) 3 0xDEAD 0x8000020C = true := by decide

/-- `blt x1, x2, 12` (R185 not taken). -/
theorem test_blt_2 :
    sees (step (startAt 0x0020C663 0x0 0xFFFFFFFFFFFFFFFF 0)) 3 0xDEAD 0x80000204 = true := by decide

/-- `bge x1, x2, -4` (R186 taken (equal)). -/
theorem test_bge_1 :
    sees (step (startAt 0xFE20DEE3 0x5 0x5 0)) 3 0xDEAD 0x800001FC = true := by decide

/-- `bge x1, x2, -4` (R186 not taken). -/
theorem test_bge_2 :
    sees (step (startAt 0xFE20DEE3 0x8000000000000000 0x0 0)) 3 0xDEAD 0x80000204 = true := by decide

/-- `bltu x1, x2, 16` (R187 taken). -/
theorem test_bltu_1 :
    sees (step (startAt 0x0020E863 0x1 0xFFFFFFFFFFFFFFFF 0)) 3 0xDEAD 0x80000210 = true := by decide

/-- `bltu x1, x2, 16` (R187 not taken). -/
theorem test_bltu_2 :
    sees (step (startAt 0x0020E863 0xFFFFFFFFFFFFFFFF 0x1 0)) 3 0xDEAD 0x80000204 = true := by decide

/-- `bgeu x1, x2, 4094` (R188 taken). -/
theorem test_bgeu_1 :
    sees (step (startAt 0x7E20FFE3 0xFFFFFFFFFFFFFFFF 0x1 0)) 3 0xDEAD 0x800011FE = true := by decide

/-- `bgeu x1, x2, -4096` (R188 not taken). -/
theorem test_bgeu_2 :
    sees (step (startAt 0x8020F063 0x0 0x1 0)) 3 0xDEAD 0x80000204 = true := by decide

/-! ### Shifts and word operations (section 6), the backlog enabled -/

/-- `sll x3, x1, x2` (R201). -/
theorem test_sll_1 :
    sees (step (start Config.allEnabled 0x002091B3 0x1 0x41)) 3 0x2 0x80000004 = true := by decide

/-- `sll x3, x1, x2` (R201 (64 = 0)). -/
theorem test_sll_2 :
    sees (step (start Config.allEnabled 0x002091B3 0x1 0x40)) 3 0x1 0x80000004 = true := by decide

/-- `srl x3, x1, x2` (R202). -/
theorem test_srl_1 :
    sees (step (start Config.allEnabled 0x0020D1B3 0x8000000000000000 0x3F)) 3 0x1 0x80000004 = true := by decide

/-- `sra x3, x1, x2` (R203). -/
theorem test_sra_1 :
    sees (step (start Config.allEnabled 0x4020D1B3 0x8000000000000000 0x3F)) 3 0xFFFFFFFFFFFFFFFF 0x80000004 =
      true := by decide

/-- `sra x3, x1, x2` (R203 (64 = 0)). -/
theorem test_sra_2 :
    sees (step (start Config.allEnabled 0x4020D1B3 0x8000000000000000 0x40)) 3 0x8000000000000000 0x80000004 =
      true := by decide

/-- `slli x3, x1, 63` (R204). -/
theorem test_slli_1 :
    sees (step (start Config.allEnabled 0x03F09193 0x1 0)) 3 0x8000000000000000 0x80000004 = true := by decide

/-- `srli x3, x1, 4` (R205). -/
theorem test_srli_1 :
    sees (step (start Config.allEnabled 0x0040D193 0xF0 0)) 3 0xF 0x80000004 = true := by decide

/-- `srli x3, x1, 32` (R205 (shamt[5] = 1)). -/
theorem test_srli_2 :
    sees (step (start Config.allEnabled 0x0200D193 0xFFFFFFFFFFFFFFFF 0)) 3 0xFFFFFFFF 0x80000004 = true := by decide

/-- `srai x3, x1, 4` (R206). -/
theorem test_srai_1 :
    sees (step (start Config.allEnabled 0x4040D193 0xFFFFFFFFFFFFFF00 0)) 3 0xFFFFFFFFFFFFFFF0 0x80000004 = true := by decide

/-- `srai x3, x1, 63` (R206). -/
theorem test_srai_2 :
    sees (step (start Config.allEnabled 0x43F0D193 0x8000000000000000 0)) 3 0xFFFFFFFFFFFFFFFF 0x80000004 = true := by decide

/-- `addiw x3, x1, 1` (R207). -/
theorem test_addiw_1 :
    sees (step (start Config.allEnabled 0x0010819B 0x7FFFFFFF 0)) 3 0xFFFFFFFF80000000 0x80000004 = true := by decide

/-- `addiw x3, x1, 0` (R207 (sext.w)). -/
theorem test_addiw_2 :
    sees (step (start Config.allEnabled 0x0000819B 0xFFFFFFFF00000005 0)) 3 0x5 0x80000004 = true := by decide

/-- `slliw x3, x1, 31` (R208). -/
theorem test_slliw_1 :
    sees (step (start Config.allEnabled 0x01F0919B 0x1 0)) 3 0xFFFFFFFF80000000 0x80000004 = true := by decide

/-- `slliw x3, x1, 1` (R208 (bit 31 lost)). -/
theorem test_slliw_2 :
    sees (step (start Config.allEnabled 0x0010919B 0x80000000 0)) 3 0x0 0x80000004 = true := by decide

/-- `srliw x3, x1, 4` (R209). -/
theorem test_srliw_1 :
    sees (step (start Config.allEnabled 0x0040D19B 0xFFFFFFFF80000000 0)) 3 0x8000000 0x80000004 = true := by decide

/-- `srliw x3, x1, 0` (R209 (shamt 0)). -/
theorem test_srliw_2 :
    sees (step (start Config.allEnabled 0x0000D19B 0x80000000 0)) 3 0xFFFFFFFF80000000 0x80000004 = true := by decide

/-- `sraiw x3, x1, 4` (R210). -/
theorem test_sraiw_1 :
    sees (step (start Config.allEnabled 0x4040D19B 0x80000000 0)) 3 0xFFFFFFFFF8000000 0x80000004 = true := by decide

/-- `addw x3, x1, x2` (R211). -/
theorem test_addw_1 :
    sees (step (start Config.allEnabled 0x002081BB 0x7FFFFFFF 0x1)) 3 0xFFFFFFFF80000000 0x80000004 = true := by decide

/-- `addw x3, x1, x2` (R211 (upper half ignored)). -/
theorem test_addw_2 :
    sees (step (start Config.allEnabled 0x002081BB 0x100000000 0x0)) 3 0x0 0x80000004 = true := by decide

/-- `subw x3, x1, x2` (R212). -/
theorem test_subw_1 :
    sees (step (start Config.allEnabled 0x402081BB 0x0 0x1)) 3 0xFFFFFFFFFFFFFFFF 0x80000004 = true := by decide

/-- `subw x3, x1, x2` (R212). -/
theorem test_subw_2 :
    sees (step (start Config.allEnabled 0x402081BB 0x80000000 0x1)) 3 0x7FFFFFFF 0x80000004 = true := by decide

/-- `sllw x3, x1, x2` (R213 (33 = 1)). -/
theorem test_sllw_1 :
    sees (step (start Config.allEnabled 0x002091BB 0x1 0x21)) 3 0x2 0x80000004 = true := by decide

/-- `sllw x3, x1, x2` (R213). -/
theorem test_sllw_2 :
    sees (step (start Config.allEnabled 0x002091BB 0x1 0x1F)) 3 0xFFFFFFFF80000000 0x80000004 = true := by decide

/-- `srlw x3, x1, x2` (R214). -/
theorem test_srlw_1 :
    sees (step (start Config.allEnabled 0x0020D1BB 0xFFFFFFFFFFFFFFFF 0x1)) 3 0x7FFFFFFF 0x80000004 = true := by decide

/-- `srlw x3, x1, x2` (R214 (shift 0)). -/
theorem test_srlw_2 :
    sees (step (start Config.allEnabled 0x0020D1BB 0xFFFFFFFFFFFFFFFF 0x0)) 3 0xFFFFFFFFFFFFFFFF 0x80000004 =
      true := by decide

/-- `sraw x3, x1, x2` (R215). -/
theorem test_sraw_1 :
    sees (step (start Config.allEnabled 0x4020D1BB 0x80000000 0x1)) 3 0xFFFFFFFFC0000000 0x80000004 = true := by decide

/-- `sraw x3, x1, x2` (R215 (32 = 0)). -/
theorem test_sraw_2 :
    sees (step (start Config.allEnabled 0x4020D1BB 0x80000000 0x20)) 3 0xFFFFFFFF80000000 0x80000004 = true := by decide

/-! ### Multiply and divide (section 7), the backlog enabled -/

/-- `mul x3, x1, x2` (R231). -/
theorem test_mul_1 :
    sees (step (start Config.allEnabled 0x022081B3 0xFFFFFFFFFFFFFFFF 0xFFFFFFFFFFFFFFFF)) 3 0x1 0x80000004 =
      true := by decide

/-- `mulh x3, x1, x2` (R232). -/
theorem test_mulh_1 :
    sees (step (start Config.allEnabled 0x022091B3 0xFFFFFFFFFFFFFFFF 0xFFFFFFFFFFFFFFFF)) 3 0x0 0x80000004 =
      true := by decide

/-- `mulh x3, x1, x2` (R232). -/
theorem test_mulh_2 :
    sees (step (start Config.allEnabled 0x022091B3 0x8000000000000000 0x8000000000000000)) 3 0x4000000000000000 0x80000004 =
      true := by decide

/-- `mulhsu x3, x1, x2` (R233). -/
theorem test_mulhsu_1 :
    sees (step (start Config.allEnabled 0x0220A1B3 0xFFFFFFFFFFFFFFFF 0xFFFFFFFFFFFFFFFF)) 3 0xFFFFFFFFFFFFFFFF 0x80000004 =
      true := by decide

/-- `mulhsu x3, x1, x2` (R233). -/
theorem test_mulhsu_2 :
    sees (step (start Config.allEnabled 0x0220A1B3 0x8000000000000000 0xFFFFFFFFFFFFFFFF)) 3 0x8000000000000000 0x80000004 =
      true := by decide

/-- `mulhu x3, x1, x2` (R234). -/
theorem test_mulhu_1 :
    sees (step (start Config.allEnabled 0x0220B1B3 0xFFFFFFFFFFFFFFFF 0xFFFFFFFFFFFFFFFF)) 3 0xFFFFFFFFFFFFFFFE 0x80000004 =
      true := by decide

/-- `div x3, x1, x2` (R235). -/
theorem test_div_1 :
    sees (step (start Config.allEnabled 0x0220C1B3 0xFFFFFFFFFFFFFFF9 0x2)) 3 0xFFFFFFFFFFFFFFFD 0x80000004 =
      true := by decide

/-- `div x3, x1, x2` (R235 (overflow)). -/
theorem test_div_2 :
    sees (step (start Config.allEnabled 0x0220C1B3 0x8000000000000000 0xFFFFFFFFFFFFFFFF)) 3 0x8000000000000000 0x80000004 =
      true := by decide

/-- `divu x3, x1, x2` (R236). -/
theorem test_divu_1 :
    sees (step (start Config.allEnabled 0x0220D1B3 0xFFFFFFFFFFFFFFFF 0x2)) 3 0x7FFFFFFFFFFFFFFF 0x80000004 =
      true := by decide

/-- `divu x3, x1, x2` (R236 (divide by zero)). -/
theorem test_divu_2 :
    sees (step (start Config.allEnabled 0x0220D1B3 0x5 0x0)) 3 0xFFFFFFFFFFFFFFFF 0x80000004 = true := by decide

/-- `rem x3, x1, x2` (R237). -/
theorem test_rem_1 :
    sees (step (start Config.allEnabled 0x0220E1B3 0x7 0xFFFFFFFFFFFFFFFE)) 3 0x1 0x80000004 = true := by decide

/-- `rem x3, x1, x2` (R237 (overflow)). -/
theorem test_rem_2 :
    sees (step (start Config.allEnabled 0x0220E1B3 0x8000000000000000 0xFFFFFFFFFFFFFFFF)) 3 0x0 0x80000004 =
      true := by decide

/-- `remu x3, x1, x2` (R238). -/
theorem test_remu_1 :
    sees (step (start Config.allEnabled 0x0220F1B3 0xFFFFFFFFFFFFFFFF 0xA)) 3 0x5 0x80000004 = true := by decide

/-- `remu x3, x1, x2` (R238 (divide by zero)). -/
theorem test_remu_2 :
    sees (step (start Config.allEnabled 0x0220F1B3 0x5 0x0)) 3 0x5 0x80000004 = true := by decide

/-- `mulw x3, x1, x2` (R239). -/
theorem test_mulw_1 :
    sees (step (start Config.allEnabled 0x022081BB 0x7FFFFFFF 0x2)) 3 0xFFFFFFFFFFFFFFFE 0x80000004 = true := by decide

/-- `divw x3, x1, x2` (R240). -/
theorem test_divw_1 :
    sees (step (start Config.allEnabled 0x0220C1BB 0xFFFFFFFFFFFFFFF9 0x2)) 3 0xFFFFFFFFFFFFFFFD 0x80000004 =
      true := by decide

/-- `divw x3, x1, x2` (R240 (overflow)). -/
theorem test_divw_2 :
    sees (step (start Config.allEnabled 0x0220C1BB 0x80000000 0xFFFFFFFFFFFFFFFF)) 3 0xFFFFFFFF80000000 0x80000004 =
      true := by decide

/-- `divuw x3, x1, x2` (R241). -/
theorem test_divuw_1 :
    sees (step (start Config.allEnabled 0x0220D1BB 0xFFFFFFFF 0x2)) 3 0x7FFFFFFF 0x80000004 = true := by decide

/-- `divuw x3, x1, x2` (R241 (sign-extended result)). -/
theorem test_divuw_2 :
    sees (step (start Config.allEnabled 0x0220D1BB 0x80000000 0x1)) 3 0xFFFFFFFF80000000 0x80000004 = true := by decide

/-- `remw x3, x1, x2` (R242). -/
theorem test_remw_1 :
    sees (step (start Config.allEnabled 0x0220E1BB 0xFFFFFFFFFFFFFFF9 0x2)) 3 0xFFFFFFFFFFFFFFFF 0x80000004 =
      true := by decide

/-- `remw x3, x1, x2` (R242 (divide by zero)). -/
theorem test_remw_2 :
    sees (step (start Config.allEnabled 0x0220E1BB 0xFFFFFFFF 0x0)) 3 0xFFFFFFFFFFFFFFFF 0x80000004 = true := by decide

/-- `remuw x3, x1, x2` (R243). -/
theorem test_remuw_1 :
    sees (step (start Config.allEnabled 0x0220F1BB 0xFFFFFFFF 0xA)) 3 0x5 0x80000004 = true := by decide

/-- `remuw x3, x1, x2` (R243 (divide by zero)). -/
theorem test_remuw_2 :
    sees (step (start Config.allEnabled 0x0220F1BB 0x80000005 0x0)) 3 0xFFFFFFFF80000005 0x80000004 = true := by decide

/-! ### System, CSR and words that do not execute (section 8) -/

/-- `fence.tso`: sequential when enabled, a halt by default. -/
theorem test_fence_tso_1 :
    sees (step (start Config.allEnabled 0x8330000F 7 9)) 1 7 0x80000004 = true ∧
      haltsWith (step (start Config.default 0x8330000F 7 9)) (.notImplemented .fence) = true := by decide

/-- `fence.i`: sequential when enabled, a halt by default. -/
theorem test_fence_i_1 :
    sees (step (start Config.allEnabled 0x0000100F 7 9)) 1 7 0x80000004 = true ∧
      haltsWith (step (start Config.default 0x0000100F 7 9)) (.notImplemented .fenceI) = true := by decide

/-- `ecall`: a halt even with every backlog mnemonic enabled. -/
theorem test_ecall :
    haltsWith (step (start Config.allEnabled 0x00000073 7 9)) (.notImplemented (.ecall)) = true := by decide

/-- `ebreak`: a halt even with every backlog mnemonic enabled. -/
theorem test_ebreak :
    haltsWith (step (start Config.allEnabled 0x00100073 7 9)) (.notImplemented (.ebreak)) = true := by decide

/-- `csrrw x1, 0x300, x2`: a halt even with every backlog mnemonic enabled. -/
theorem test_csrrw :
    haltsWith (step (start Config.allEnabled 0x300110F3 7 9)) (.notImplemented (.csrrw 1 2 768)) = true := by decide

/-- `csrrs x1, 0xF14, x0`: a halt even with every backlog mnemonic enabled. -/
theorem test_csrrs :
    haltsWith (step (start Config.allEnabled 0xF14020F3 7 9)) (.notImplemented (.csrrs 1 0 (-236))) = true := by decide

/-- `csrrc x0, 0x300, x2`: a halt even with every backlog mnemonic enabled. -/
theorem test_csrrc :
    haltsWith (step (start Config.allEnabled 0x30013073 7 9)) (.notImplemented (.csrrc 0 2 768)) = true := by decide

/-- `csrrwi x0, 0x300, 5`: a halt even with every backlog mnemonic enabled. -/
theorem test_csrrwi :
    haltsWith (step (start Config.allEnabled 0x3002D073 7 9)) (.notImplemented (.csrrwi 0 5 768)) = true := by decide

/-- `csrrsi x0, 0x300, 8`: a halt even with every backlog mnemonic enabled. -/
theorem test_csrrsi :
    haltsWith (step (start Config.allEnabled 0x30046073 7 9)) (.notImplemented (.csrrsi 0 8 768)) = true := by decide

/-- `csrrci x0, 0x300, 8`: a halt even with every backlog mnemonic enabled. -/
theorem test_csrrci :
    haltsWith (step (start Config.allEnabled 0x30047073 7 9)) (.notImplemented (.csrrci 0 8 768)) = true := by decide

/-- `mret (not recognised)`: a halt even with every backlog mnemonic enabled. -/
theorem test_unknown_mret :
    haltsWith (step (start Config.allEnabled 0x30200073 7 9)) (.notImplemented (.unknown 0x30200073)) = true := by decide

/-- `all-ones word`: a halt even with every backlog mnemonic enabled. -/
theorem test_unknown_ones :
    haltsWith (step (start Config.allEnabled 0xFFFFFFFF 7 9)) (.notImplemented (.unknown 0xFFFFFFFF)) = true := by decide
/-! ### Step-level and construction vectors (section 9) -/

/-- The machine at a pc of its own, MISALIGNED_PC given, with a word placed there. -/
def startPc (m : MisalignedPc) (pc : Word) (w : Nat) : State :=
  ({ State.init { Config.default with misalignedPc := m } (Vector.replicate 31 0) [] with pc := pc }).withFetchWord 32 w

/-- The halt reason after the step. -/
def reasonAfter (o : Result) : Option HaltReason :=
  match o with
  | .next t => t.reason
  | .fault _ => none
  | .refused _ => none

theorem test_step_last_word : sees (step (startPc .fetch 0x80000FFC 0x00100293)) 5 1 0x80001000 = true := by decide

theorem test_step_across_the_end :
    reasonAfter (step (startPc .fetch 0x80000FFE 0)) = some (.fetchError .unmapped 0x80000FFE) ∧
    reasonAfter (step (startPc .halt 0x80000FFE 0)) = some (.fetchError .misaligned 0x80000FFE) := by decide

theorem test_step_outside :
    reasonAfter (step (startPc .halt 0x80001000 0)) = some (.fetchError .unmapped 0x80001000) ∧
    reasonAfter (step (startPc .fetch 0x7FFFFFFC 0)) = some (.fetchError .unmapped 0x7FFFFFFC) ∧
    reasonAfter (step (startPc .fetch 0 0)) = some (.fetchError .unmapped 0) := by decide

/-- Bytes 93 02 10 00 13 03 00 00 at BASE and pc = BASE + 2. -/
theorem test_step_misaligned :
    reasonAfter (step { startPc .halt 0x80000002 0x03130010 with regs := State.reset.regs }) =
      some (.fetchError .misaligned 0x80000002) ∧
    reasonAfter (step { State.init Config.default (Vector.replicate 31 0)
      [0x93, 0x02, 0x10, 0x00, 0x13, 0x03, 0x00, 0x00] with pc := 0x80000002 }) =
      some (.notImplemented (.unknown 0x03130010)) := by decide

/-- The gate comes before the data access. -/
theorem test_step_gate_first :
    haltsWith (step (start { Config.default with implemented := [.add] } 0x00003183 0 0)) (.notImplemented (.ld 3 0 0)) =
      true := by decide

theorem test_step_self_loop : sees (step (start Config.default 0x0000006F 7 9)) 1 7 0x80000000 = true := by decide

/-- From reset itself the first step fetches zeros. -/
theorem test_step_reset :
    step State.reset = .next (State.reset.halt (.notImplemented (.unknown 0))) := rfl

/-- The word placed at reset is the one the next step runs. -/
theorem test_withFetchWord :
    step (State.reset.withFetchWord 32 0x00500293) = exec (.addi 5 0 5) (State.reset.withFetchWord 32 0x00500293) := rfl

/-- The backlog and the default set: the gate at the reset configuration, and with everything enabled (section 8). -/
theorem test_gate :
    haltsWith (step (start Config.default 0x022081B3 7 9)) (.notImplemented (.mul 3 1 2)) = true ∧
    sees (step (start Config.allEnabled 0x022081B3 7 9)) 3 0x3F 0x80000004 = true := by decide

/-- Reset is construction: pc, x2, running, and the canonical empty store. -/
theorem test_reset :
    State.reset.pc = 0x80000000 ∧ State.reset.x 2 = 0x80001000 ∧ State.reset.x 0 = 0 ∧ State.reset.running = true ∧
    State.reset.haltReason = none ∧ Memory.wf State.reset.mem := by decide

theorem test_construct :
    (State.construct { Config.default with size := 16 } (Vector.replicate 31 0) (List.replicate 16 7)).map
        (fun s => (s.x 2, s.byteAt 0x8000000F)) = some (0x80000010, 7) ∧
    State.construct { Config.default with size := 8 } (Vector.replicate 31 0) (List.replicate 16 7) = none ∧
    (State.construct { Config.default with base := 0xFFFFFFFFFFFFF000 } (Vector.replicate 31 0) []).map (fun s => s.x 2) =
      some 0 ∧
    State.construct { Config.default with base := 0xFFFFFFFFFFFFF000, size := 0x2000 } (Vector.replicate 31 0) [] = none := by
  decide

/-- The observer at the window's edges (section 1.6). -/
theorem test_observer :
    State.reset.dumpMem 0x7FFFFFFF 1 = none ∧ State.reset.dumpMem 0x80000000 1 = some [0] ∧
    State.reset.dumpMem 0x80000FFF 1 = some [0] ∧ State.reset.dumpMem 0x80000FFF 2 = none := by decide

/-- The driver stops at its bound on a self loop, and keeps what is left of it on a halt. -/
theorem test_drive :
    drive 0 State.reset = .next (State.reset, 0) ∧
    drive 3 State.reset = .next (State.reset.halt (.notImplemented (.unknown 0)), 2) := ⟨rfl, rfl⟩

theorem test_csrLookup : csrLookup 0xF14 = some "mhartid" ∧ csrLookup 0x305 = none := by decide

/-! ### Witnesses: states and operands that meet the hypotheses of the statements -/

/-- The machine at reset with a word placed at pc. -/
abbrev at0 (w : Nat) : State := State.reset.withFetchWord 32 w

/-- KnownWordsDecode and the immediates have no hypothesis; the row statements have one, met by a word of each row. -/
theorem witness_rows : ∀ p ∈ [((0x002081B3 : InstrWord), Mnemonic.add), (0x402081B3, .sub), (0x0020A1B3, .slt),
    (0x0020B1B3, .sltu), (0x0020C1B3, .xor), (0x0020E1B3, .or), (0x0020F1B3, .and), (0x80000013, .addi), (0xFFC0A193, .slti),
    (0xFFF0B193, .sltiu), (0x7FF0C193, .xori), (0x0FF0E193, .ori), (0x0FF0F193, .andi), (0x800002B7, .lui),
    (0x00001297, .auipc)], p.1 &&& p.2.mask = p.2.matchBits := by decide

theorem witness_rows_memory_control : ∀ p ∈ [((0xFFF08183 : InstrWord), Mnemonic.lb),
    (0x00109183, .lh), (0x0040A183, .lw), (0x0000B183, .ld),
    (0x0000C183, .lbu),
    (0x0000D183, .lhu), (0x0040E183, .lwu), (0x80208023, .sb), (0x00209023, .sh), (0x0020A0A3, .sw), (0x7E20BFA3, .sd),
    (0x7FFFF06F, .jal), (0x004280E7, .jalr), (0x000000E3, .beq), (0x00209463, .bne), (0x0020C663, .blt), (0xFE20DEE3, .bge),
    (0x0020E863, .bltu), (0x7E20FFE3, .bgeu)], p.1 &&& p.2.mask = p.2.matchBits := by decide

theorem witness_rows_backlog : ∀ p ∈ [((0x002091B3 : InstrWord), Mnemonic.sll), (0x0020D1B3, .srl), (0x4020D1B3, .sra),
    (0x03F09193, .slli), (0x0200D193, .srli), (0x4200D193, .srai), (0x0010819B, .addiw), (0x01F0919B, .slliw),
    (0x0040D19B, .srliw), (0x4040D19B, .sraiw), (0x002081BB, .addw), (0x402081BB, .subw), (0x002091BB, .sllw),
    (0x0020D1BB, .srlw), (0x4020D1BB, .sraw)], p.1 &&& p.2.mask = p.2.matchBits := by decide

theorem witness_rows_muldiv : ∀ p ∈ [((0x022081B3 : InstrWord), Mnemonic.mul),
    (0x022091B3, .mulh), (0x0220A1B3, .mulhsu),
    (0x0220B1B3, .mulhu), (0x0220C1B3, .div), (0x0220D1B3, .divu), (0x0220E1B3, .rem), (0x0220F1B3, .remu),
    (0x022081BB, .mulw), (0x0220C1BB, .divw), (0x0220D1BB, .divuw), (0x0220E1BB, .remw), (0x0220F1BB, .remuw)],
    p.1 &&& p.2.mask = p.2.matchBits := by decide

theorem witness_rows_system : ∀ p ∈ [((0x8330000F : InstrWord), Mnemonic.fence), (0x0000100F, .fenceI),
    (0x300110F3, .csrrw), (0xF14020F3, .csrrs), (0x30013073, .csrrc),
    (0x3002D073, .csrrwi), (0x30046073, .csrrsi), (0x30047073, .csrrci)], p.1 &&& p.2.mask = p.2.matchBits := by decide

/-- DecoderIsTheOpcodeTable, UnknownWords: words of no row. -/
theorem witness_no_row (m : Mnemonic) :
    (0x40001033 : InstrWord) &&& m.mask ≠ m.matchBits ∧ (0 : InstrWord) &&& m.mask ≠ m.matchBits := by
  cases m <;> decide

/-- DecodeOfEncode: a well-formed instruction of every format, its operands at the ends of their ranges. -/
theorem witness_decodeOfEncode : ∀ i ∈ [Instr.add 31 31 31, .addi 31 0 (-2048), .sd 0 31 2047, .beq 31 0 (-4096),
    .bgeu 0 31 4094, .lui 31 (-2147483648), .auipc 0 2147479552, .jal 31 (-1048576), .jal 0 1048574, .srai 31 31 63,
    .sraiw 31 31 31, .csrrs 31 31 (-1), .fence, .unknown 0xFFFFFFFF], i.wellFormed = true := by decide

/-- EncodeOfDecode: a word that is no fence. -/
theorem witness_encodeOfDecode : decode 0xFE20BC23 ≠ .fence ∧ decode 0xFE20BC23 ≠ .fenceI := by decide

/-- SystemDecoding: SYSTEM words of every funct3. -/
theorem witness_systemDecoding : [(0x00000073 : InstrWord), 0x300110F3, 0xF14020F3, 0x30013073, 0x00004073, 0x3002D073,
    0x30046073, 0x30047073].all (fun w => opcodeOf w == 0x73) = true := by decide

theorem witness_systemDecoding_funct3 : [(0x00000073 : InstrWord), 0x300110F3, 0xF14020F3, 0x30013073, 0x00004073, 0x3002D073,
    0x30046073, 0x30047073].map funct3Of = [0, 1, 2, 3, 4, 5, 6, 7] := by decide

/-- Shifts64, WordImmediates, Jumps: words whose function field is out of place. -/
theorem witness_function_field :
    opcodeOf 0x04001013 = 0x13 ∧ funct3Of 0x04001013 = 1 ∧ (0x04001013 : InstrWord).toNat / 2 ^ 26 ≠ 0 ∧
    opcodeOf 0x0200101B = 0x1B ∧ funct3Of 0x0200101B = 1 ∧ (0x0200101B : InstrWord).getLsbD 25 = true ∧
    opcodeOf 0x00001067 = 0x67 ∧ funct3Of 0x00001067 ≠ 0 := by decide

/-- Fetches as one decidable statement, for the witnesses below. -/
theorem fetches_of {s : State} {i : Instr}
    (h : ¬(s.cfg.misalignedPc = .halt ∧ s.pc.toNat % 4 ≠ 0) ∧ s.cfg.base ≤ s.pc.toNat ∧
      s.pc.toNat - s.cfg.base + 4 ≤ s.cfg.size ∧
      decodeBytes [s.byteAt s.pc.toNat, s.byteAt (s.pc.toNat + 1), s.byteAt (s.pc.toNat + 2), s.byteAt (s.pc.toNat + 3)]
        = some (i, [])) : Fetches s i := h

/-- StepRunsTheDecodedInstruction: ADDI at reset. -/
theorem witness_stepRuns : (at0 0x00500293).running = true ∧ Fetches (at0 0x00500293) (.addi 5 0 5) ∧
    (Instr.addi 5 0 5).mnemonic? = some .addi ∧ Mnemonic.addi ∈ (at0 0x00500293).cfg.implemented :=
  ⟨by decide, fetches_of (by decide), by decide, by decide⟩

/-- StepPriority, first row: a halted machine; also HaltingIsMonotonic's first part. -/
theorem witness_halted : (State.reset.halt (.notImplemented .ecall)).running = false := by decide

/-- StepPriority, the misaligned row at the last byte of the window. -/
theorem witness_misaligned : (startPc .halt 0x80000FFF 0).running = true ∧
    (startPc .halt 0x80000FFF 0).cfg.misalignedPc = .halt ∧ (startPc .halt 0x80000FFF 0).pc.toNat % 4 ≠ 0 := by decide

/-- StepPriority, the unmapped row just below the window and just past its last word, under either MISALIGNED_PC. -/
theorem witness_unmapped : ∀ s ∈ [startPc .fetch 0x80000FFD 0, startPc .halt 0x7FFFFFFC 0, startPc .fetch 0x7FFFFFFF 0],
    s.running = true ∧ ¬(s.cfg.misalignedPc = .halt ∧ s.pc.toNat % 4 ≠ 0) ∧
    (s.pc.toNat < s.cfg.base ∨ s.cfg.size < s.pc.toNat - s.cfg.base + 4) := by decide

/-- StepPriority, the Unknown row, UnknownWords and the last word of the window. -/
theorem witness_unknown : (startPc .halt 0x80000FFC 0).running = true ∧ Fetches (startPc .halt 0x80000FFC 0) (.unknown 0) :=
  ⟨by decide, fetches_of (by decide)⟩

/-- StepPriority, the gate row; DefaultGate; the HaltsByDefault clauses: backlog words at the reset configuration. -/
theorem witness_gate : (at0 0x022081B3).running = true ∧ Fetches (at0 0x022081B3) (.mul 3 1 2) ∧
    (Instr.mul 3 1 2).mnemonic? = some .mul ∧ Mnemonic.mul ∉ (at0 0x022081B3).cfg.implemented ∧
    (at0 0x022081B3).cfg.implemented = Mnemonic.referenceSet ∧ Mnemonic.mul ∈ Mnemonic.backlog ++ Mnemonic.neverImplemented :=
  ⟨by decide, fetches_of (by decide), by decide, by decide, by decide, by decide⟩

/-- HaltsByDefault for the shifts, the word operations, the divisions and the fences. -/
theorem witness_haltsByDefault : Fetches (at0 0x03F09193) (.slli 3 1 63) ∧ Fetches (at0 0x0010819B) (.addiw 3 1 1) ∧
    Fetches (at0 0x4020D1BB) (.sraw 3 1 2) ∧ Fetches (at0 0x0220C1B3) (.div 3 1 2) ∧ Fetches (at0 0x0220F1BB) (.remuw 3 1 2) ∧
    Fetches (at0 0x8330000F) .fence ∧ Fetches (at0 0x0000100F) .fenceI :=
  ⟨fetches_of (by decide), fetches_of (by decide), fetches_of (by decide), fetches_of (by decide), fetches_of (by decide),
    fetches_of (by decide), fetches_of (by decide)⟩

/-- StepPriority, the last row: an access in the window and one outside it, and an instruction with none. -/
theorem witness_access :
    Fetches (start Config.default 0x0000B183 0x80000FF8 0) (.ld 3 1 0) ∧
    inWindow Config.default ((start Config.default 0x0000B183 0x80000FF8 0).x 1 + 0) 8 = true ∧
    Fetches (start Config.default 0x0000B183 0x80000FF9 0) (.ld 3 1 0) ∧
    inWindow Config.default ((start Config.default 0x0000B183 0x80000FF9 0).x 1 + 0) 8 = false ∧
    Mnemonic.ld ∈ Config.default.implemented ∧ Mnemonic.ld ∉ Mnemonic.neverImplemented ∧
    (Instr.ld 3 1 0).access? = some (1, 0, 8) ∧ (Instr.addi 5 0 5).access? = none :=
  ⟨fetches_of (by decide), by decide, fetches_of (by decide), by decide, by decide, by decide, by decide, by decide⟩

/-- HaltingIsMonotonic: a run of one step that ends halted. -/
theorem witness_monotonic : Host.Core.run core 1 State.reset = .next (State.reset.halt (.notImplemented (.unknown 0))) ∧
    (State.reset.halt (.notImplemented (.unknown 0))).running = false := ⟨rfl, rfl⟩

/-- HaltsArePrecise and StepKeepsInv: a step that halts without a store, and a store that fails. -/
theorem witness_haltsPrecise : State.reset.running = true ∧
    step State.reset = .next (State.reset.halt (.notImplemented (.unknown 0))) ∧
    haltsWith (step (start Config.default 0x0020B023 0x80000FFC 0x1122334455667788)) (.writeFailed 0x80000FFC) = true :=
  ⟨rfl, rfl, by decide⟩

/-- InstructionFrame, StepKeepsConfig, PcAlignment: an instruction that completes in sequence, a store and a transfer. -/
theorem witness_frame :
    exec (.addi 5 0 5) State.reset = .next (State.reset.setX 5 5).sequential ∧ (Instr.addi 5 0 5).dest? ≠ some 4 ∧
    (Instr.addi 5 0 5).isStore = false ∧ (Instr.addi 5 0 5).isTransfer = false ∧
    (State.reset.setX 5 5).sequential.running = true ∧ State.reset.pc.toNat % 4 = 0 ∧
    exec (.jal 0 8) State.reset = .next (State.reset.transfer 0x80000008) ∧ (Instr.jal 0 8).isTransfer = true :=
  ⟨rfl, by decide, rfl, rfl, rfl, by decide, rfl, rfl⟩

/-- StepKeepsInv, StepKeepsConfig: a state with the invariant that steps. -/
theorem witness_stepKeepsInv : (at0 0x00500293).Inv ∧ sees (step (at0 0x00500293)) 5 5 0x80000004 = true := by decide

/-- ConstructionMeetsInv and ConstructionState: an image that fills the window, a byte of it and a byte beyond a short one,
a window that ends at 2^64, and the two refusals by one. -/
theorem witness_construction :
    Config.wf { Config.default with size := 2 } ∧
    State.construct { Config.default with size := 2 } (Vector.replicate 31 0) [1, 2] =
      some (State.init { Config.default with size := 2 } (Vector.replicate 31 0) [1, 2]) ∧
    [(1 : Byte), 2].length ≤ 2 ∧ Config.default.base + 2 ≤ 2 ^ 64 ∧ 1 < [(1 : Byte), 2].length ∧
    [(1 : Byte)].length ≤ 1 ∧ 1 < 2 ∧ 2 < [(1 : Byte), 2, 3].length ∧
    Config.wf { Config.default with base := 2 ^ 64 - 0x1000 } ∧ 2 ^ 64 < (2 ^ 64 - 0x1000) + 0x1001 ∧
    (0 : Fin 31).val ≠ 1 ∧ (30 : Fin 31).val ≠ 1 := by decide

/-- ConstructionState and ConstructionPc: the last 64-bit BASE, and BASE = 2^64, where the window is empty. -/
theorem witness_constructionPc :
    (State.construct { Config.default with base := 2 ^ 64 - 1, size := 1 } (Vector.replicate 31 0) []).isSome = true ∧
    (State.construct { Config.default with base := 2 ^ 64, size := 0 } (Vector.replicate 31 0) []).map (fun s => s.pc) =
      some 0 := by decide

/-- PcAlignment, first part: a completing step under MISALIGNED_PC = Halt. -/
theorem witness_pcAlignment : (startPc .halt 0x80000FFC 0x00100293).cfg.misalignedPc = .halt ∧
    (startPc .halt 0x80000FFC 0x00100293).running = true ∧
    sees (step (startPc .halt 0x80000FFC 0x00100293)) 5 1 0x80001000 = true := by decide

/-- DrawsReachOnlyFailedStores: two states that differ in the counter alone, a step that completes and a store that fails. -/
theorem witness_draws :
    sees (step { at0 0x00500293 with draws := 7 }) 5 5 0x80000004 = true ∧
    haltsWith (step { start Config.default 0x0020B023 0x80000FFC 1 with draws := 7 }) (.writeFailed 0x80000FFC) = true := by
  decide

/-- RegisterPorts: two registers that are neither x0 nor each other. -/
theorem witness_registerPorts : (31 : RegIdx) ≠ 0 ∧ (1 : RegIdx) ≠ 31 := by decide

/-- BoundsCheck, ObserverDump: the last access of each width that passes, and the first that does not. -/
theorem witness_bounds :
    inWindow Config.default 0x80000FFF 1 = true ∧ inWindow Config.default 0x80000FF8 8 = true ∧
    inWindow Config.default 0x80000000 0x1000 = true ∧ inWindow Config.default 0x80000FF9 8 = false ∧
    inWindow Config.default 0x7FFFFFFF 1 = false ∧ inWindow { Config.default with size := 0 } 0x80000000 1 = false :=
  by decide

/-- MixedWidthReadBack: the last doubleword of the window, its last byte and all of it. -/
theorem witness_mixedWidth : Config.wf State.reset.cfg ∧ inWindow State.reset.cfg 0x80000FF8 8 = true ∧
    0 < 1 ∧ 7 + 1 ≤ 8 ∧ 0 < 8 ∧ 0 + 8 ≤ 8 := by decide

/-- FetchSeesTheStore: an SW that completes, at an aligned address under Halt and at an odd one under Fetch. -/
theorem witness_fetchSees :
    sees (exec (.sw 1 2 0) (start Config.default 0x0020A023 0x80000101 7)) 3 0xDEAD 0x80000004 = true ∧
    ((start Config.default 0x0020A023 0x80000101 7).cfg.misalignedPc = .fetch) := by decide

/-- Loads, StoreInstructions, StoreThenLoad: the last address of each width that is inside, the first that is outside, and
the one below BASE. -/
theorem witness_access_bounds : ∀ n ∈ [1, 2, 4, 8],
    (Config.default.base ≤ 0x80001000 - n ∧ 0x80001000 - n - Config.default.base + n ≤ Config.default.size) ∧
    Config.default.size < 0x80001000 - n + 1 - Config.default.base + n ∧ 0x7FFFFFFF < Config.default.base := by decide

theorem witness_storeThenLoad :
    inWindow State.reset.cfg (State.reset.x 2 + (-8)) 8 = true ∧ inWindow State.reset.cfg (State.reset.x 2 + (-7)) 8 = false := by
  decide

/-- DivisionTable: the overflow operands at both widths, a zero divisor, and operands of neither kind. -/
theorem witness_division :
    (BitVec.intMin 32).toInt = -2 ^ (32 - 1) ∧ (-1 : BitVec 32).toInt = -1 ∧ (BitVec.intMin 64).toInt = -2 ^ (64 - 1) ∧
    (-1 : BitVec 64).toInt = -1 ∧ (0 : BitVec 32) = 0 ∧ (2 : BitVec 64) ≠ 0 ∧
    ¬((-7 : BitVec 64).toInt = -2 ^ (64 - 1) ∧ (2 : BitVec 64).toInt = -1) := by decide

/-- EnvironmentCalls and CsrInstructions: steps that fetch them, every backlog mnemonic enabled. -/
theorem witness_system : Fetches (start Config.allEnabled 0x00000073 7 9) .ecall ∧
    Fetches (start Config.allEnabled 0x00100073 7 9) .ebreak ∧
    Fetches (start Config.allEnabled 0xF14020F3 7 9) (.csrrs 1 0 (-236)) ∧
    Fetches (start Config.allEnabled 0x30047073 7 9) (.csrrci 0 8 768) ∧
    (start Config.allEnabled 0x00000073 7 9).running = true :=
  ⟨fetches_of (by decide), fetches_of (by decide), fetches_of (by decide), fetches_of (by decide), by decide⟩

/-- CsrSymbolicTable: a number beside the three. -/
theorem witness_csrTable : (0x302 : BitVec 12) ≠ 0x300 ∧ (0x302 : BitVec 12) ≠ 0x301 ∧ (0x302 : BitVec 12) ≠ 0xF14 :=
  by decide

/-- PseudoParts: the ends of its two ranges, and a register that is not x0. -/
theorem witness_pseudoParts :
    -2 ^ 31 ≤ (-2147483648 : Word).toInt ∧ (-2147483648 : Word).toInt ≤ 2 ^ 31 - 2049 ∧
    (2147481599 : Word).toInt ≤ 2 ^ 31 - 2049 ∧ (2147483647 : Word).toInt < 2 ^ 31 ∧ (5 : RegIdx) ≠ 0 := by decide

end Sys2Proof.Tests
end

