-- ==== Sys2Proof/Proofs/State.lean ====
section
/-!
PROOFS. The register ports (spec/10_state.md R22, R23) and what construction leaves (spec/10_state.md R25, R28, R33, R34;
spec/70_reset_and_hazards.md R310, R311).
-/

namespace Sys2Proof.Machine

/-! ### The register ports -/

/-- A write to x0 is discarded (R23). -/
@[simp] theorem State.setX_zero (s : State) (v : Word) : s.setX 0#5 v = s := rfl

/-- A written register other than x0 reads the value written. -/
theorem State.x_setX_self (s : State) {i : RegIdx} (v : Word) (hi : i ≠ 0) : (s.setX i v).x i = v := by
  rw [State.x_setX, if_pos ⟨rfl, hi⟩]

/-- A write leaves what the other registers read. -/
theorem State.x_setX_of_ne (s : State) {i j : RegIdx} (v : Word) (hj : j ≠ i) : (s.setX i v).x j = s.x j := by
  rw [State.x_setX, if_neg fun h => hj h.1]

/-- A register write leaves every byte of memory. -/
theorem sameBytes_setX (s : State) (i : RegIdx) (v : Word) : SameBytes s (s.setX i v) :=
  State.byteAt_congr (s.setX_mem i v)

/-- A register write leaves the configuration, the running flag, the halt reason and the draw counter. -/
theorem sameControl_setX (s : State) (i : RegIdx) (v : Word) : SameControl s (s.setX i v) :=
  ⟨s.setX_cfg i v, s.setX_running i v, s.setX_haltReason i v, s.setX_draws i v⟩

/-- Settles O27: the read port after the write port, and the write port's frame. -/
theorem registerPorts : Obligations.RegisterPorts := fun s =>
  ⟨s.x_zero, s.setX_zero, fun i v hi =>
    ⟨s.x_setX_self v hi, fun _ hj => s.x_setX_of_ne v hj, s.setX_pc i v, sameBytes_setX s i v, sameControl_setX s i v⟩⟩

/-! ### The registers and bytes construction leaves -/

/-- The read port of x1 to x31 gives the register's slot, x1's being slot 0. -/
theorem State.x_succ (s : State) (i : Fin 31) : s.x (BitVec.ofNat 5 (i.val + 1)) = s.regs[i] := by
  have hn : (BitVec.ofNat 5 (i.val + 1)).toNat = i.val + 1 := by
    rw [BitVec.toNat_ofNat]
    omega
  have h0 : BitVec.ofNat 5 (i.val + 1) ≠ 0 := fun h => by simp [h] at hn
  unfold State.x
  rw [dif_neg h0]
  simp only [hn, Nat.add_sub_cancel]
  rfl

section Init

variable (cfg : Config) (regInit : Vector Word 31) (image : List Byte)

@[simp] theorem State.init_regs :
    (State.init cfg regInit image).regs = regInit.set 1 (BitVec.ofNat 64 (cfg.base + cfg.size)) := rfl

/-- After construction x2 is BASE + SIZE modulo 2^64 (R25). -/
theorem State.init_x_two : (State.init cfg regInit image).x 2 = BitVec.ofNat 64 (cfg.base + cfg.size) :=
  (State.x_succ _ 1).trans (Vector.getElem_set_self (by decide))

/-- After construction every register but x0 and x2 holds its REG_INIT (R34). -/
theorem State.init_x_succ (i : Fin 31) (hi : i.val ≠ 1) :
    (State.init cfg regInit image).x (BitVec.ofNat 5 (i.val + 1)) = regInit[i] :=
  (State.x_succ _ i).trans (Vector.getElem_set_ne (by decide) i.isLt hi.symm)

/-- After construction the byte at offset o is the image's, and 0 beyond the image's end (R33). -/
theorem State.init_byteAt (o : Nat) :
    (State.init cfg regInit image).byteAt (cfg.base + o) = (image[o]?).getD 0 := by
  rw [State.byteAt_eq, State.init_mem, Memory.read_ofImage]

/-- Where BASE is a 64-bit value, pc after construction is BASE (R28). -/
theorem State.init_pc_toNat (h : cfg.base < 2 ^ 64) : (State.init cfg regInit image).pc.toNat = cfg.base := by
  rw [State.init_pc, BitVec.toNat_ofNat, Nat.mod_eq_of_lt h]

/-! ### When construction is refused (R311) -/

theorem State.construct_of_fits (hi : image.length ≤ cfg.size) (hw : cfg.base + cfg.size ≤ 2 ^ 64) :
    State.construct cfg regInit image = some (State.init cfg regInit image) := if_pos ⟨hi, hw⟩

theorem State.construct_eq_none (h : cfg.size < image.length ∨ 2 ^ 64 < cfg.base + cfg.size) :
    State.construct cfg regInit image = none := if_neg (by omega)

end Init

/-- Settles O21: construction is refused where its preconditions fail, and else leaves `State.init`, whose fields, registers
and bytes the lemmas above give one by one. -/
theorem constructionState : Obligations.ConstructionState := by
  intro cfg regInit image
  refine ⟨State.construct_eq_none cfg regInit image, fun hi hw =>
    ⟨State.init cfg regInit image, State.construct_of_fits cfg regInit image hi hw, ?_⟩⟩
  have beyond (o : Nat) (ho : image.length ≤ o) : (State.init cfg regInit image).byteAt (cfg.base + o) = 0 := by
    rw [State.init_byteAt, List.getElem?_eq_none ho, Option.getD_none]
  exact ⟨State.init_cfg .., State.init_pc_toNat cfg regInit image, State.init_running .., State.init_haltReason ..,
    fun o _ => State.init_byteAt cfg regInit image o, fun o ho _ => beyond o ho, State.x_zero _,
    State.init_x_two cfg regInit image, State.init_x_succ cfg regInit image⟩

end Sys2Proof.Machine
end

