-- ==== Sys2Proof/Proofs/Memory.lean ====
section
/-!
PROOFS. The bounds check (spec/20_memory.md R44).
-/

namespace Sys2Proof.Machine

variable {c : Config} {a : Word} {n : Nat}

/-- An access passes exactly when its bytes all lie in the window (R41, R44). Its first and last byte decide; an access of 0
bytes has neither, so the bytes say nothing about it. -/
theorem inWindow_iff_forall_byte (hn : 0 < n) :
    inWindow c a n = true ↔ ∀ k < n, c.base ≤ a.toNat + k ∧ a.toNat + k < c.base + c.size := by
  rw [inWindow_iff_bounds]
  constructor
  · rintro ⟨hlo, hhi⟩ k hk
    omega
  · intro h
    have hfirst := h 0 hn
    have hlast := h (n - 1) (by omega)
    omega

/-- With SIZE = 0 the window has no byte, so no access of n > 0 bytes passes (R44). -/
theorem inWindow_eq_false_of_size_zero (hn : 0 < n) (hs : c.size = 0) : inWindow c a n = false := by
  rw [Bool.eq_false_iff, Ne, inWindow_iff]
  omega

/-- Settles O28: the check is R44's pair of exact inequalities, its access's bytes decide it, and an empty window passes
none. -/
theorem boundsCheck : Obligations.BoundsCheck := fun _ _ _ =>
  ⟨inWindow_iff, inWindow_iff_forall_byte, inWindow_eq_false_of_size_zero⟩

end Sys2Proof.Machine
end

