-- ==== Sys2Proof/Proofs/Encoding.lean ====
section
/-!
PROOFS. The fields, the immediates and the SYSTEM words of the decoder (spec/30_encoding.md R61, R63 to R67, R81).
-/

namespace Sys2Proof

/-! ### A sign-extended field as an integer -/

section Sext

variable {m n : Nat}

/-- A sign-extended field is its number, read as signed n bits. -/
theorem toInt_sext_of_toNat {v : BitVec n} {k : Int} (h : n ≤ 64) (hk : (v.toNat : Int) = k) :
    (v.signExtend 64).toInt = Int.bmod k (2 ^ n) := by
  rw [toInt_sext64 v h, BitVec.toInt_eq_toNat_bmod, hk]

theorem le_toInt_sext (v : BitVec n) (h : n ≤ 64) : -2 ^ (n - 1) ≤ (v.signExtend 64).toInt := by
  rw [toInt_sext64 v h]
  exact v.le_toInt

theorem toInt_sext_lt (v : BitVec n) (h : n ≤ 64) : (v.signExtend 64).toInt < 2 ^ (n - 1) := by
  rw [toInt_sext64 v h]
  exact v.toInt_lt

/-- n zeros below a field make its signed reading a multiple of 2^n: the number is one, and so is the modulus. -/
theorem dvd_toInt_sext_append_zero (x : BitVec m) (h : m + n ≤ 64) :
    (2 ^ n : Int) ∣ ((x ++ 0#n).signExtend 64).toInt := by
  have hnumber : (2 ^ n : Int) ∣ ((x.toNat * 2 ^ n + (0#n).toNat : Nat) : Int) := by simp
  have hmodulus : (2 ^ n : Int) ∣ ((2 ^ (m + n) : Nat) : Int) := by simp [pow_add]
  rw [toInt_sext64 _ h, BitVec.toInt_eq_toNat_bmod, toNat_append_eq, Int.bmod_eq_self_sub_mul_bdiv]
  exact dvd_sub hnumber (hmodulus.mul_right _)

end Sext

/-! ### The immediates as integers (R63 to R67) -/

section Immediates

variable (w : InstrWord)

theorem immI_toInt : (immI w).toInt = Int.bmod (w.toNat / 2 ^ 20) (2 ^ 12) := by
  refine toInt_sext_of_toNat (by decide) ?_
  have := w.isLt
  rw [toNat_field]
  omega

theorem immS_toInt :
    (immS w).toInt = Int.bmod (w.toNat / 2 ^ 25 * 2 ^ 5 + w.toNat / 2 ^ 7 % 2 ^ 5) (2 ^ 12) := by
  refine toInt_sext_of_toNat (by decide) ?_
  have := w.isLt
  rw [toNat_append_eq, toNat_field, toNat_field]
  omega

theorem immB_toInt : (immB w).toInt =
    Int.bmod (w.toNat / 2 ^ 31 * 2 ^ 12 + w.toNat / 2 ^ 7 % 2 * 2 ^ 11 + w.toNat / 2 ^ 25 % 2 ^ 6 * 2 ^ 5 +
      w.toNat / 2 ^ 8 % 2 ^ 4 * 2) (2 ^ 13) := by
  refine toInt_sext_of_toNat (by decide) ?_
  have := w.isLt
  simp only [toNat_append_eq, toNat_field, BitVec.toNat_ofNat]
  push_cast
  omega

theorem immU_toInt : (immU w).toInt = Int.bmod (w.toNat / 2 ^ 12 * 2 ^ 12) (2 ^ 32) := by
  refine toInt_sext_of_toNat (by decide) ?_
  have := w.isLt
  rw [toNat_append_eq, toNat_field, BitVec.toNat_ofNat]
  omega

theorem immJ_toInt : (immJ w).toInt =
    Int.bmod (w.toNat / 2 ^ 31 * 2 ^ 20 + w.toNat / 2 ^ 12 % 2 ^ 8 * 2 ^ 12 + w.toNat / 2 ^ 20 % 2 * 2 ^ 11 +
      w.toNat / 2 ^ 21 % 2 ^ 10 * 2) (2 ^ 21) := by
  refine toInt_sext_of_toNat (by decide) ?_
  have := w.isLt
  simp only [toNat_append_eq, toNat_field, BitVec.toNat_ofNat]
  push_cast
  omega

/-- The low 12 bits of the U immediate are zero (R66). -/
theorem immU_toNat_mod : (immU w).toNat % 2 ^ 12 = 0 := by
  have h : (2 ^ 12 : Int) ∣ (immU w).toInt := dvd_toInt_sext_append_zero (w.extractLsb' 12 20) (by decide)
  rw [BitVec.toInt_eq_toNat_cond] at h
  omega

theorem immB_even : (immB w).toInt % 2 = 0 :=
  Int.emod_eq_zero_of_dvd (dvd_toInt_sext_append_zero (n := 1) _ (by decide))

theorem immJ_even : (immJ w).toInt % 2 = 0 :=
  Int.emod_eq_zero_of_dvd (dvd_toInt_sext_append_zero (n := 1) _ (by decide))

theorem immI_range : -2048 ≤ (immI w).toInt ∧ (immI w).toInt ≤ 2047 := by
  have hlo : -2048 ≤ (immI w).toInt := le_toInt_sext (n := 12) _ (by decide)
  have hhi : (immI w).toInt < 2048 := toInt_sext_lt (n := 12) _ (by decide)
  omega

theorem immS_range : -2048 ≤ (immS w).toInt ∧ (immS w).toInt ≤ 2047 := by
  have hlo : -2048 ≤ (immS w).toInt := le_toInt_sext (n := 7 + 5) _ (by decide)
  have hhi : (immS w).toInt < 2048 := toInt_sext_lt (n := 7 + 5) _ (by decide)
  omega

/-- The B immediate's top is 4094 because it is even (R65). -/
theorem immB_range : -4096 ≤ (immB w).toInt ∧ (immB w).toInt ≤ 4094 := by
  have hlo : -4096 ≤ (immB w).toInt := le_toInt_sext (n := 1 + 1 + 6 + 4 + 1) _ (by decide)
  have hhi : (immB w).toInt < 4096 := toInt_sext_lt (n := 1 + 1 + 6 + 4 + 1) _ (by decide)
  have heven := immB_even w
  omega

/-- The J immediate's top is 1048574 because it is even (R67). -/
theorem immJ_range : -1048576 ≤ (immJ w).toInt ∧ (immJ w).toInt ≤ 1048574 := by
  have hlo : -1048576 ≤ (immJ w).toInt := le_toInt_sext (n := 1 + 8 + 1 + 10 + 1) _ (by decide)
  have hhi : (immJ w).toInt < 1048576 := toInt_sext_lt (n := 1 + 8 + 1 + 10 + 1) _ (by decide)
  have heven := immJ_even w
  omega

end Immediates

/-- Settles O3: the I and U immediates as integers, and the worked examples of R63 and R66, evaluated. -/
theorem immediatesIAndU : Obligations.ImmediatesIAndU := by
  refine ⟨fun w => ?_, by decide⟩
  obtain ⟨hlo, hhi⟩ := immI_range w
  exact ⟨immI_toInt w, hlo, hhi, immU_toInt w, immU_toNat_mod w⟩

/-- Settles O4: the S and J immediates as integers. -/
theorem immediatesSAndJ : Obligations.ImmediatesSAndJ := fun w =>
  have ⟨hloS, hhiS⟩ := immS_range w
  ⟨immS_toInt w, hloS, hhiS, immJ_toInt w, immJ_even w, immJ_range w⟩

/-! ### The B immediate from the S immediate, bit by bit (R65) -/

/-- R65's derivation: S[0] = w[7], S[4:1] = w[11:8], S[10:5] = w[30:25], and every higher bit of S is w[31]. -/
theorem getLsbD_immS (w : InstrWord) {i : Nat} (hi : i < 64) : (immS w).getLsbD i =
    if i < 5 then w.getLsbD (7 + i) else if i < 11 then w.getLsbD (20 + i) else w.getLsbD 31 := by
  rw [immS, BitVec.getLsbD_signExtend, BitVec.msb_append, BitVec.msb_extractLsb']
  simp only [BitVec.getLsbD_append, BitVec.getLsbD_extractLsb']
  grind

/-- R65's layout: B[0] = 0, B[4:1] = w[11:8], B[10:5] = w[30:25], B[11] = w[7], and every higher bit of B is w[31]. -/
theorem getLsbD_immB (w : InstrWord) {i : Nat} (hi : i < 64) : (immB w).getLsbD i =
    if i = 0 then false else if i < 5 then w.getLsbD (7 + i) else if i < 11 then w.getLsbD (20 + i)
      else if i = 11 then w.getLsbD 7 else w.getLsbD 31 := by
  rw [immB, BitVec.getLsbD_signExtend]
  simp only [BitVec.msb_append, BitVec.msb_extractLsb', BitVec.getLsbD_append, BitVec.getLsbD_extractLsb']
  grind

/-- The mask 0x801 is bits 0 and 11. -/
theorem getLsbD_mask801 : ∀ i < 64, (0x801#64).getLsbD i = decide (i = 0 ∨ i = 11) := by decide

/-- Bits 0 and 11 cleared and bit 0 put into bit 11: the source's step from the S pattern to the B immediate. -/
theorem getLsbD_moveBitZeroToEleven (x : Word) {i : Nat} (hi : i < 64) :
    (x &&& ~~~(0x801#64) ||| (x &&& 1#64) <<< 11).getLsbD i =
      if i = 0 then false else if i = 11 then x.getLsbD 0 else x.getLsbD i := by
  simp only [BitVec.getLsbD_or, BitVec.getLsbD_and, BitVec.getLsbD_not, BitVec.getLsbD_shiftLeft, BitVec.getLsbD_one,
    getLsbD_mask801 i hi]
  by_cases h0 : i = 0
  · simp [h0]
  by_cases h11 : i = 11
  · simp [h11]
  · simp [h0, h11, hi]
    omega

/-- The two agree at bit 0, at bit 11 and at every other bit. -/
theorem immB_eq_immS_moved (w : InstrWord) :
    immB w = immS w &&& ~~~(0x801#64) ||| (immS w &&& 1#64) <<< 11 := by
  refine BitVec.eq_of_getLsbD_eq fun i hi => ?_
  rw [getLsbD_moveBitZeroToEleven _ hi, getLsbD_immB w hi, getLsbD_immS w hi, getLsbD_immS w (by decide)]
  by_cases h0 : i = 0
  · simp [h0]
  by_cases h11 : i = 11
  · simp [h11]
  · simp [h0, h11]

/-- Settles O5: the B immediate as an integer, and its bits against those built from the S immediate. -/
theorem immediateB : Obligations.ImmediateB := fun w =>
  have ⟨hlo, hhi⟩ := immB_range w
  ⟨immB_toInt w, immB_even w, hlo, hhi, immB_eq_immS_moved w⟩

/-! ### SYSTEM words (R81) -/

theorem decode_of_system {w : InstrWord} (ho : opcodeOf w = 0x73#7) : decode w = decodeSystem w := by
  rw [decode, ho]
  rfl

/-- With funct3 = 0 only the two exact words are recognised. -/
theorem decodeSystem_of_funct3_zero {w : InstrWord} (h : funct3Of w = 0#3) :
    decodeSystem w = if w = 0x00000073#32 then .ecall else if w = 0x00100073#32 then .ebreak else .unknown w := by
  rw [decodeSystem, h]
  rfl

/-- With another funct3 the word is neither exact word, whose funct3 is 0, and funct3 alone decides. -/
theorem decodeSystem_of_funct3_ne_zero {w : InstrWord} {f : BitVec 3} (hf : f ≠ 0#3) (h : funct3Of w = f) :
    decodeSystem w =
      if f = 1#3 then .csrrw (rdOf w) (rs1Of w) (immI w)
      else if f = 2#3 then .csrrs (rdOf w) (rs1Of w) (immI w)
      else if f = 3#3 then .csrrc (rdOf w) (rs1Of w) (immI w)
      else if f = 5#3 then .csrrwi (rdOf w) (rs1Of w) (immI w)
      else if f = 6#3 then .csrrsi (rdOf w) (rs1Of w) (immI w)
      else if f = 7#3 then .csrrci (rdOf w) (rs1Of w) (immI w)
      else .unknown w := by
  have hne (v : InstrWord) (hv : funct3Of v = 0#3) : w ≠ v := fun hw => hf (by rw [← h, hw, hv])
  rw [decodeSystem, if_neg (hne _ (by decide)), if_neg (hne _ (by decide)), h]

/-- Settles O11: the clause of funct3 = 0, and the seven values of the clause for every other funct3. -/
theorem systemDecoding : Obligations.SystemDecoding := by
  intro w ho
  rw [decode_of_system ho]
  have csr {f : BitVec 3} (hf : f ≠ 0#3) (h : funct3Of w = f) := decodeSystem_of_funct3_ne_zero hf h
  exact ⟨decodeSystem_of_funct3_zero, csr (by decide), csr (by decide), csr (by decide), csr (by decide),
    csr (by decide), csr (by decide), csr (by decide)⟩

/-- Settles O2: the numbers of the six fields. -/
theorem fieldsAreTheirBits : Obligations.FieldsAreTheirBits := fun w =>
  ⟨opcodeOf_toNat w, rdOf_toNat w, funct3Of_toNat w, rs1Of_toNat w, rs2Of_toNat w, funct7Of_toNat w⟩

end Sys2Proof
end

