-- ==== Sys2Proof/Proofs/Execution.lean ====
section
/-!
PROOFS. Halting (spec/40_execution_cycle.md R114): a run goes on from the state its first steps reach, and a halted machine
is a fixed point of the step.
-/

namespace Sys2Proof.Machine

/-! ### Runs cut in two -/

/-- A run of at least one step that ends in a state: its first step answers a state, and the rest of the run goes on from
there. -/
theorem step_of_run_succ {k : Nat} {s t : State} (h : Host.Core.run core (k + 1) s = .next t) :
    ∃ s', step s = .next s' ∧ Host.Core.run core k s' = .next t := by
  cases hs : step s with
  | next s' => exact ⟨s', rfl, run_succ hs k ▸ h⟩
  | fault r => simp [Host.Core.run, show core.step s = .fault r from hs] at h
  | refused r => simp [Host.Core.run, show core.step s = .refused r from hs] at h

/-- A run that reaches t after j steps goes on from t. -/
theorem run_add {j : Nat} {s t : State} (h : Host.Core.run core j s = .next t) (k : Nat) :
    Host.Core.run core (j + k) s = Host.Core.run core k t := by
  induction j generalizing s with
  | zero =>
    obtain rfl : s = t := Host.Outcome.next.inj h
    rw [Nat.zero_add]
  | succ j ih =>
    obtain ⟨s', hs, hr⟩ := step_of_run_succ h
    rw [Nat.add_right_comm, run_succ hs, ih hr]

/-! ### Halted machines (R114) -/

/-- The only case of a step open to a halted machine is the one that changes nothing. -/
theorem step_of_halted {s : State} (h : s.running = false) : step s = .next s := by
  rcases step_cases s with ⟨-, hs⟩ | ⟨hr, -⟩ | ⟨hr, -⟩ | ⟨hr, -⟩
  · exact hs
  all_goals simp [h] at hr

theorem run_of_halted {s : State} (h : s.running = false) (k : Nat) : Host.Core.run core k s = .next s := by
  induction k with
  | zero => rfl
  | succ k ih => rw [run_succ (step_of_halted h), ih]

/-- Settles O14: a halted state is a fixed point of the step, and a run that reaches one stays there. -/
theorem haltingIsMonotonic : Obligations.HaltingIsMonotonic :=
  ⟨fun _ => step_of_halted, fun _ k _ _ hrun hhalted => (run_add hrun k).trans (run_of_halted hhalted k)⟩

end Sys2Proof.Machine
end

