-- ==== Sys2Proof/Proofs/Rows.lean ====
section
/-!
PROOFS. The rows of the opcode table (spec/30_encoding.md R92) as the decoder sees them: a row's masked bits fix the fields its
mask keeps, and the decoder dispatches on those fields (R70 to R77).
-/

namespace Sys2Proof

open Machine

/-! ### A row decodes as its fields do -/

section Masks

variable {f : InstrWord → Instr} (f7 : BitVec 7) (f3 : BitVec 3) (op : BitVec 7)

theorem rowDecodes_maskR
    (h : ∀ w, funct7Of w = f7 → funct3Of w = f3 → opcodeOf w = op → decode w = f w) :
    RowDecodes 0xFE00707F#32 (encodeR f7 0 0 f3 0 op) f := fun w hw =>
  have ⟨h7, h3, ho⟩ := (and_maskR_iff w f7 f3 op).1 hw
  h w h7 h3 ho

theorem rowDecodes_maskI (h : ∀ w, funct3Of w = f3 → opcodeOf w = op → decode w = f w) :
    RowDecodes 0x0000707F#32 (encodeR 0 0 0 f3 0 op) f := fun w hw =>
  have ⟨h3, ho⟩ := (and_maskI_iff w f3 op).1 hw
  h w h3 ho

theorem rowDecodes_maskU (h : ∀ w, opcodeOf w = op → decode w = f w) :
    RowDecodes 0x0000007F#32 (encodeR 0 0 0 0 0 op) f := fun w hw =>
  h w ((and_maskU_iff w op).1 hw)

end Masks

/-! ### The dispatch on the opcode and on OP's funct7 (R71, R77) -/

section Dispatch

variable {w : InstrWord}

theorem decode_of_op (ho : opcodeOf w = 0x33#7) : decode w = decodeOp w := by
  rw [decode, ho]
  rfl

theorem decode_of_opImm (ho : opcodeOf w = 0x13#7) : decode w = decodeOpImm w := by
  rw [decode, ho]
  rfl

theorem decode_of_lui (ho : opcodeOf w = 0x37#7) : decode w = .lui (rdOf w) (immU w) := by
  rw [decode, ho]
  rfl

theorem decode_of_auipc (ho : opcodeOf w = 0x17#7) : decode w = .auipc (rdOf w) (immU w) := by
  rw [decode, ho]
  rfl

theorem decodeOp_of_base (h7 : funct7Of w = 0x00#7) : decodeOp w = decodeOpBase w := by
  rw [decodeOp, h7]
  rfl

theorem decodeOp_of_alt (h7 : funct7Of w = 0x20#7) : decodeOp w = decodeOpAlt w := by
  rw [decodeOp, h7]
  rfl

end Dispatch

/-! ### The rows of OP and OP-IMM, by funct3 alone (R75, R77) -/

section Rows

variable {f : InstrWord → Instr} (f3 : BitVec 3)

theorem rowDecodes_opBase (h : ∀ w, funct3Of w = f3 → decodeOpBase w = f w) :
    RowDecodes 0xFE00707F#32 (encodeR 0x00#7 0 0 f3 0 0x33#7) f :=
  rowDecodes_maskR _ _ _ fun w h7 h3 ho => by rw [decode_of_op ho, decodeOp_of_base h7, h w h3]

theorem rowDecodes_opAlt (h : ∀ w, funct3Of w = f3 → decodeOpAlt w = f w) :
    RowDecodes 0xFE00707F#32 (encodeR 0x20#7 0 0 f3 0 0x33#7) f :=
  rowDecodes_maskR _ _ _ fun w h7 h3 ho => by rw [decode_of_op ho, decodeOp_of_alt h7, h w h3]

theorem rowDecodes_opImm (h : ∀ w, funct3Of w = f3 → decodeOpImm w = f w) :
    RowDecodes 0x0000707F#32 (encodeR 0 0 0 f3 0 0x13#7) f :=
  rowDecodes_maskI _ _ fun w h3 ho => by rw [decode_of_opImm ho, h w h3]

end Rows

end Sys2Proof
end

