-- ==== Sys2Proof/Proofs/IntegerAlu.lean ====
section
/-!
PROOFS. Integer arithmetic, logic and upper immediates (spec/41_integer_alu.md R130 to R144). Each instruction is one
write-back, so its frame is the write-back's, and what is left to show is its result in exact arithmetic.
-/

namespace Sys2Proof.Machine

/-! ### Results in exact arithmetic -/

/-- The difference wraps modulo 2^64 (R131). -/
theorem sub_eq_ofInt (a b : Word) : a - b = BitVec.ofInt 64 (a.toNat - b.toNat) := by
  refine BitVec.eq_of_toNat_eq ?_
  rw [BitVec.toNat_sub, BitVec.toNat_ofInt]
  omega

/-- The signed comparison's flag (R132, R138). -/
theorem flagWord_lessSigned (a b : Word) : flagWord (lessSigned a b) = if a.toInt < b.toInt then 1 else 0 := by
  rw [lessSigned_eq, flagWord_decide]

/-- The unsigned comparison's flag (R133, R139). -/
theorem flagWord_lessUnsigned (a b : Word) : flagWord (lessUnsigned a b) = if a.toNat < b.toNat then 1 else 0 := by
  rw [lessUnsigned_eq, flagWord_decide]

/-- The U immediate is the word's upper 20 bits over twelve zeros, widened from bit 31 (R66, R143). -/
theorem immU_eq_sextInt (w : InstrWord) : immU w = sextInt 32 (w.toNat / 2 ^ 12 * 2 ^ 12) := by
  rw [sextInt, ← immU_toInt, BitVec.ofInt_toInt]

/-! ### The instructions -/

/-- An instruction whose meaning is the write-back of v completes with v, in the form v' that a statement gives it. -/
theorem writes_of_exec_eq {i : Instr} {s : State} {rd : RegIdx} {v v' : Word}
    (hexec : exec i s = writeBack rd v s) (hv : v = v') : Writes (exec i s) s rd v' (s.pc + 4) := by
  rw [hexec, ← hv]
  exact writes_writeBack rd v s

/-- Settles O32: funct7 and funct3 pick the row of OP, and each instruction is the write-back of its result. -/
theorem registerArithmetic : Obligations.RegisterArithmetic := by
  refine ⟨rowDecodes_opBase 0 fun w h3 => ?_, rowDecodes_opAlt 0 fun w h3 => ?_, rowDecodes_opBase 2 fun w h3 => ?_,
    rowDecodes_opBase 3 fun w h3 => ?_, rowDecodes_opBase 4 fun w h3 => ?_, rowDecodes_opBase 6 fun w h3 => ?_,
    rowDecodes_opBase 7 fun w h3 => ?_, fun rd rs1 rs2 s =>
      ⟨writes_of_exec_eq rfl (BitVec.add_def ..), writes_of_exec_eq rfl (sub_eq_ofInt ..),
        writes_of_exec_eq rfl (flagWord_lessSigned ..), writes_of_exec_eq rfl (flagWord_lessUnsigned ..),
        writes_writeBack rd _ s, writes_writeBack rd _ s, writes_writeBack rd _ s⟩⟩
  -- a row's funct3 picks one branch of the sub-decoder
  all_goals simp [decodeOpBase, decodeOpAlt, h3]

/-- Settles O33: funct3 picks the row of OP-IMM, and each instruction is the write-back of its result. -/
theorem immediateArithmetic : Obligations.ImmediateArithmetic := by
  refine ⟨rowDecodes_opImm 0 fun w h3 => ?_, rowDecodes_opImm 2 fun w h3 => ?_, rowDecodes_opImm 3 fun w h3 => ?_,
    rowDecodes_opImm 4 fun w h3 => ?_, rowDecodes_opImm 6 fun w h3 => ?_, rowDecodes_opImm 7 fun w h3 => ?_,
    fun rd rs1 imm s =>
      ⟨writes_of_exec_eq rfl (BitVec.add_def ..), writes_of_exec_eq rfl (flagWord_lessSigned ..),
        writes_of_exec_eq rfl (flagWord_lessUnsigned ..), writes_writeBack rd _ s, writes_writeBack rd _ s,
        writes_writeBack rd _ s⟩⟩
  -- a row's funct3 picks one branch of the sub-decoder
  all_goals simp [decodeOpImm, h3]

/-- Settles O34: the opcode picks the row, the U immediate is its number, and each instruction is the write-back of its
result. -/
theorem upperImmediates : Obligations.UpperImmediates :=
  ⟨rowDecodes_maskU 0x37 fun w ho => by rw [decode_of_lui ho, immU_eq_sextInt],
    rowDecodes_maskU 0x17 fun w ho => by rw [decode_of_auipc ho, immU_eq_sextInt],
    fun rd _ s => ⟨writes_writeBack rd _ s, writes_of_exec_eq rfl (BitVec.add_def ..), by decide, by decide⟩⟩

end Sys2Proof.Machine
end

