-- ==== Sys2Proof/Proofs/LoadsStores.lean ====
section
/-!
PROOFS. Loads and stores (spec/42_loads_stores.md R160 to R173). Each instruction is the shared load or store at its width, so
its frame and its halt are theirs, and what is left to show is the bounds check and the loaded value in exact arithmetic.
-/

namespace Sys2Proof

open Machine

/-! ### The rows of LOAD and STORE, by funct3 alone (R72, R73) -/

section Rows

variable {w : InstrWord} {f : InstrWord → Instr} (f3 : BitVec 3)

theorem decode_of_opLoad (ho : opcodeOf w = 0x03#7) : decode w = decodeLoad w := by
  rw [decode, ho]
  rfl

theorem decode_of_opStore (ho : opcodeOf w = 0x23#7) : decode w = decodeStore w := by
  rw [decode, ho]
  rfl

theorem rowDecodes_opLoad (h : ∀ w, funct3Of w = f3 → decodeLoad w = f w) :
    RowDecodes 0x0000707F#32 (encodeR 0 0 0 f3 0 0x03#7) f :=
  rowDecodes_maskI _ _ fun w h3 ho => by rw [decode_of_opLoad ho, h w h3]

theorem rowDecodes_opStore (h : ∀ w, funct3Of w = f3 → decodeStore w = f w) :
    RowDecodes 0x0000707F#32 (encodeR 0 0 0 f3 0 0x23#7) f :=
  rowDecodes_maskI _ _ fun w h3 ho => by rw [decode_of_opStore ho, h w h3]

end Rows

end Sys2Proof

namespace Sys2Proof.Machine

variable {s : State} {rd rs1 rs2 : RegIdx} {imm ea : Word} {n : Nat}

/-! ### The access and the loaded value in exact arithmetic -/

/-- The address wraps modulo 2^64 (R160). -/
theorem effectiveAddress_eq_ofNat (s : State) (rs1 : RegIdx) (imm : Word) :
    effectiveAddress s rs1 imm = BitVec.ofNat 64 ((s.x rs1).toNat + imm.toNat) := BitVec.add_def ..

/-- An access fails below BASE or past the window's end (spec/20_memory.md R44). -/
theorem inWindow_eq_false_iff {c : Config} {a : Word} :
    inWindow c a n = false ↔ a.toNat < c.base ∨ c.size < a.toNat - c.base + n := by
  rw [Bool.eq_false_iff, Ne, inWindow_iff]
  omega

/-- The sign extension of a number cut to n bits (spec/00_scope.md R7). -/
theorem sextWord_ofNat (h : n ≤ 64) (k : Nat) : sextWord (BitVec.ofNat n k) = sextInt n k := by
  rw [sextInt, ← BitVec.toInt_ofNat', ← sextWord_toInt _ h, BitVec.ofInt_toInt]

theorem leValue_lt (s : State) (a n : Nat) : leValue s a n < 2 ^ (8 * n) := by
  rw [← readLE_eq_leValue]
  exact Memory.readLE_lt s.mem a n

/-- The zero extension of a loaded value is the number its bytes spell: n bytes hold no more than 8n bits. -/
theorem zextWord_leValue (h : 8 * n ≤ 64) (s : State) (a : Nat) :
    zextWord (BitVec.ofNat (8 * n) (leValue s a n)) = BitVec.ofNat 64 (leValue s a n) := by
  have hlt := leValue_lt s a n
  have hlt64 := hlt.trans_le (Nat.pow_le_pow_right Nat.two_pos h)
  refine BitVec.eq_of_toNat_eq ?_
  rw [zextWord_toNat _ h, BitVec.toNat_ofNat, BitVec.toNat_ofNat, Nat.mod_eq_of_lt hlt, Nat.mod_eq_of_lt hlt64]

/-! ### Both outcomes of an access -/

/-- A load of n bytes inside the window completes with v, in the form a statement gives its extended value; elsewhere it halts
with ReadFailed (R161). -/
theorem load_outcomes {i : Instr} {ext : BitVec (8 * n) → Word} {v : Word} (hea : effectiveAddress s rs1 imm = ea)
    (hexec : exec i s = load n ext rd rs1 imm s) (hv : ext (BitVec.ofNat (8 * n) (leValue s ea.toNat n)) = v) :
    (s.cfg.base ≤ ea.toNat → ea.toNat - s.cfg.base + n ≤ s.cfg.size → Writes (exec i s) s rd v (s.pc + 4)) ∧
    (ea.toNat < s.cfg.base ∨ s.cfg.size < ea.toNat - s.cfg.base + n → Halts (exec i s) s (.readFailed ea)) := by
  subst hea hv
  rw [hexec]
  exact ⟨fun hlo hhi => writes_load (inWindow_iff.2 ⟨hlo, hhi⟩), fun hout => halts_load (inWindow_eq_false_iff.2 hout)⟩

/-- A store of n bytes inside the window completes with the bytes of x[rs2]; elsewhere it halts with WriteFailed (R169). -/
theorem store_outcomes {i : Instr} (hea : effectiveAddress s rs1 imm = ea) (hexec : exec i s = store n rs1 rs2 imm s) :
    (s.cfg.base ≤ ea.toNat → ea.toNat - s.cfg.base + n ≤ s.cfg.size → Stores (exec i s) s ea n (s.x rs2)) ∧
    (ea.toNat < s.cfg.base ∨ s.cfg.size < ea.toNat - s.cfg.base + n → StoreFails (exec i s) s ea n (s.x rs2)) := by
  subst hea
  rw [hexec]
  exact ⟨fun hlo hhi => stores_store (inWindow_iff.2 ⟨hlo, hhi⟩),
    fun hout => storeFails_store (inWindow_eq_false_iff.2 hout)⟩

/-- Settles O35: funct3 picks the row of LOAD, and each instruction is the load of its width and extension. -/
theorem loads : Obligations.Loads := by
  refine ⟨rowDecodes_opLoad 0 fun w h3 => ?_, rowDecodes_opLoad 1 fun w h3 => ?_, rowDecodes_opLoad 2 fun w h3 => ?_,
    rowDecodes_opLoad 3 fun w h3 => ?_, rowDecodes_opLoad 4 fun w h3 => ?_, rowDecodes_opLoad 5 fun w h3 => ?_,
    rowDecodes_opLoad 6 fun w h3 => ?_, fun rd rs1 imm s ea hea =>
      have hea := (effectiveAddress_eq_ofNat s rs1 imm).trans hea.symm
      ⟨load_outcomes hea rfl (sextWord_ofNat (by decide) _), load_outcomes hea rfl (sextWord_ofNat (by decide) _),
        load_outcomes hea rfl (sextWord_ofNat (by decide) _), load_outcomes hea rfl (zextWord_leValue (by decide) s _),
        load_outcomes hea rfl (zextWord_leValue (by decide) s _), load_outcomes hea rfl (zextWord_leValue (by decide) s _),
        load_outcomes hea rfl (zextWord_leValue (by decide) s _)⟩⟩
  -- a row's funct3 picks one branch of the sub-decoder
  all_goals simp [decodeLoad, h3]

theorem rowDecodes_sd : RowDecodes 0x0000707F 0x00003023 (fun w => .sd (rs1Of w) (rs2Of w) (immS w)) :=
  rowDecodes_opStore 3 fun w h3 => by simp [decodeStore, h3]

/-- Settles O36: funct3 picks the row of STORE, and each instruction is the store of its width. -/
theorem storeInstructions : Obligations.StoreInstructions := by
  refine ⟨rowDecodes_opStore 0 fun w h3 => ?_, rowDecodes_opStore 1 fun w h3 => ?_, rowDecodes_opStore 2 fun w h3 => ?_,
    rowDecodes_sd, fun rs1 rs2 imm s ea hea =>
      have hea := (effectiveAddress_eq_ofNat s rs1 imm).trans hea.symm
      ⟨store_outcomes hea rfl, store_outcomes hea rfl, store_outcomes hea rfl, store_outcomes hea rfl⟩⟩
  -- a row's funct3 picks one branch of the sub-decoder
  all_goals simp [decodeStore, h3]

/-! ### A doubleword read back (R173) -/

/-- The eight bytes of v at an address spell v. -/
theorem leValue_of_bytes {a : Nat} {v : Word} (h : ∀ k < 8, s.byteAt (a + k) = BitVec.ofNat 8 (v.toNat / 256 ^ k)) :
    leValue s a 8 = v.toNat := by
  have hbytes : ∀ k < 8, Memory.read s.mem (a + k) = v.extractLsb' (8 * (0 + k)) 8 := fun k hk => by
    rw [Nat.zero_add, extract_byte]
    exact h k hk
  rw [← readLE_eq_leValue, Memory.readLE_of_bytes hbytes]
  omega

/-- An LD completes with the doubleword whose bytes stand at its address. -/
theorem writes_ld_of_bytes {v : Word} (hw : inWindow s.cfg (effectiveAddress s rs1 imm) 8 = true)
    (h : ∀ k < 8, s.byteAt ((effectiveAddress s rs1 imm).toNat + k) = BitVec.ofNat 8 (v.toNat / 256 ^ k)) :
    Writes (exec (.ld rd rs1 imm) s) s rd v (s.pc + 4) := by
  have hwrites := writes_load (ext := zextWord) (rd := rd) hw
  rwa [zextWord_leValue (by decide), leValue_of_bytes h, BitVec.ofNat_toNat, BitVec.setWidth_eq] at hwrites

/-- Settles O37: the state after the SD has the same registers and configuration, so the LD has the same address, still in the
window, and reads the bytes the SD left there. -/
theorem storeThenLoad : Obligations.StoreThenLoad := by
  refine ⟨rowDecodes_sd, fun s rs1 rs2 rd imm => ⟨fun hw => ?_, storeFails_store⟩⟩
  obtain ⟨t, hexec, hbytes, houtside, hregs, hpc, hcfg, hcontrol⟩ : Stores (exec (.sd rs1 rs2 imm) s) s _ 8 _ :=
    stores_store hw
  have hea : effectiveAddress t rs1 imm = effectiveAddress s rs1 imm := congrArg (· + imm) (hregs rs1)
  have hload : Writes (exec (.ld rd rs1 imm) t) t rd (s.x rs2) (t.pc + 4) :=
    writes_ld_of_bytes (by rw [hea, hcfg]; exact hw) (by rw [hea]; exact hbytes)
  rw [hpc, BitVec.add_assoc] at hload
  exact ⟨t, hexec, ⟨t, rfl, hbytes, houtside, hregs, hpc, hcfg, hcontrol⟩, hload⟩

end Sys2Proof.Machine
end

