-- ==== Sys2Proof/Proofs/ControlTransfer.lean ====
section
/-!
PROOFS. Jumps and conditional branches (spec/43_control_transfer.md R180 to R188). JAL and JALR are the shared link and jump,
the branches the shared conditional transfer, so their frames are its frames, and what is left to show is the rows, the target
and the relation in exact arithmetic.
-/

namespace Sys2Proof

open Machine

/-! ### The rows of JAL, JALR and BRANCH (R74, R79) -/

section Rows

variable {w : InstrWord} {f : InstrWord → Instr} (f3 : BitVec 3)

theorem decode_of_jal (ho : opcodeOf w = 0x6F#7) : decode w = .jal (rdOf w) (immJ w) := by
  rw [decode, ho]
  rfl

theorem decode_of_jalr (ho : opcodeOf w = 0x67#7) : decode w = decodeJalr w := by
  rw [decode, ho]
  rfl

theorem decode_of_branch (ho : opcodeOf w = 0x63#7) : decode w = decodeBranch w := by
  rw [decode, ho]
  rfl

theorem decodeJalr_of_funct3_zero (h3 : funct3Of w = 0) : decodeJalr w = .jalr (rdOf w) (rs1Of w) (immI w) := if_pos h3

theorem decodeJalr_of_funct3_ne_zero (h3 : funct3Of w ≠ 0) : decodeJalr w = .unknown w := if_neg h3

theorem rowDecodes_branch (h : ∀ w, funct3Of w = f3 → decodeBranch w = f w) :
    RowDecodes 0x0000707F#32 (encodeR 0 0 0 f3 0 0x63#7) f :=
  rowDecodes_maskI _ _ fun w h3 ho => by rw [decode_of_branch ho, h w h3]

end Rows

end Sys2Proof

namespace Sys2Proof.Machine

variable {s : State} {a b : Word}

/-! ### JALR's target in exact arithmetic -/

/-- Clearing bit 0 shifts it out and a zero in. -/
theorem and_not_one_eq_shift (a : Word) : a &&& ~~~1#64 = a >>> 1 <<< 1 := by
  refine BitVec.eq_of_getLsbD_eq fun i hi => ?_
  rw [BitVec.getLsbD_and, BitVec.getLsbD_not, BitVec.getLsbD_one, BitVec.getLsbD_shiftLeft, BitVec.getLsbD_ushiftRight]
  cases i with
  | zero => simp
  | succ i => simp [hi, Nat.add_comm 1 i]

/-- Clearing bit 0 rounds down to an even number. -/
theorem and_not_one_toNat (a : Word) : (a &&& ~~~1#64).toNat = a.toNat / 2 * 2 := by
  have hlt := a.isLt
  rw [and_not_one_eq_shift, BitVec.toNat_shiftLeft, BitVec.toNat_ushiftRight, Nat.shiftLeft_eq, Nat.shiftRight_eq_div_pow]
  omega

/-- The sum wraps modulo 2^64, then bit 0 is cleared (R180). -/
theorem jalrTarget_eq_ofNat (s : State) (rs1 : RegIdx) (imm : Word) :
    jalrTarget s rs1 imm = BitVec.ofNat 64 (((s.x rs1).toNat + imm.toNat) % 2 ^ 64 / 2 * 2) := by
  rw [← BitVec.toNat_add, ← and_not_one_toNat, BitVec.ofNat_toNat, BitVec.setWidth_eq]
  rfl

/-! ### The relations of the ordered branches -/

theorem lessSigned_iff : lessSigned a b = true ↔ a.toInt < b.toInt := decide_eq_true_iff

theorem lessUnsigned_iff : lessUnsigned a b = true ↔ a.toNat < b.toNat := decide_eq_true_iff

theorem not_lessSigned_iff : (!lessSigned a b) = true ↔ b.toInt ≤ a.toInt := by
  rw [Bool.not_eq_true', ← Bool.not_eq_true, lessSigned_iff, not_lt]

theorem not_lessUnsigned_iff : (!lessUnsigned a b) = true ↔ b.toNat ≤ a.toNat := by
  rw [Bool.not_eq_true', ← Bool.not_eq_true, lessUnsigned_iff, not_lt]

/-! ### The instructions -/

/-- An instruction whose meaning is a link and jump completes at the target, in the form t' that a statement gives it. -/
theorem writes_of_exec_eq_linkAndJump {i : Instr} {rd : RegIdx} {link t t' : Word}
    (hexec : exec i s = linkAndJump rd link t s) (ht : t = t') : Writes (exec i s) s rd link t' := by
  rw [hexec, ← ht]
  exact writes_linkAndJump rd link t s

/-- An instruction whose meaning is a branch moves pc as the relation p decides that its condition computes. -/
theorem moves_of_exec_eq_branchIf {i : Instr} {cond : Bool} {p : Prop} [Decidable p] {t : Word}
    (hexec : exec i s = branchIf cond t s) (hcond : cond = true ↔ p) :
    Moves (exec i s) s (if p then t else s.pc + 4) := by
  rw [hexec, ← if_congr hcond rfl rfl]
  exact moves_branchIf cond t s

/-- Settles O38: the opcode, and JALR's funct3, pick the row; each instruction is the link and jump to its target, which reads
x[rs1] in the state before the link is written. -/
theorem jumps : Obligations.Jumps :=
  ⟨rowDecodes_maskU 0x6F fun _ ho => decode_of_jal ho,
    rowDecodes_maskI 0 0x67 fun _ h3 ho => (decode_of_jalr ho).trans (decodeJalr_of_funct3_zero h3),
    fun _ ho h3 => (decode_of_jalr ho).trans (decodeJalr_of_funct3_ne_zero h3),
    fun _ rs1 imm s => ⟨writes_of_exec_eq_linkAndJump rfl (BitVec.add_def ..),
      writes_of_exec_eq_linkAndJump rfl (jalrTarget_eq_ofNat s rs1 imm)⟩⟩

/-- Settles O39: funct3 picks the row of BRANCH, and each instruction is the conditional transfer on its relation. -/
theorem branches : Obligations.Branches := by
  refine ⟨rowDecodes_branch 0 fun w h3 => ?_, rowDecodes_branch 1 fun w h3 => ?_, rowDecodes_branch 4 fun w h3 => ?_,
    rowDecodes_branch 5 fun w h3 => ?_, rowDecodes_branch 6 fun w h3 => ?_, rowDecodes_branch 7 fun w h3 => ?_,
    fun rs1 rs2 imm s =>
      ⟨moves_of_exec_eq_branchIf rfl beq_iff_eq, moves_of_exec_eq_branchIf rfl bne_iff_ne,
        moves_of_exec_eq_branchIf rfl lessSigned_iff, moves_of_exec_eq_branchIf rfl not_lessSigned_iff,
        moves_of_exec_eq_branchIf rfl lessUnsigned_iff, moves_of_exec_eq_branchIf rfl not_lessUnsigned_iff⟩⟩
  -- a row's funct3 picks one branch of the sub-decoder
  all_goals simp [decodeBranch, h3]

end Sys2Proof.Machine
end

