-- ==== Sys2Proof/Proofs/ShiftsWord.lean ====
section
/-!
PROOFS. Shifts and word variants (spec/44_shifts_word.md R200 to R215). Each instruction is one write-back, so its frame is the
write-back's, and what is left to show is the rows, the result in exact arithmetic, and the gate's halt under the default
IMPLEMENTED.
-/

namespace Sys2Proof

open Machine

/-! ### The dispatch on OP-IMM-32 and OP-32, and the rows with a function field (R68, R75, R76, R78) -/

section Rows

variable {w : InstrWord} {f : InstrWord → Instr} (f7 : BitVec 7) (f6 : BitVec 6) (f3 : BitVec 3)

theorem decode_of_opImm32 (ho : opcodeOf w = 0x1B#7) : decode w = decodeOpImm32 w := by
  rw [decode, ho]
  rfl

theorem decode_of_op32 (ho : opcodeOf w = 0x3B#7) : decode w = decodeOp32 w := by
  rw [decode, ho]
  rfl

theorem rowDecodes_opImmShift (h : ∀ w, funct6Of w = f6 → funct3Of w = f3 → decodeOpImm w = f w) :
    RowDecodes 0xFC00707F#32 (encodeShift64 f6 0 0 f3 0 0x13#7) f := fun w hw =>
  have ⟨h6, h3, ho⟩ := (and_maskShift64_iff w f6 f3 0x13#7).1 hw
  (decode_of_opImm ho).trans (h w h6 h3)

theorem rowDecodes_opImm32 (h : ∀ w, funct3Of w = f3 → decodeOpImm32 w = f w) :
    RowDecodes 0x0000707F#32 (encodeR 0 0 0 f3 0 0x1B#7) f :=
  rowDecodes_maskI _ _ fun w h3 ho => (decode_of_opImm32 ho).trans (h w h3)

theorem rowDecodes_opImm32Shift (h : ∀ w, funct7Of w = f7 → funct3Of w = f3 → decodeOpImm32 w = f w) :
    RowDecodes 0xFE00707F#32 (encodeR f7 0 0 f3 0 0x1B#7) f :=
  rowDecodes_maskR _ _ _ fun w h7 h3 ho => (decode_of_opImm32 ho).trans (h w h7 h3)

theorem rowDecodes_op32 (h : ∀ w, funct7Of w = f7 → funct3Of w = f3 → decodeOp32 w = f w) :
    RowDecodes 0xFE00707F#32 (encodeR f7 0 0 f3 0 0x3B#7) f :=
  rowDecodes_maskR _ _ _ fun w h7 h3 ho => (decode_of_op32 ho).trans (h w h7 h3)

/-- SLLI's row is the only one of OP-IMM with funct3 = 1, and it needs w[31:26] = 0 (R204). -/
theorem decode_eq_unknown_of_slli_high_bits (ho : opcodeOf w = 0x13#7) (h3 : funct3Of w = 1#3) (h6 : w.toNat / 2 ^ 26 ≠ 0) :
    decode w = .unknown w := by
  have hfunct6 : funct6Of w ≠ 0#6 := fun h => h6 <| by
    have hnumber := funct6Of_toNat w
    have hlt := w.isLt
    simp only [h, BitVec.toNat_ofNat] at hnumber
    omega
  simp [decode_of_opImm ho, decodeOpImm, h3, hfunct6]

/-- SLLIW's row is the only one of OP-IMM-32 with funct3 = 1, and it needs w[31:25] = 0 (R208). -/
theorem decode_eq_unknown_of_slliw_bit25 (ho : opcodeOf w = 0x1B#7) (h3 : funct3Of w = 1#3) (h25 : w.getLsbD 25 = true) :
    decode w = .unknown w := by
  have hbit : (funct7Of w).getLsbD 0 = w.getLsbD 25 := BitVec.getLsbD_extractLsb' ..
  have hfunct7 : funct7Of w ≠ 0#7 := fun h => by
    rw [h, h25] at hbit
    exact absurd hbit (by decide)
  simp [decode_of_opImm32 ho, decodeOpImm32, h3, hfunct7]

end Rows

end Sys2Proof

namespace Sys2Proof.Machine

/-! ### The default halt (R104, R115) -/

/-- The gate of the default IMPLEMENTED stops every instruction whose mnemonic is outside the reference set. -/
theorem haltsByDefault_of_mnemonic {i : Instr} {m : Mnemonic} (hi : i.mnemonic? = some m)
    (hm : m ∉ Mnemonic.referenceSet) : HaltsByDefault i := by
  intro s hr himp hf
  have hgate : mayExecute s.cfg i = false := by simp [mayExecute, hi, himp, hm]
  rw [step_of_fetches hr hf, hgate]
  exact halts_raiseHalt _ s

/-- The same for a list of instructions, their mnemonics named beside it. -/
theorem haltsByDefault_of_mnemonics {is : List Instr} (ms : List Mnemonic)
    (his : is.map Instr.mnemonic? = ms.map some) (hms : ∀ m ∈ ms, m ∉ Mnemonic.referenceSet) :
    ∀ i ∈ is, HaltsByDefault i := by
  intro i hi
  have hmem : i.mnemonic? ∈ ms.map some := his ▸ List.mem_map_of_mem hi
  obtain ⟨m, hm, heq⟩ := List.mem_map.1 hmem
  exact haltsByDefault_of_mnemonic heq.symm (hms m hm)

/-! ### Results in exact arithmetic -/

section Shifts

variable {n : Nat} (a : BitVec n) (k : Nat)

theorem shiftLeft_eq_ofNat : a <<< k = BitVec.ofNat n (a.toNat * 2 ^ k)  :=
  congrArg (BitVec.ofNat n) (Nat.shiftLeft_eq ..)

theorem ushiftRight_eq_ofNat : a >>> k = BitVec.ofNat n (a.toNat / 2 ^ k) := by
  refine BitVec.eq_of_toNat_eq ?_
  rw [BitVec.toNat_ushiftRight, Nat.shiftRight_eq_div_pow, BitVec.toNat_ofNat, Nat.mod_eq_of_lt]
  exact (Nat.div_le_self ..).trans_lt a.isLt

end Shifts

section Word32

variable (a b : Word) (k : Nat)

theorem low32_toInt_eq_signed32 : (low32 a).toInt = signed32 a := low32_toInt a

theorem sextWord_ofInt {n : Nat} (h : n ≤ 64) (z : Int) : sextWord (BitVec.ofInt n z) = sextInt n z := by
  rw [sextInt, ← BitVec.toInt_ofInt, ← sextWord_toInt _ h, BitVec.ofInt_toInt]

/-- The low 32 bits of a value depend on the integer only modulo 2^32 (R200). -/
theorem low32_ofInt (z : Int) : low32 (BitVec.ofInt 64 z) = BitVec.ofInt 32 z := by
  refine BitVec.eq_of_toNat_eq ?_
  rw [low32_toNat, BitVec.toNat_ofInt, BitVec.toNat_ofInt]
  omega

/-- ADDIW and ADDW (R207, R211). -/
theorem sextWord_low32_add : sextWord (low32 (a + b)) = sextInt 32 (a.toNat + b.toNat) := by
  rw [BitVec.add_def, ← BitVec.ofInt_natCast, low32_ofInt, sextWord_ofInt (by decide), Nat.cast_add]

/-- SUBW (R212). -/
theorem sextWord_low32_sub : sextWord (low32 (a - b)) = sextInt 32 (a.toNat - b.toNat) := by
  rw [sub_eq_ofInt, low32_ofInt, sextWord_ofInt (by decide)]

/-- SLLIW and SLLW (R208, R213): the bits shifted out of the low half do not count, so neither do those above it. -/
theorem sextWord_low32_shiftLeft : sextWord (low32 a <<< k) = sextInt 32 (a.toNat * 2 ^ k) := by
  have hlow : BitVec.ofNat 32 (a.toNat % 2 ^ 32 * 2 ^ k) = BitVec.ofNat 32 (a.toNat * 2 ^ k) :=
    BitVec.eq_of_toNat_eq <| by rw [BitVec.toNat_ofNat, BitVec.toNat_ofNat, Nat.mod_mul_mod]
  rw [shiftLeft_eq_ofNat, low32_toNat, hlow, sextWord_ofNat (by decide), Nat.cast_mul, Nat.cast_pow, Nat.cast_ofNat]

/-- SRLIW and SRLW (R209, R214): zeros enter at bit 31, so the sign is that of the shifted low half. -/
theorem sextWord_low32_ushiftRight : sextWord (low32 a >>> k) = sextInt 32 (a.toNat % 2 ^ 32 / 2 ^ k : Nat) := by
  rw [ushiftRight_eq_ofNat, low32_toNat, sextWord_ofNat (by decide)]

/-- SRAIW and SRAW (R210, R215): the low half's sign enters from the left. -/
theorem sshiftRight_sextWord_low32 :
    (sextWord (low32 a)).sshiftRight k = BitVec.ofInt 64 (signed32 a / 2 ^ k) := by
  rw [sshiftRight_eq_ofInt, sextWord_toInt _ (by decide), low32_toInt_eq_signed32]

end Word32

/-! ### The instructions -/

/-- Settles O40: the function field and funct3 pick the row, and each instruction is the write-back of its shift. -/
theorem shifts64 : Obligations.Shifts64 := by
  refine ⟨rowDecodes_opBase 1 fun w h3 => ?_, rowDecodes_opBase 5 fun w h3 => ?_, rowDecodes_opAlt 5 fun w h3 => ?_,
    rowDecodes_opImmShift 0 1 fun w h6 h3 => ?_, rowDecodes_opImmShift 0 5 fun w h6 h3 => ?_,
    rowDecodes_opImmShift 0x10 5 fun w h6 h3 => ?_, fun _ => decode_eq_unknown_of_slli_high_bits, fun rd rs1 rs2 shamt s =>
      ⟨writes_of_exec_eq rfl (by rw [amount6_eq, shiftLeft_eq_ofNat]),
        writes_of_exec_eq rfl (by rw [amount6_eq, ushiftRight_eq_ofNat]),
        writes_of_exec_eq rfl (by rw [amount6_eq, sshiftRight_eq_ofInt]),
        writes_of_exec_eq rfl (shiftLeft_eq_ofNat ..), writes_of_exec_eq rfl (ushiftRight_eq_ofNat ..),
        writes_of_exec_eq rfl (sshiftRight_eq_ofInt ..),
        haltsByDefault_of_mnemonics [.sll, .srl, .sra, .slli, .srli, .srai] rfl (by decide)⟩⟩
  -- a row's fields pick one branch of the sub-decoder
  · simp [decodeOpBase, h3]
  · simp [decodeOpBase, h3]
  · simp [decodeOpAlt, h3]
  all_goals simp [decodeOpImm, h6, h3]

/-- Settles O41: funct3, and funct7 for the shifts, pick the row, and each instruction is the write-back of its 32-bit result,
sign-extended. -/
theorem wordImmediates : Obligations.WordImmediates := by
  refine ⟨rowDecodes_opImm32 0 fun w h3 => ?_, rowDecodes_opImm32Shift 0 1 fun w h7 h3 => ?_,
    rowDecodes_opImm32Shift 0 5 fun w h7 h3 => ?_, rowDecodes_opImm32Shift 0x20 5 fun w h7 h3 => ?_,
    fun _ => decode_eq_unknown_of_slliw_bit25, fun rd rs1 imm shamt s =>
      ⟨writes_of_exec_eq rfl (sextWord_low32_add ..), writes_of_exec_eq rfl (sextWord_low32_shiftLeft ..),
        writes_of_exec_eq rfl (sextWord_low32_ushiftRight ..), writes_of_exec_eq rfl (sshiftRight_sextWord_low32 ..),
        haltsByDefault_of_mnemonics [.addiw, .slliw, .srliw, .sraiw] rfl (by decide)⟩⟩
  -- a row's fields pick one branch of the sub-decoder
  · simp [decodeOpImm32, h3]
  all_goals simp [decodeOpImm32, h7, h3]

/-- Settles O42: funct7 and funct3 pick the row of OP-32, and each instruction is the write-back of its 32-bit result,
sign-extended. -/
theorem wordRegisterOps : Obligations.WordRegisterOps := by
  refine ⟨rowDecodes_op32 0 0 fun w h7 h3 => ?_, rowDecodes_op32 0x20 0 fun w h7 h3 => ?_,
    rowDecodes_op32 0 1 fun w h7 h3 => ?_, rowDecodes_op32 0 5 fun w h7 h3 => ?_,
    rowDecodes_op32 0x20 5 fun w h7 h3 => ?_, fun rd rs1 rs2 s =>
      ⟨writes_of_exec_eq rfl (sextWord_low32_add ..), writes_of_exec_eq rfl (sextWord_low32_sub ..),
        writes_of_exec_eq rfl (by rw [amount5_eq, sextWord_low32_shiftLeft]),
        writes_of_exec_eq rfl (by rw [amount5_eq, sextWord_low32_ushiftRight]),
        writes_of_exec_eq rfl (by rw [amount5_eq, sshiftRight_sextWord_low32]),
        haltsByDefault_of_mnemonics [.addw, .subw, .sllw, .srlw, .sraw] rfl (by decide)⟩⟩
  -- a row's fields pick one branch of the sub-decoder
  all_goals simp [decodeOp32, h7, h3]

end Sys2Proof.Machine
end

