-- ==== Sys2Proof/Proofs/MulDiv.lean ====
section
/-!
PROOFS. Multiply, divide and remainder (spec/45_muldiv.md R230 to R243). Each instruction is one write-back, so its frame is the
write-back's. The table of R230 is shown at every positive width, through the truncating division of integers; the W forms are its
width 32, sign-extended.
-/

namespace Sys2Proof

open Machine

/-! ### The rows of OP with funct7 = 0b0000001, by funct3 alone (R77) -/

theorem decodeOp_of_mulDiv {w : InstrWord} (h7 : funct7Of w = 0x01#7) : decodeOp w = decodeOpMulDiv w := by
  rw [decodeOp, h7]
  rfl

theorem rowDecodes_opMulDiv {f : InstrWord → Instr} (f3 : BitVec 3) (h : ∀ w, funct3Of w = f3 → decodeOpMulDiv w = f w) :
    RowDecodes 0xFE00707F#32 (encodeR 0x01#7 0 0 f3 0 0x33#7) f :=
  rowDecodes_maskR _ _ _ fun w h7 h3 ho => by rw [decode_of_op ho, decodeOp_of_mulDiv h7, h w h3]

end Sys2Proof

namespace Sys2Proof.Machine

/-! ### Products in exact arithmetic (R231 to R234, R239) -/

/-- The low half of a product is the exact product cut to the width. -/
theorem mul_eq_ofNat {n : Nat} (a b : BitVec n) : a * b = BitVec.ofNat n (a.toNat * b.toNat) :=
  BitVec.eq_of_toNat_eq <| by rw [BitVec.toNat_mul, BitVec.toNat_ofNat]

theorem highHalf_natCast (p : Nat) : highHalf p = BitVec.ofNat 64 (p / 2 ^ 64) := by
  rw [highHalf_eq, ← BitVec.ofInt_natCast]
  rfl

/-- MULW: the low half of a product depends on the low halves alone. -/
theorem sextWord_low32_mul (a b : Word) : sextWord (low32 a * low32 b) = sextInt 32 (a.toNat * b.toNat : Nat) := by
  have hlow : low32 a * low32 b = BitVec.ofNat 32 (a.toNat * b.toNat) := by
    rw [BitVec.ofNat_mul, BitVec.ofNat_toNat, BitVec.ofNat_toNat]
    rfl
  rw [hlow, sextWord_ofNat (by decide)]

/-! ### The division table at any positive width (R230) -/

section Table

variable {n : Nat} {a b : BitVec n}

/-- The overflow case, read as integers. -/
theorem overflow_iff (hn : 0 < n) :
    a.toInt = -2 ^ (n - 1) ∧ b.toInt = -1 ↔ a = BitVec.intMin n ∧ b = BitVec.allOnes n := by
  rw [← toInt_intMin_eq hn, ← toInt_allOnes_eq hn, BitVec.toInt_inj, BitVec.toInt_inj]

theorem allOnes_ne_zero (hn : 0 < n) : BitVec.allOnes n ≠ 0 := fun h => hn.ne' (BitVec.allOnes_eq_zero_iff.1 h)

theorem quotSigned_overflow (hn : 0 < n) : quotSigned (BitVec.intMin n) (BitVec.allOnes n) = BitVec.intMin n := by
  rw [quotSigned, if_neg (allOnes_ne_zero hn), if_pos ⟨rfl, rfl⟩]

theorem remSigned_overflow (hn : 0 < n) : remSigned (BitVec.intMin n) (BitVec.allOnes n) = 0 := by
  rw [remSigned, if_neg (allOnes_ne_zero hn), if_pos ⟨rfl, rfl⟩]

/-- Outside the overflow case the truncating quotient fits the width. -/
theorem quotSigned_toInt (hn : 0 < n) (hb : b ≠ 0) (hov : ¬(a = BitVec.intMin n ∧ b = BitVec.allOnes n)) :
    (quotSigned a b).toInt = a.toInt.tdiv b.toInt := by
  have hsdiv : quotSigned a b = a.sdiv b := by
    rw [quotSigned_eq hn, if_neg hb, ← BitVec.toInt_inj, BitVec.toInt_ofInt, BitVec.toInt_sdiv]
  rw [← BitVec.neg_one_eq_allOnes, not_and_or] at hov
  rw [hsdiv, BitVec.toInt_sdiv_of_ne_or_ne _ _ hov]

/-- The truncating remainder always fits the width. -/
theorem remSigned_toInt (hn : 0 < n) (hb : b ≠ 0) : (remSigned a b).toInt = a.toInt.tmod b.toInt := by
  rw [remSigned_eq hn, if_neg hb, ← BitVec.toInt_srem, BitVec.ofInt_toInt]

theorem quotUnsigned_toNat (hb : b ≠ 0) : (quotUnsigned a b).toNat = a.toNat / b.toNat := by
  rw [quotUnsigned, if_neg hb, ← BitVec.udiv_def, BitVec.toNat_udiv]

theorem remUnsigned_toNat (hb : b ≠ 0) : (remUnsigned a b).toNat = a.toNat % b.toNat := by
  rw [remUnsigned, if_neg hb, ← BitVec.umod_def, BitVec.toNat_umod]

variable (a b)

/-- The law of the signed table: a zero divisor leaves the dividend as the remainder, and otherwise it is the integers' law
modulo 2^n. -/
theorem mul_quotSigned_add_remSigned (hn : 0 < n) : b * quotSigned a b + remSigned a b = a := by
  rw [quotSigned_eq hn, remSigned_eq hn]
  split
  case isTrue hb => rw [hb]; simp
  case isFalse =>
    calc b * BitVec.ofInt n (a.toInt.tdiv b.toInt) + BitVec.ofInt n (a.toInt.tmod b.toInt)
      _ = BitVec.ofInt n (b.toInt * a.toInt.tdiv b.toInt + a.toInt.tmod b.toInt) := by
        rw [BitVec.ofInt_add, BitVec.ofInt_mul, BitVec.ofInt_toInt]
      _ = a := by rw [Int.mul_tdiv_add_tmod, BitVec.ofInt_toInt]

/-- The law of the unsigned table. -/
theorem mul_quotUnsigned_add_remUnsigned : b * quotUnsigned a b + remUnsigned a b = a := by
  rw [quotUnsigned, remUnsigned]
  split
  case isTrue hb => rw [hb]; simp
  case isFalse =>
    calc b * BitVec.ofNat n (a.toNat / b.toNat) + BitVec.ofNat n (a.toNat % b.toNat)
      _ = BitVec.ofNat n (b.toNat * (a.toNat / b.toNat) + a.toNat % b.toNat) := by
        rw [BitVec.ofNat_add, BitVec.ofNat_mul, BitVec.ofNat_toNat, BitVec.setWidth_eq]
      _ = a := by rw [Nat.div_add_mod, BitVec.ofNat_toNat, BitVec.setWidth_eq]

end Table

/-! ### The table at width 32, sign-extended (R240 to R243) -/

section Word32

variable (a b : Word)

theorem low32_eq_extractLsb' : low32 a = a.extractLsb' 0 32 := BitVec.setWidth_eq_extractLsb' (by decide)

theorem low32_eq_zero_iff : low32 b = 0 ↔ signed32 b = 0 := by
  rw [← low32_toInt_eq_signed32, ← BitVec.toInt_inj]
  rfl

theorem sextWord_low32 : sextWord (low32 a) = sextInt 32 a.toNat := by
  rw [low32, ← BitVec.ofNat_toNat, sextWord_ofNat (by decide)]

/-- DIVW (R240). -/
theorem sextWord_quotSigned_low32 : sextWord (quotSigned (low32 a) (low32 b)) =
    if signed32 b = 0 then BitVec.allOnes 64 else sextInt 32 ((signed32 a).tdiv (signed32 b)) := by
  rw [quotSigned_eq (by decide), apply_ite sextWord, sextWord_ofInt (by decide), low32_toInt_eq_signed32,
    low32_toInt_eq_signed32]
  exact if_congr (low32_eq_zero_iff b) (by decide) rfl

/-- DIVUW (R241). -/
theorem sextWord_quotUnsigned_low32 : sextWord (quotUnsigned (low32 a) (low32 b)) =
    if signed32 b = 0 then BitVec.allOnes 64 else sextInt 32 (a.toNat % 2 ^ 32 / (b.toNat % 2 ^ 32) : Nat) := by
  rw [quotUnsigned, apply_ite sextWord, sextWord_ofNat (by decide), low32_toNat, low32_toNat]
  exact if_congr (low32_eq_zero_iff b) (by decide) rfl

/-- REMW (R242). -/
theorem sextWord_remSigned_low32 : sextWord (remSigned (low32 a) (low32 b)) =
    if signed32 b = 0 then sextInt 32 a.toNat else sextInt 32 ((signed32 a).tmod (signed32 b)) := by
  rw [remSigned_eq (by decide), apply_ite sextWord, sextWord_low32, sextWord_ofInt (by decide), low32_toInt_eq_signed32,
    low32_toInt_eq_signed32]
  exact if_congr (low32_eq_zero_iff b) rfl rfl

/-- REMUW (R243). -/
theorem sextWord_remUnsigned_low32 : sextWord (remUnsigned (low32 a) (low32 b)) =
    if signed32 b = 0 then sextInt 32 a.toNat else sextInt 32 (a.toNat % 2 ^ 32 % (b.toNat % 2 ^ 32) : Nat) := by
  rw [remUnsigned, apply_ite sextWord, sextWord_low32, sextWord_ofNat (by decide), low32_toNat, low32_toNat]
  exact if_congr (low32_eq_zero_iff b) rfl rfl

end Word32

/-! ### The instructions -/

/-- Settles O43: funct7 and funct3 pick the row, and each instruction is the write-back of a half of the exact product. -/
theorem multiplies : Obligations.Multiplies := by
  refine ⟨rowDecodes_opMulDiv 0 fun w h3 => ?_, rowDecodes_opMulDiv 1 fun w h3 => ?_, rowDecodes_opMulDiv 2 fun w h3 => ?_,
    rowDecodes_opMulDiv 3 fun w h3 => ?_, rowDecodes_op32 1 0 fun w h7 h3 => by simp [decodeOp32, h7, h3], fun rd rs1 rs2 s =>
      ⟨writes_of_exec_eq rfl (mul_eq_ofNat ..), writes_of_exec_eq rfl (highHalf_eq _), writes_of_exec_eq rfl (highHalf_eq _),
        writes_of_exec_eq rfl (highHalf_natCast (_ * _)), writes_of_exec_eq rfl (sextWord_low32_mul ..),
        haltsByDefault_of_mnemonics [.mul, .mulh, .mulhsu, .mulhu, .mulw] rfl (by decide)⟩⟩
  -- a row's funct3 picks one branch of the sub-decoder
  all_goals simp [decodeOpMulDiv, h3]

/-- Settles O44: funct3 picks the row, and each instruction is the write-back of its quotient or remainder, in which the
signed overflow is the truncated quotient modulo 2^64. -/
theorem divisions64 : Obligations.Divisions64 := by
  refine ⟨rowDecodes_opMulDiv 4 fun w h3 => ?_, rowDecodes_opMulDiv 5 fun w h3 => ?_, rowDecodes_opMulDiv 6 fun w h3 => ?_,
    rowDecodes_opMulDiv 7 fun w h3 => ?_, fun rd rs1 rs2 s =>
      ⟨writes_of_exec_eq rfl (quotSigned_eq (by decide) ..), writes_of_exec_eq rfl (by rw [quotUnsigned]),
        writes_of_exec_eq rfl (remSigned_eq (by decide) ..), writes_of_exec_eq rfl (by rw [remUnsigned]),
        haltsByDefault_of_mnemonics [.div, .divu, .rem, .remu] rfl (by decide)⟩⟩
  -- a row's funct3 picks one branch of the sub-decoder
  all_goals simp [decodeOpMulDiv, h3]

/-- Settles O45: funct7 and funct3 pick the row of OP-32, and each instruction is the write-back of the 32-bit result,
sign-extended. -/
theorem divisions32 : Obligations.Divisions32 := by
  refine ⟨rowDecodes_op32 1 4 fun w h7 h3 => ?_, rowDecodes_op32 1 5 fun w h7 h3 => ?_,
    rowDecodes_op32 1 6 fun w h7 h3 => ?_, rowDecodes_op32 1 7 fun w h7 h3 => ?_, fun rd rs1 rs2 s =>
      ⟨writes_of_exec_eq rfl (sextWord_quotSigned_low32 ..), writes_of_exec_eq rfl (sextWord_quotUnsigned_low32 ..),
        writes_of_exec_eq rfl (sextWord_remSigned_low32 ..), writes_of_exec_eq rfl (sextWord_remUnsigned_low32 ..),
        haltsByDefault_of_mnemonics [.divw, .divuw, .remw, .remuw] rfl (by decide)⟩⟩
  -- a row's fields pick one branch of the sub-decoder
  all_goals simp [decodeOp32, h7, h3]

/-- Settles O46: the table and its law hold at every positive width, and each instruction is the write-back of its entry. -/
theorem divisionTable : Obligations.DivisionTable := by
  refine ⟨fun n hn a b => ?_, fun rd rs1 rs2 s => ?_⟩
  · have hpos : 0 < n := by omega
    refine ⟨fun hb => ⟨if_pos hb, if_pos hb, if_pos hb, if_pos hb⟩, fun ha hb => ?_, fun hb hov => ?_,
      fun hb => ⟨quotUnsigned_toNat hb, remUnsigned_toNat hb⟩, mul_quotSigned_add_remSigned a b hpos,
      mul_quotUnsigned_add_remUnsigned a b⟩
    · obtain ⟨rfl, rfl⟩ := (overflow_iff hpos).1 ⟨ha, hb⟩
      exact ⟨quotSigned_overflow hpos, remSigned_overflow hpos⟩
    · rw [overflow_iff hpos] at hov
      exact ⟨quotSigned_toInt hpos hb hov, remSigned_toInt hpos hb⟩
  · simp only [← low32_eq_extractLsb']
    exact ⟨writes_writeBack rd _ s, writes_writeBack rd _ s, writes_writeBack rd _ s, writes_writeBack rd _ s,
      writes_writeBack rd _ s, writes_writeBack rd _ s, writes_writeBack rd _ s, writes_writeBack rd _ s⟩

end Sys2Proof.Machine
end

