-- ==== Sys2Proof/Proofs/SystemCsr.lean ====
section
/-!
PROOFS. Fences, environment calls and CSR instructions (spec/46_system_csr.md R260 to R269). An enabled fence goes on in
sequence, so its frame is the sequencer's. ECALL, EBREAK and the CSR instructions execute as the very halt the gate raises, so a
step that fetches one halts alike whether or not the gate lets it through.
-/

namespace Sys2Proof

open Machine

section Decoding

variable {w : InstrWord} {f : InstrWord → Instr} (f3 : BitVec 3)

/-! ### The rows of MISC-MEM and SYSTEM, by funct3 alone (R80, R81) -/

theorem decode_of_miscMem (ho : opcodeOf w = 0x0F#7) : decode w = decodeMiscMem w := by
  rw [decode, ho]
  rfl

theorem rowDecodes_miscMem (h : ∀ w, funct3Of w = f3 → decodeMiscMem w = f w) :
    RowDecodes 0x0000707F#32 (encodeR 0 0 0 f3 0 0x0F#7) f :=
  rowDecodes_maskI _ _ fun w h3 ho => (decode_of_miscMem ho).trans (h w h3)

theorem rowDecodes_system (h : ∀ w, funct3Of w = f3 → decodeSystem w = f w) :
    RowDecodes 0x0000707F#32 (encodeR 0 0 0 f3 0 0x73#7) f :=
  rowDecodes_maskI _ _ fun w h3 ho => (decode_of_system ho).trans (h w h3)

/-! ### The CSR number of a CSR word (R69) -/

/-- The low bits of a sign-extended field are the field. -/
theorem setWidth_signExtend {m n : Nat} (h : n ≤ m) (v : BitVec n) : (v.signExtend m).setWidth n = v := by
  refine BitVec.eq_of_getLsbD_eq fun i hi => ?_
  rw [BitVec.getLsbD_setWidth, BitVec.getLsbD_signExtend, if_pos hi]
  simp [hi, hi.trans_le h]

theorem csrNumber_immI (w : InstrWord) : csrNumber (immI w) = BitVec.ofNat 12 (w.toNat / 2 ^ 20) :=
  calc csrNumber (immI w)
    _ = w.extractLsb' 20 12 := setWidth_signExtend (by decide) _
    _ = BitVec.ofNat 12 (w.toNat / 2 ^ 20) := congrArg (BitVec.ofNat 12) (Nat.shiftRight_eq_div_pow ..)

/-! ### The exact words of ECALL and EBREAK (R81) -/

/-- No sub-decoder but that of SYSTEM has ECALL or EBREAK among its branches. -/
theorem opcodeOf_of_decode_environmentCall {i : Instr} (hi : i = .ecall ∨ i = .ebreak) (h : decode w = i) :
    opcodeOf w = 0x73#7 := by
  by_contra ho
  have hcases := decode_cases w
  rcases hi with rfl | rfl
  all_goals
    simp [h, ho, eq_ite_iff, decodeLoad, decodeMiscMem, decodeOpImm, decodeOpImm32, decodeStore, decodeOp, decodeOpBase,
      decodeOpAlt, decodeOpMulDiv, decodeOp32, decodeBranch, decodeJalr] at hcases

/-- The only word that decodes to ECALL or to EBREAK is its encoding: SYSTEM's branch for it asks for the exact word. -/
theorem eq_encode_of_decode_environmentCall {i : Instr} (hi : i = .ecall ∨ i = .ebreak) (h : decode w = i) :
    w = encode i := by
  rw [decode_of_system (opcodeOf_of_decode_environmentCall hi h), decodeSystem] at h
  rcases hi with rfl | rfl
  · split_ifs at h with hecall
    exact hecall
  · split_ifs at h with _ hebreak
    exact hebreak

end Decoding

end Sys2Proof

namespace Sys2Proof.Machine

/-! ### Instructions that execute as the gate's halt (R104) -/

/-- An instruction whose meaning is the halt NotImplemented halts whether or not the gate lets it execute. -/
theorem halts_of_exec_eq_raiseHalt {i : Instr} {s : State} (hexec : exec i s = raiseHalt (.notImplemented i) s) :
    Halts (exec i s) s (.notImplemented i) ∧
      (s.running = true → Fetches s i → Halts (step s) s (.notImplemented i)) := by
  have hhalts := halts_raiseHalt (.notImplemented i) s
  refine ⟨hexec ▸ hhalts, fun hr hf => ?_⟩
  rw [step_of_fetches hr hf, hexec, ite_self]
  exact hhalts

/-! ### The instructions -/

/-- Settles O47: funct3 picks the row of MISC-MEM, the default gate stops both fences, and executed each goes on in sequence. -/
theorem fences : Obligations.Fences := by
  refine ⟨rowDecodes_miscMem 0 fun w h3 => ?_, rowDecodes_miscMem 1 fun w h3 => ?_,
    haltsByDefault_of_mnemonic (m := .fence) rfl (by decide), haltsByDefault_of_mnemonic (m := .fenceI) rfl (by decide),
    fun s => ⟨moves_sequential s, moves_sequential s⟩⟩
  -- a row's funct3 picks one branch of the sub-decoder
  all_goals simp [decodeMiscMem, h3]

/-- Settles O48: each word is its instruction's encoding, and both instructions execute as the gate's halt. -/
theorem environmentCalls : Obligations.EnvironmentCalls := by
  refine ⟨fun w => ⟨⟨eq_encode_of_decode_environmentCall (.inl rfl), fun h => h ▸ rfl⟩,
    eq_encode_of_decode_environmentCall (.inr rfl), fun h => h ▸ rfl⟩, fun s => ?_⟩
  obtain ⟨hecall, hstepEcall⟩ := halts_of_exec_eq_raiseHalt (i := .ecall) (s := s) rfl
  obtain ⟨hebreak, hstepEbreak⟩ := halts_of_exec_eq_raiseHalt (i := .ebreak) (s := s) rfl
  refine ⟨hecall, hebreak, ?_⟩
  rintro i (rfl | rfl)
  · exact hstepEcall
  · exact hstepEbreak

/-- Settles O49: a funct3 other than 0 picks the row of SYSTEM, and each instruction executes as the gate's halt. -/
theorem csrInstructions : Obligations.CsrInstructions := by
  have row {f : BitVec 3} (hf : f ≠ 0#3) {w : InstrWord} (h3 : funct3Of w = f) := decodeSystem_of_funct3_ne_zero hf h3
  refine ⟨rowDecodes_system 1 fun _ => row (by decide), rowDecodes_system 2 fun _ => row (by decide),
    rowDecodes_system 3 fun _ => row (by decide), rowDecodes_system 5 fun _ => row (by decide),
    rowDecodes_system 6 fun _ => row (by decide), rowDecodes_system 7 fun _ => row (by decide), csrNumber_immI,
    fun rd rs1 imm s i hi => halts_of_exec_eq_raiseHalt ?_⟩
  fin_cases hi <;> rfl

end Sys2Proof.Machine
end

