-- ==== Sys2Proof/Proofs/DecodedRow.lean ====
section
/-!
PROOFS. The decoder as the opcode table sees it (spec/30_encoding.md R82, R92): the fields a branch of the decoder asks for are
those its mnemonic's row fixes, so a word that matches no row falls through to Unknown.
-/

namespace Sys2Proof

/-- i is what the opcode table allows a decoder to answer for w: Unknown(w), or the instruction of a row that w matches. -/
def FollowsRow (w : InstrWord) (i : Instr) : Prop :=
  i = .unknown w ∨ ∃ m, i.mnemonic? = some m ∧ w &&& m.mask = m.matchBits

section

variable {w : InstrWord} {i : Instr} {m : Mnemonic} {op f7 : BitVec 7} {f6 : BitVec 6} {f3 : BitVec 3}

/-! ### The fields of a row, by its mask -/

theorem followsRow_unknown : FollowsRow w (.unknown w) := .inl rfl

theorem followsRow_maskU (ho : opcodeOf w = op) (hi : i.mnemonic? = some m) (hmask : m.mask = 0x0000007F#32)
    (hbits : m.matchBits = encodeR 0 0 0 0 0 op) : FollowsRow w i :=
  .inr ⟨m, hi, hmask ▸ hbits ▸ (and_maskU_iff w op).2 ho⟩

theorem followsRow_maskI (h3 : funct3Of w = f3) (ho : opcodeOf w = op) (hi : i.mnemonic? = some m)
    (hmask : m.mask = 0x0000707F#32) (hbits : m.matchBits = encodeR 0 0 0 f3 0 op) : FollowsRow w i :=
  .inr ⟨m, hi, hmask ▸ hbits ▸ (and_maskI_iff w f3 op).2 ⟨h3, ho⟩⟩

theorem followsRow_maskR (h7 : funct7Of w = f7) (h3 : funct3Of w = f3) (ho : opcodeOf w = op)
    (hi : i.mnemonic? = some m) (hmask : m.mask = 0xFE00707F#32) (hbits : m.matchBits = encodeR f7 0 0 f3 0 op) :
    FollowsRow w i :=
  .inr ⟨m, hi, hmask ▸ hbits ▸ (and_maskR_iff w f7 f3 op).2 ⟨h7, h3, ho⟩⟩

theorem followsRow_maskShift64 (h6 : funct6Of w = f6) (h3 : funct3Of w = f3) (ho : opcodeOf w = op)
    (hi : i.mnemonic? = some m) (hmask : m.mask = 0xFC00707F#32) (hbits : m.matchBits = encodeShift64 f6 0 0 f3 0 op) :
    FollowsRow w i :=
  .inr ⟨m, hi, hmask ▸ hbits ▸ (and_maskShift64_iff w f6 f3 op).2 ⟨h6, h3, ho⟩⟩

/-! ### Every branch of every sub-decoder (R72 to R81) -/

theorem followsRow_byFunct3 :
    (opcodeOf w = 0x03#7 → FollowsRow w (decodeLoad w)) ∧ (opcodeOf w = 0x23#7 → FollowsRow w (decodeStore w)) ∧
    (opcodeOf w = 0x63#7 → FollowsRow w (decodeBranch w)) ∧ (opcodeOf w = 0x67#7 → FollowsRow w (decodeJalr w)) ∧
    (opcodeOf w = 0x0F#7 → FollowsRow w (decodeMiscMem w)) := by
  simp only [decodeLoad, decodeStore, decodeBranch, decodeJalr, decodeMiscMem]
  refine ⟨fun ho => ?_, fun ho => ?_, fun ho => ?_, fun ho => ?_, fun ho => ?_⟩
  all_goals
    split_ifs
    case neg => exact followsRow_unknown
    all_goals exact followsRow_maskI ‹_› ho rfl rfl rfl

theorem followsRow_decodeOpImm (ho : opcodeOf w = 0x13#7) : FollowsRow w (decodeOpImm w) := by
  unfold decodeOpImm
  split_ifs with _ _ _ _ _ _ hslli hsrli hsrai
  iterate 6 exact followsRow_maskI ‹_› ho rfl rfl rfl
  · exact followsRow_maskShift64 hslli.2 hslli.1 ho rfl rfl rfl
  · exact followsRow_maskShift64 hsrli.2 hsrli.1 ho rfl rfl rfl
  · exact followsRow_maskShift64 hsrai.2 hsrai.1 ho rfl rfl rfl
  · exact followsRow_unknown

theorem followsRow_decodeOpImm32 (ho : opcodeOf w = 0x1B#7) : FollowsRow w (decodeOpImm32 w) := by
  unfold decodeOpImm32
  split_ifs with haddiw hslliw hsrliw hsraiw
  · exact followsRow_maskI haddiw ho rfl rfl rfl
  · exact followsRow_maskR hslliw.2 hslliw.1 ho rfl rfl rfl
  · exact followsRow_maskR hsrliw.2 hsrliw.1 ho rfl rfl rfl
  · exact followsRow_maskR hsraiw.2 hsraiw.1 ho rfl rfl rfl
  · exact followsRow_unknown

theorem followsRow_opByFunct3 (ho : opcodeOf w = 0x33#7) :
    (funct7Of w = 0x00#7 → FollowsRow w (decodeOpBase w)) ∧ (funct7Of w = 0x20#7 → FollowsRow w (decodeOpAlt w)) ∧
    (funct7Of w = 0x01#7 → FollowsRow w (decodeOpMulDiv w)) := by
  simp only [decodeOpBase, decodeOpAlt, decodeOpMulDiv]
  refine ⟨fun h7 => ?_, fun h7 => ?_, fun h7 => ?_⟩
  all_goals
    split_ifs
    case neg => exact followsRow_unknown
    all_goals exact followsRow_maskR h7 ‹_› ho rfl rfl rfl

theorem followsRow_decodeOp (ho : opcodeOf w = 0x33#7) : FollowsRow w (decodeOp w) := by
  obtain ⟨hbase, halt, hmulDiv⟩ := followsRow_opByFunct3 ho
  unfold decodeOp
  split_ifs with h00 h20 h01
  exacts [hbase h00, halt h20, hmulDiv h01, followsRow_unknown]

theorem followsRow_decodeOp32 (ho : opcodeOf w = 0x3B#7) : FollowsRow w (decodeOp32 w) := by
  unfold decodeOp32
  split_ifs
  case neg => exact followsRow_unknown
  all_goals
    obtain ⟨h7, h3⟩ := ‹funct7Of w = _ ∧ funct3Of w = _›
    exact followsRow_maskR h7 h3 ho rfl rfl rfl

theorem followsRow_decodeSystem (ho : opcodeOf w = 0x73#7) : FollowsRow w (decodeSystem w) := by
  unfold decodeSystem
  split_ifs with hecall hebreak
  · exact .inr ⟨.ecall, rfl, hecall ▸ rfl⟩
  · exact .inr ⟨.ebreak, rfl, hebreak ▸ rfl⟩
  case neg => exact followsRow_unknown
  all_goals exact followsRow_maskI ‹_› ho rfl rfl rfl

/-! ### The decoder (R82, R92) -/

/-- Each major opcode leads to a sub-decoder that follows the rows of that opcode. -/
theorem followsRow_decode (w : InstrWord) : FollowsRow w (decode w) := by
  obtain ⟨hload, hstore, hbranch, hjalr, hmiscMem⟩ := followsRow_byFunct3 (w := w)
  rcases decode_cases w with ⟨ho, h⟩ | ⟨ho, h⟩ | ⟨ho, h⟩ | ⟨ho, h⟩ | ⟨ho, h⟩ | ⟨ho, h⟩ | ⟨ho, h⟩ | ⟨ho, h⟩ | ⟨ho, h⟩ |
    ⟨ho, h⟩ | ⟨ho, h⟩ | ⟨ho, h⟩ | ⟨ho, h⟩ | h
  all_goals rw [h]
  exacts [hload ho, hmiscMem ho, followsRow_decodeOpImm ho, followsRow_maskU ho rfl rfl rfl,
    followsRow_decodeOpImm32 ho, hstore ho, followsRow_decodeOp ho, followsRow_maskU ho rfl rfl rfl,
    followsRow_decodeOp32 ho, hbranch ho, hjalr ho, followsRow_maskU ho rfl rfl rfl,
    followsRow_decodeSystem ho, followsRow_unknown]

/-- A word that matches no row decodes as Unknown (R82). -/
theorem decode_eq_unknown_of_no_row (h : ∀ m : Mnemonic, w &&& m.mask ≠ m.matchBits) : decode w = .unknown w := by
  obtain hunknown | ⟨m, -, hm⟩ := followsRow_decode w
  · exact hunknown
  · exact absurd hm (h m)

end

end Sys2Proof
end

