-- ==== Sys2Proof/Proofs/Exceptions.lean ====
section
/-!
PROOFS. The errors of a step (spec/60_exceptions.md R282 to R289): the checks in their order, when a data access halts, and what
a halting step leaves.
-/

namespace Sys2Proof.Machine

variable {s t : State} {o : Result} {i : Instr} {m : Mnemonic}

/-! ### Instructions that complete -/

/-- The instruction answers a next state and leaves the running flag. -/
def Completes (o : Result) (s : State) : Prop := ∃ t, o = .next t ∧ t.running = s.running

theorem Writes.completes {rd : RegIdx} {v pc' : Word} (h : Writes o s rd v pc') : Completes o s := by
  obtain ⟨t, ho, -, -, -, -, hrunning, -⟩ := h
  exact ⟨t, ho, hrunning⟩

theorem Moves.completes {pc' : Word} (h : Moves o s pc') : Completes o s := by
  obtain ⟨t, ho, -, -, -, -, hrunning, -⟩ := h
  exact ⟨t, ho, hrunning⟩

theorem Stores.completes {ea v : Word} {n : Nat} (h : Stores o s ea n v) : Completes o s := by
  obtain ⟨t, ho, -, -, -, -, -, hrunning, -⟩ := h
  exact ⟨t, ho, hrunning⟩

theorem Completes.running_eq (h : Completes o s) (ho : o = .next t) : t.running = s.running := by
  obtain ⟨t', ho', hrunning⟩ := h
  obtain rfl : t = t' := Host.Outcome.next.inj (ho.symm.trans ho')
  exact hrunning

/-! ### The data access of an instruction (R285, R286) -/

/-- The outcome of an instruction with an n-byte access at ea: it completes when the access is inside the window and halts with
r when it is not. -/
def AccessOutcome (o : Result) (s : State) (ea : Word) (n : Nat) (r : HaltReason) : Prop :=
  ∃ t, o = .next t ∧ (inWindow s.cfg ea n = true → t.running = s.running) ∧
    (inWindow s.cfg ea n = false → t.running = false ∧ t.haltReason = some r)

theorem accessOutcome_of_cases {ea : Word} {n : Nat} {r : HaltReason} (hin : inWindow s.cfg ea n = true → Completes o s)
    (hout : inWindow s.cfg ea n = false → ∃ t, o = .next t ∧ t.running = false ∧ t.haltReason = some r) :
    AccessOutcome o s ea n r := by
  cases hw : inWindow s.cfg ea n with
  | true =>
    obtain ⟨t, ho, hrunning⟩ := hin hw
    exact ⟨t, ho, fun _ => hrunning, fun h => absurd (hw.symm.trans h) (by decide)⟩
  | false =>
    obtain ⟨t, ho, hhalted⟩ := hout hw
    exact ⟨t, ho, fun h => absurd (hw.symm.trans h) (by decide), fun _ => hhalted⟩

theorem accessOutcome_load (n : Nat) (ext : BitVec (8 * n) → Word) (rd rs1 : RegIdx) (imm : Word) (s : State) :
    AccessOutcome (load n ext rd rs1 imm s) s (s.x rs1 + imm) n (.readFailed (s.x rs1 + imm)) :=
  accessOutcome_of_cases (fun hw => (writes_load hw).completes) fun hw =>
    have ⟨t, ho, hrunning, hreason, _⟩ := halts_load hw
    ⟨t, ho, hrunning, hreason⟩

theorem accessOutcome_store (n : Nat) (rs1 rs2 : RegIdx) (imm : Word) (s : State) :
    AccessOutcome (store n rs1 rs2 imm s) s (s.x rs1 + imm) n (.writeFailed (s.x rs1 + imm)) :=
  accessOutcome_of_cases (fun hw => (stores_store hw).completes) fun hw =>
    have ⟨t, ho, hrunning, hreason, _⟩ := storeFails_store hw
    ⟨t, ho, hrunning, hreason⟩

/-- An instruction with a data access is the load or the store of its width. -/
theorem accessOutcome_exec {rs1 : RegIdx} {imm : Word} {n : Nat} (ha : i.access? = some (rs1, imm, n)) (s : State) :
    AccessOutcome (exec i s) s (s.x rs1 + imm) n
      (if i.isStore then .writeFailed (s.x rs1 + imm) else .readFailed (s.x rs1 + imm)) := by
  cases i with
  | lb | lh | lw | ld | lbu | lhu | lwu =>
    cases ha
    exact accessOutcome_load ..
  | sb | sh | sw | sd =>
    cases ha
    exact accessOutcome_store ..
  | _ => exact nomatch ha

/-- An instruction with no data access completes, unless it is one that never executes. -/
theorem completes_of_no_access (ha : i.access? = none) (hi : i.mnemonic? = some m) (hm : m ∉ Mnemonic.neverImplemented)
    (s : State) : Completes (exec i s) s := by
  cases i with
  | lb | lh | lw | ld | lbu | lhu | lwu | sb | sh | sw | sd => exact nomatch ha
  | jal | jalr => exact (writes_linkAndJump ..).completes
  | beq | bne | blt | bge | bltu | bgeu => exact (moves_branchIf ..).completes
  | fence | fenceI => exact (moves_sequential s).completes
  | ecall | ebreak | csrrw | csrrs | csrrc | csrrwi | csrrsi | csrrci =>
    cases hi
    exact absurd (by decide) hm
  | unknown => exact nomatch hi
  | _ => exact (writes_writeBack ..).completes

/-! ### The checks before an instruction executes (R282 to R284) -/

theorem halts_of_fetch_error {r : HaltReason} (hr : s.running = true) (hf : fetch s = .error r) : Halts (step s) s r := by
  have hstep : step s = raiseHalt r s := by rw [step, if_pos hr, fetchDecode, hf]
  exact hstep ▸ halts_raiseHalt r s

theorem fetch_of_misaligned (hm : s.cfg.misalignedPc = .halt ∧ s.pc.toNat % 4 ≠ 0) :
    fetch s = .error (.fetchError .misaligned s.pc) := by
  rcases fetch_cases s with ⟨-, -, h⟩ | ⟨hnot, -⟩ | ⟨-, -, hnot, -⟩
  · exact h
  · exact absurd hm hnot
  · exact absurd hm hnot

theorem fetch_of_unmapped (hm : ¬(s.cfg.misalignedPc = .halt ∧ s.pc.toNat % 4 ≠ 0)) (hw : inWindow s.cfg s.pc 4 = false) :
    fetch s = .error (.fetchError .unmapped s.pc) := by
  rcases fetch_cases s with ⟨hhalt, hpc, -⟩ | ⟨-, -, h⟩ | ⟨-, -, -, hlo, hhi, -⟩
  · exact absurd ⟨hhalt, hpc⟩ hm
  · exact h
  · exact absurd (inWindow_iff.2 ⟨hlo, hhi⟩) (by simp [hw])

theorem mayExecute_of_mnemonic (c : Config) (hi : i.mnemonic? = some m) : mayExecute c i = decide (m ∈ c.implemented) := by
  rw [mayExecute, hi]

theorem halts_of_gate (hr : s.running = true) (hf : Fetches s i) (hg : mayExecute s.cfg i = false) :
    Halts (step s) s (.notImplemented i) := by
  rw [step_of_fetches hr hf, hg]
  exact halts_raiseHalt _ s

/-! ### The order of the checks (R288) -/

/-- Settles O13: one lemma for each check, and for the last row the outcome of the instruction's data access. -/
theorem stepPriority : Obligations.StepPriority := by
  refine fun s => ⟨step_of_halted, fun hr hhalt hpc => halts_of_fetch_error hr (fetch_of_misaligned ⟨hhalt, hpc⟩),
    fun hr hm hout => halts_of_fetch_error hr (fetch_of_unmapped hm (inWindow_eq_false_iff.2 hout)),
    fun w hr hf => halts_of_gate hr hf rfl, fun i m hr hf hi himp => halts_of_gate hr hf ?_,
    fun i m hr hf hi himp hm => ?_⟩
  · rw [mayExecute_of_mnemonic s.cfg hi, decide_eq_false himp]
  · have hstep : step s = exec i s := by
      rw [step_of_fetches hr hf, mayExecute_of_mnemonic s.cfg hi, decide_eq_true himp, if_pos rfl]
    rw [hstep]
    cases ha : i.access? with
    | none =>
      obtain ⟨t, ho, hrunning⟩ := completes_of_no_access ha hi hm s
      exact ⟨t, ho, hrunning.trans hr⟩
    | some access =>
      obtain ⟨t, ho, hin, hout⟩ := accessOutcome_exec ha s
      exact ⟨t, ho, fun hw => (hin hw).trans hr, hout⟩

/-! ### What a halting step leaves (R289) -/

/-- The step halts and changes nothing else, with a reason other than WriteFailed, or it is the failing store it fetched. -/
def PreciseHalt (o : Result) (s : State) : Prop :=
  (∃ r, (∀ ea, r ≠ .writeFailed ea) ∧ Halts o s r) ∨
  ∃ rs1 rs2 imm i n,
    (i, n) ∈ [(Instr.sb rs1 rs2 imm, 1), (.sh rs1 rs2 imm, 2), (.sw rs1 rs2 imm, 4), (.sd rs1 rs2 imm, 8)] ∧
    Fetches s i ∧ StoreFails o s (s.x rs1 + imm) n (s.x rs2)

theorem preciseHalt_raiseHalt {r : HaltReason} (hr : ∀ ea, r ≠ .writeFailed ea) (s : State) : PreciseHalt (raiseHalt r s) s :=
  .inl ⟨r, hr, halts_raiseHalt r s⟩

theorem exec_completes_or_preciseHalt (hf : Fetches s i) : Completes (exec i s) s ∨ PreciseHalt (exec i s) s := by
  rcases exec_cases i s with ⟨rd, v, -, -, -, h⟩ | ⟨rd, v, t, -, -, -, h⟩ | ⟨c, t, -, -, h⟩ | ⟨-, -, h⟩ |
    ⟨rs1, rs2, imm, n, hi, -, -, h⟩ | ⟨ea, -, -, h⟩ | ⟨-, -, -, h⟩
  all_goals rw [h]
  · exact .inl (writes_writeBack rd v s).completes
  · exact .inl (writes_linkAndJump rd v t s).completes
  · exact .inl (moves_branchIf c t s).completes
  · exact .inl (moves_sequential s).completes
  · cases hw : inWindow s.cfg (effectiveAddress s rs1 imm) n with
    | true => exact .inl (stores_store hw).completes
    | false => exact .inr (.inr ⟨rs1, rs2, imm, i, n, hi, hf, storeFails_store hw⟩)
  · exact .inr (preciseHalt_raiseHalt (by simp) s)
  · exact .inr (preciseHalt_raiseHalt (by simp) s)

/-- A step leaves the running flag, as a halted machine's does, or halts precisely. -/
theorem step_completes_or_preciseHalt (s : State) : Completes (step s) s ∨ PreciseHalt (step s) s := by
  rcases step_cases s with ⟨-, h⟩ | ⟨-, c, h⟩ | ⟨-, i, -, -, h⟩ | ⟨-, i, hf, -, h⟩
  all_goals rw [h]
  · exact .inl ⟨s, rfl, rfl⟩
  · exact .inr (preciseHalt_raiseHalt (by simp) s)
  · exact .inr (preciseHalt_raiseHalt (by simp) s)
  · exact exec_completes_or_preciseHalt hf

/-- Settles O16: a step from running to halted is a precise halt, and the halted machine's step changes nothing. -/
theorem haltsArePrecise : Obligations.HaltsArePrecise := by
  intro s t hr hs ht
  rcases step_completes_or_preciseHalt s with h | h
  · exact absurd (ht.symm.trans ((h.running_eq hs).trans hr)) (by decide)
  · obtain ⟨r, hne, t', hs', -, hreason, hpc, hregs, hbytes, hcfg, -⟩ |
      ⟨rs1, rs2, imm, i, n, hi, hf, t', hs', -, hreason, hpc, hregs, hcfg, hbytes⟩ := h
    all_goals obtain rfl : t = t' := Host.Outcome.next.inj (hs.symm.trans hs')
    · refine ⟨hpc, hregs, hcfg, step_of_halted ht, r, hreason, ?_⟩
      cases r with
      | writeFailed ea => exact absurd rfl (hne ea)
      | _ => exact hbytes
    · exact ⟨hpc, hregs, hcfg, step_of_halted ht, _, hreason, rs1, rs2, imm, i, n, hi, hf, rfl, hbytes⟩

/-! ### Unknown words (R283) -/

/-- Settles O50: Unknown executes as the gate's halt, and a word of no row decodes as it. -/
theorem unknownWords : Obligations.UnknownWords := by
  intro w s
  obtain ⟨hexec, hstep⟩ := halts_of_exec_eq_raiseHalt (i := .unknown w) (s := s) rfl
  refine ⟨hexec, fun hrow hr hf => hstep hr ?_⟩
  rwa [decode_eq_unknown_of_no_row hrow] at hf

end Sys2Proof.Machine
end

