-- ==== Sys2Proof/Proofs/RoundTrip.lean ====
section
/-!
PROOFS. The decoder against the opcode table and the encoder (spec/30_encoding.md R62 to R69, R82, R92): each row's record, which
row a word matches, and the two round trips between words and records.
-/

namespace Sys2Proof

open Machine

/-! ### The record of each row (R83, R92) -/

/-- The record that the row of a mnemonic gives a word: the fields of the row's format, read from the word. -/
def rowInstr : Mnemonic → InstrWord → Instr
  | .add, w => .add (rdOf w) (rs1Of w) (rs2Of w)
  | .sub, w => .sub (rdOf w) (rs1Of w) (rs2Of w)
  | .slt, w => .slt (rdOf w) (rs1Of w) (rs2Of w)
  | .sltu, w => .sltu (rdOf w) (rs1Of w) (rs2Of w)
  | .xor, w => .xor (rdOf w) (rs1Of w) (rs2Of w)
  | .or, w => .or (rdOf w) (rs1Of w) (rs2Of w)
  | .and, w => .and (rdOf w) (rs1Of w) (rs2Of w)
  | .addi, w => .addi (rdOf w) (rs1Of w) (immI w)
  | .slti, w => .slti (rdOf w) (rs1Of w) (immI w)
  | .sltiu, w => .sltiu (rdOf w) (rs1Of w) (immI w)
  | .xori, w => .xori (rdOf w) (rs1Of w) (immI w)
  | .ori, w => .ori (rdOf w) (rs1Of w) (immI w)
  | .andi, w => .andi (rdOf w) (rs1Of w) (immI w)
  | .lui, w => .lui (rdOf w) (immU w)
  | .auipc, w => .auipc (rdOf w) (immU w)
  | .lb, w => .lb (rdOf w) (rs1Of w) (immI w)
  | .lh, w => .lh (rdOf w) (rs1Of w) (immI w)
  | .lw, w => .lw (rdOf w) (rs1Of w) (immI w)
  | .ld, w => .ld (rdOf w) (rs1Of w) (immI w)
  | .lbu, w => .lbu (rdOf w) (rs1Of w) (immI w)
  | .lhu, w => .lhu (rdOf w) (rs1Of w) (immI w)
  | .lwu, w => .lwu (rdOf w) (rs1Of w) (immI w)
  | .sb, w => .sb (rs1Of w) (rs2Of w) (immS w)
  | .sh, w => .sh (rs1Of w) (rs2Of w) (immS w)
  | .sw, w => .sw (rs1Of w) (rs2Of w) (immS w)
  | .sd, w => .sd (rs1Of w) (rs2Of w) (immS w)
  | .jal, w => .jal (rdOf w) (immJ w)
  | .jalr, w => .jalr (rdOf w) (rs1Of w) (immI w)
  | .beq, w => .beq (rs1Of w) (rs2Of w) (immB w)
  | .bne, w => .bne (rs1Of w) (rs2Of w) (immB w)
  | .blt, w => .blt (rs1Of w) (rs2Of w) (immB w)
  | .bge, w => .bge (rs1Of w) (rs2Of w) (immB w)
  | .bltu, w => .bltu (rs1Of w) (rs2Of w) (immB w)
  | .bgeu, w => .bgeu (rs1Of w) (rs2Of w) (immB w)
  | .sll, w => .sll (rdOf w) (rs1Of w) (rs2Of w)
  | .srl, w => .srl (rdOf w) (rs1Of w) (rs2Of w)
  | .sra, w => .sra (rdOf w) (rs1Of w) (rs2Of w)
  | .slli, w => .slli (rdOf w) (rs1Of w) (shamt6Of w)
  | .srli, w => .srli (rdOf w) (rs1Of w) (shamt6Of w)
  | .srai, w => .srai (rdOf w) (rs1Of w) (shamt6Of w)
  | .addiw, w => .addiw (rdOf w) (rs1Of w) (immI w)
  | .slliw, w => .slliw (rdOf w) (rs1Of w) (shamt5Of w)
  | .srliw, w => .srliw (rdOf w) (rs1Of w) (shamt5Of w)
  | .sraiw, w => .sraiw (rdOf w) (rs1Of w) (shamt5Of w)
  | .addw, w => .addw (rdOf w) (rs1Of w) (rs2Of w)
  | .subw, w => .subw (rdOf w) (rs1Of w) (rs2Of w)
  | .sllw, w => .sllw (rdOf w) (rs1Of w) (rs2Of w)
  | .srlw, w => .srlw (rdOf w) (rs1Of w) (rs2Of w)
  | .sraw, w => .sraw (rdOf w) (rs1Of w) (rs2Of w)
  | .mul, w => .mul (rdOf w) (rs1Of w) (rs2Of w)
  | .mulh, w => .mulh (rdOf w) (rs1Of w) (rs2Of w)
  | .mulhsu, w => .mulhsu (rdOf w) (rs1Of w) (rs2Of w)
  | .mulhu, w => .mulhu (rdOf w) (rs1Of w) (rs2Of w)
  | .div, w => .div (rdOf w) (rs1Of w) (rs2Of w)
  | .divu, w => .divu (rdOf w) (rs1Of w) (rs2Of w)
  | .rem, w => .rem (rdOf w) (rs1Of w) (rs2Of w)
  | .remu, w => .remu (rdOf w) (rs1Of w) (rs2Of w)
  | .mulw, w => .mulw (rdOf w) (rs1Of w) (rs2Of w)
  | .divw, w => .divw (rdOf w) (rs1Of w) (rs2Of w)
  | .divuw, w => .divuw (rdOf w) (rs1Of w) (rs2Of w)
  | .remw, w => .remw (rdOf w) (rs1Of w) (rs2Of w)
  | .remuw, w => .remuw (rdOf w) (rs1Of w) (rs2Of w)
  | .fence, _ => .fence
  | .fenceI, _ => .fenceI
  | .ecall, _ => .ecall
  | .ebreak, _ => .ebreak
  | .csrrw, w => .csrrw (rdOf w) (rs1Of w) (immI w)
  | .csrrs, w => .csrrs (rdOf w) (rs1Of w) (immI w)
  | .csrrc, w => .csrrc (rdOf w) (rs1Of w) (immI w)
  | .csrrwi, w => .csrrwi (rdOf w) (rs1Of w) (immI w)
  | .csrrsi, w => .csrrsi (rdOf w) (rs1Of w) (immI w)
  | .csrrci, w => .csrrci (rdOf w) (rs1Of w) (immI w)

theorem mnemonic?_rowInstr (m : Mnemonic) (w : InstrWord) : (rowInstr m w).mnemonic? = some m := by
  cases m <;> rfl

/-- The mask of ECALL and EBREAK keeps every bit, so only the exact word is in the row (R81). -/
theorem rowDecodes_exactWord {v : InstrWord} {i : Instr} (h : decode v = i) : RowDecodes 0xFFFFFFFF#32 v fun _ => i := by
  intro w hw
  rw [show (0xFFFFFFFF#32) = BitVec.allOnes 32 from rfl, BitVec.and_allOnes] at hw
  rw [hw, h]

/-- The decoder gives every word of a row that row's record, as the statements about the rows have it. -/
theorem rowDecodes_rowInstr (m : Mnemonic) : RowDecodes m.mask m.matchBits (rowInstr m) := by
  obtain ⟨hadd, hsub, hslt, hsltu, hxor, hor, hand, -⟩ := registerArithmetic
  obtain ⟨haddi, hslti, hsltiu, hxori, hori, handi, -⟩ := immediateArithmetic
  obtain ⟨hlb, hlh, hlw, hld, hlbu, hlhu, hlwu, -⟩ := loads
  obtain ⟨hsb, hsh, hsw, hsd, -⟩ := storeInstructions
  obtain ⟨hjal, hjalr, -⟩ := jumps
  obtain ⟨hbeq, hbne, hblt, hbge, hbltu, hbgeu, -⟩ := branches
  obtain ⟨hsll, hsrl, hsra, hslli, hsrli, hsrai, -⟩ := shifts64
  obtain ⟨haddiw, hslliw, hsrliw, hsraiw, -⟩ := wordImmediates
  obtain ⟨haddw, hsubw, hsllw, hsrlw, hsraw, -⟩ := wordRegisterOps
  obtain ⟨hmul, hmulh, hmulhsu, hmulhu, hmulw, -⟩ := multiplies
  obtain ⟨hdiv, hdivu, hrem, hremu, -⟩ := divisions64
  obtain ⟨hdivw, hdivuw, hremw, hremuw, -⟩ := divisions32
  obtain ⟨hfence, hfenceI, -⟩ := fences
  obtain ⟨hcsrrw, hcsrrs, hcsrrc, hcsrrwi, hcsrrsi, hcsrrci, -⟩ := csrInstructions
  have hlui := rowDecodes_maskU 0x37#7 fun _ => decode_of_lui
  have hauipc := rowDecodes_maskU 0x17#7 fun _ => decode_of_auipc
  have hecall : RowDecodes 0xFFFFFFFF#32 0x00000073#32 _ := rowDecodes_exactWord rfl
  have hebreak : RowDecodes 0xFFFFFFFF#32 0x00100073#32 _ := rowDecodes_exactWord rfl
  cases m
  exacts [hadd, hsub, hslt, hsltu, hxor, hor, hand, haddi, hslti, hsltiu, hxori, hori, handi, hlui, hauipc, hlb, hlh, hlw,
    hld, hlbu, hlhu, hlwu, hsb, hsh, hsw, hsd, hjal, hjalr, hbeq, hbne, hblt, hbge, hbltu, hbgeu, hsll, hsrl, hsra, hslli,
    hsrli, hsrai, haddiw, hslliw, hsrliw, hsraiw, haddw, hsubw, hsllw, hsrlw, hsraw, hmul, hmulh, hmulhsu, hmulhu, hdiv,
    hdivu, hrem, hremu, hmulw, hdivw, hdivuw, hremw, hremuw, hfence, hfenceI, hecall, hebreak, hcsrrw, hcsrrs, hcsrrc,
    hcsrrwi, hcsrrsi, hcsrrci]

section

variable {w : InstrWord} {m m' : Mnemonic}

theorem decode_of_row (h : w &&& m.mask = m.matchBits) : decode w = rowInstr m w := rowDecodes_rowInstr m w h

theorem mnemonic?_decode_of_row (h : w &&& m.mask = m.matchBits) : (decode w).mnemonic? = some m := by
  rw [decode_of_row h, mnemonic?_rowInstr]

/-- The decoder gives a word one mnemonic, and every row that the word matches is that mnemonic's. -/
theorem row_unique (h : w &&& m.mask = m.matchBits) (h' : w &&& m'.mask = m'.matchBits) : m = m' :=
  Option.some.inj ((mnemonic?_decode_of_row h).symm.trans (mnemonic?_decode_of_row h'))

/-- All the decoder can answer: the record of the word's row, or Unknown for a word of no row. -/
theorem decode_row_cases (w : InstrWord) :
    (∃ m : Mnemonic, w &&& m.mask = m.matchBits ∧ decode w = rowInstr m w) ∨
    ((∀ m : Mnemonic, w &&& m.mask ≠ m.matchBits) ∧ decode w = .unknown w) := by
  by_cases h : ∃ m : Mnemonic, w &&& m.mask = m.matchBits
  · obtain ⟨m, hm⟩ := h
    exact .inl ⟨m, hm, decode_of_row hm⟩
  · have hnone := not_exists.1 h
    exact .inr ⟨hnone, decode_eq_unknown_of_no_row hnone⟩

end

/-- Settles O6: a row's record has the row's mnemonic, and a word of no row is Unknown. -/
theorem decoderIsTheOpcodeTable : Obligations.DecoderIsTheOpcodeTable := fun _ =>
  ⟨fun _ => mnemonic?_decode_of_row, decode_eq_unknown_of_no_row⟩

/-- Settles O7: both mnemonics are the decoded one. -/
theorem noTwoRowsMatchOneWord : Obligations.NoTwoRowsMatchOneWord := fun _ _ _ => row_unique

/-! ### Well-formed records (R63 to R67, R82) -/

section

variable (w : InstrWord)

theorem fitsImm12_signExtend (v : BitVec 12) : fitsImm12 (v.signExtend 64) = true := by
  rw [fitsImm12, setWidth_signExtend (by decide), beq_self_eq_true]

theorem fitsImm12_immI : fitsImm12 (immI w) = true := fitsImm12_signExtend _

theorem fitsImm12_immS : fitsImm12 (immS w) = true := fitsImm12_signExtend _

/-- The n zeros below a field stand below it still when it is sign-extended (R65 to R67). -/
theorem getLsbD_signExtend_append_zero {m n i : Nat} (x : BitVec m) (hi : i < n) :
    ((x ++ 0#n).signExtend 64).getLsbD i = false := by
  rw [BitVec.getLsbD_signExtend, BitVec.getLsbD_append, if_pos (by omega), if_pos hi, BitVec.getLsbD_zero, Bool.and_false]

theorem fitsImmU_signExtend_append (v : BitVec 20) : fitsImmU ((v ++ 0#12).signExtend 64) = true := by
  have hlow : ((v ++ 0#12).signExtend 64).setWidth 12 = 0#12 :=
    BitVec.eq_of_getLsbD_eq fun i hi => by
      rw [BitVec.getLsbD_setWidth, getLsbD_signExtend_append_zero v hi, Bool.and_false, BitVec.getLsbD_zero]
  rw [fitsImmU, setWidth_signExtend (by decide), hlow]
  simp

theorem fitsImmU_immU : fitsImmU (immU w) = true := fitsImmU_signExtend_append _

theorem fitsImmB_immB : fitsImmB (immB w) = true := by
  rw [fitsImmB, immB, getLsbD_signExtend_append_zero _ Nat.one_pos, setWidth_signExtend (by decide)]
  simp

theorem fitsImmJ_immJ : fitsImmJ (immJ w) = true := by
  rw [fitsImmJ, immJ, getLsbD_signExtend_append_zero _ Nat.one_pos, setWidth_signExtend (by decide)]
  simp

/-- Every row reads the immediate of its own format, or none. -/
theorem wellFormed_rowInstr (m : Mnemonic) : (rowInstr m w).wellFormed = true := by
  cases m with
  | lui | auipc => exact fitsImmU_immU w
  | jal => exact fitsImmJ_immJ w
  | beq | bne | blt | bge | bltu | bgeu => exact fitsImmB_immB w
  | sb | sh | sw | sd => exact fitsImm12_immS w
  | addi | slti | sltiu | xori | ori | andi | lb | lh | lw | ld | lbu | lhu | lwu | jalr | addiw | csrrw | csrrs | csrrc
    | csrrwi | csrrsi | csrrci => exact fitsImm12_immI w
  | _ => rfl

end

theorem Mnemonic.mem_all (m : Mnemonic) : m ∈ Mnemonic.all := by
  cases m <;> decide

theorem matchesNoRow_iff {w : InstrWord} : matchesNoRow w = true ↔ ∀ m : Mnemonic, w &&& m.mask ≠ m.matchBits := by
  simp [matchesNoRow, Mnemonic.matchesWord, Mnemonic.mem_all]

/-- Settles O10: a row's record carries an immediate of its format, and a word of no row is a well-formed Unknown. -/
theorem decodedIsWellFormed : Obligations.DecodedIsWellFormed := by
  intro w
  obtain ⟨m, -, h⟩ | ⟨hnone, h⟩ := decode_row_cases w
  · rw [h]
    exact wellFormed_rowInstr w m
  · rw [h]
    exact matchesNoRow_iff.2 hnone

/-! ### From a word to its record and back (R62 to R68) -/

/-- The low n bits of a sign-extended field are the field. -/
theorem toNat_signExtend_mod {n : Nat} (v : BitVec n) (h : n ≤ 64) : (v.signExtend 64).toNat % 2 ^ n = v.toNat := by
  rw [← BitVec.toNat_setWidth, setWidth_signExtend h]

section Pieces

variable (x12 x11 x20 : BitVec 1) (x10to5 : BitVec 6) (x4to1 : BitVec 4) (x19to12 : BitVec 8) (x10to1 : BitVec 10)
  (rs2 rs1 rd : RegIdx) (f3 : BitVec 3) (op : BitVec 7) {imm : Word} {w : InstrWord}

/-- The pieces of a B immediate (R65). -/
theorem pieces_of_immediateB (h : (x12 ++ x11 ++ x10to5 ++ x4to1 ++ 0#1).signExtend 64 = imm) :
    imm.extractLsb' 12 1 = x12 ∧ imm.extractLsb' 11 1 = x11 ∧ imm.extractLsb' 5 6 = x10to5 ∧
      imm.extractLsb' 1 4 = x4to1 := by
  have hmod := toNat_signExtend_mod (x12 ++ x11 ++ x10to5 ++ x4to1 ++ 0#1) (by decide)
  simp only [h, toNat_append_eq, BitVec.toNat_ofNat] at hmod
  refine ⟨?_, ?_, ?_, ?_⟩
  all_goals
    apply BitVec.eq_of_toNat_eq
    rw [toNat_field]
    omega

/-- The places of a B immediate's pieces in the word (R65). -/
theorem pieces_of_wordB (h : x12 ++ x10to5 ++ rs2 ++ rs1 ++ f3 ++ x4to1 ++ x11 ++ op = w) :
    w.extractLsb' 31 1 = x12 ∧ w.extractLsb' 7 1 = x11 ∧ w.extractLsb' 25 6 = x10to5 ∧ w.extractLsb' 8 4 = x4to1 := by
  have hnumber : BitVec.toNat (w := 1 + 6 + 5 + 5 + 3 + 4 + 1 + 7) _ = w.toNat := congrArg BitVec.toNat h
  simp only [toNat_append_eq] at hnumber
  refine ⟨?_, ?_, ?_, ?_⟩
  all_goals
    apply BitVec.eq_of_toNat_eq
    rw [toNat_field]
    omega

/-- The pieces of a J immediate (R67). -/
theorem pieces_of_immediateJ (h : (x20 ++ x19to12 ++ x11 ++ x10to1 ++ 0#1).signExtend 64 = imm) :
    imm.extractLsb' 20 1 = x20 ∧ imm.extractLsb' 12 8 = x19to12 ∧ imm.extractLsb' 11 1 = x11 ∧
      imm.extractLsb' 1 10 = x10to1 := by
  have hmod := toNat_signExtend_mod (x20 ++ x19to12 ++ x11 ++ x10to1 ++ 0#1) (by decide)
  simp only [h, toNat_append_eq, BitVec.toNat_ofNat] at hmod
  refine ⟨?_, ?_, ?_, ?_⟩
  all_goals
    apply BitVec.eq_of_toNat_eq
    rw [toNat_field]
    omega

/-- The places of a J immediate's pieces in the word (R67). -/
theorem pieces_of_wordJ (h : x20 ++ x10to1 ++ x11 ++ x19to12 ++ rd ++ op = w) :
    w.extractLsb' 31 1 = x20 ∧ w.extractLsb' 12 8 = x19to12 ∧ w.extractLsb' 20 1 = x11 ∧
      w.extractLsb' 21 10 = x10to1 := by
  have hnumber : BitVec.toNat (w := 1 + 10 + 1 + 8 + 5 + 7) _ = w.toNat := congrArg BitVec.toNat h
  simp only [toNat_append_eq] at hnumber
  refine ⟨?_, ?_, ?_, ?_⟩
  all_goals
    apply BitVec.eq_of_toNat_eq
    rw [toNat_field]
    omega

end Pieces

section OfWord

variable (w : InstrWord)

theorem encodeI_fields : encodeI (immI w) (rs1Of w) (funct3Of w) (rdOf w) (opcodeOf w) = w := by
  have himm : (immI w).toNat % 2 ^ 12 = _ := toNat_signExtend_mod (w.extractLsb' 20 12) (by decide)
  have hlt := w.isLt
  apply BitVec.eq_of_toNat_eq
  rw [encodeI_toNat, himm, toNat_field, rs1Of_toNat, funct3Of_toNat, rdOf_toNat, opcodeOf_toNat]
  omega

/-- The S layout is the R layout with the immediate in the places of funct7 and rd. -/
theorem encodeS_fields : encodeS (immS w) (rs2Of w) (rs1Of w) (funct3Of w) (opcodeOf w) = w := by
  have himm : (immS w).toNat % 2 ^ 12 = _ := toNat_signExtend_mod (funct7Of w ++ rdOf w) (by decide)
  rw [toNat_append_eq] at himm
  have hhigh : (immS w).extractLsb' 5 7 = funct7Of w := by
    apply BitVec.eq_of_toNat_eq
    rw [toNat_field]
    omega
  have hlow : (immS w).extractLsb' 0 5 = rdOf w := by
    apply BitVec.eq_of_toNat_eq
    rw [toNat_field]
    omega
  rw [encodeS_eq_encodeR, hhigh, hlow, encodeR_fields]

theorem encodeB_fields : encodeB (immB w) (rs2Of w) (rs1Of w) (funct3Of w) (opcodeOf w) = w := by
  obtain ⟨h12, h11, h10to5, h4to1⟩ := pieces_of_immediateB _ _ _ _ (rfl : _ = immB w)
  have hlt := w.isLt
  rw [encodeB, h12, h11, h10to5, h4to1]
  apply BitVec.eq_of_toNat_eq
  show BitVec.toNat (w := 1 + 6 + 5 + 5 + 3 + 4 + 1 + 7) _ = _
  simp only [toNat_append_eq, toNat_field, rs2Of_toNat, rs1Of_toNat, funct3Of_toNat, opcodeOf_toNat]
  omega

theorem encodeU_fields : encodeU (immU w) (rdOf w) (opcodeOf w) = w := by
  have himm : (immU w).toNat % 2 ^ 32 = _ := toNat_signExtend_mod (w.extractLsb' 12 20 ++ 0#12) (by decide)
  have hlt := w.isLt
  rw [toNat_append_eq, toNat_field, BitVec.toNat_ofNat] at himm
  apply BitVec.eq_of_toNat_eq
  rw [encodeU_toNat, rdOf_toNat, opcodeOf_toNat]
  omega

theorem encodeJ_fields : encodeJ (immJ w) (rdOf w) (opcodeOf w) = w := by
  obtain ⟨h20, h19to12, h11, h10to1⟩ := pieces_of_immediateJ _ _ _ _ (rfl : _ = immJ w)
  have hlt := w.isLt
  rw [encodeJ, h20, h19to12, h11, h10to1]
  apply BitVec.eq_of_toNat_eq
  show BitVec.toNat (w := 1 + 10 + 1 + 8 + 5 + 7) _ = _
  simp only [toNat_append_eq, toNat_field, rdOf_toNat, opcodeOf_toNat]
  omega

end OfWord

section OfRow

variable {w : InstrWord} {f7 : BitVec 7} {f6 : BitVec 6} {f3 : BitVec 3} {op : BitVec 7}

theorem encodeR_of_row (h : w &&& 0xFE00707F#32 = encodeR f7 0 0 f3 0 op) :
    encodeR f7 (rs2Of w) (rs1Of w) f3 (rdOf w) op = w := by
  obtain ⟨rfl, rfl, rfl⟩ := (and_maskR_iff w f7 f3 op).1 h
  exact encodeR_fields w

theorem encodeShift64_of_row (h : w &&& 0xFC00707F#32 = encodeShift64 f6 0 0 f3 0 op) :
    encodeShift64 f6 (shamt6Of w) (rs1Of w) f3 (rdOf w) op = w := by
  obtain ⟨rfl, rfl, rfl⟩ := (and_maskShift64_iff w f6 f3 op).1 h
  exact encodeShift64_fields w

theorem encodeI_of_row (h : w &&& 0x0000707F#32 = encodeR 0 0 0 f3 0 op) :
    encodeI (immI w) (rs1Of w) f3 (rdOf w) op = w := by
  obtain ⟨rfl, rfl⟩ := (and_maskI_iff w f3 op).1 h
  exact encodeI_fields w

theorem encodeS_of_row (h : w &&& 0x0000707F#32 = encodeR 0 0 0 f3 0 op) :
    encodeS (immS w) (rs2Of w) (rs1Of w) f3 op = w := by
  obtain ⟨rfl, rfl⟩ := (and_maskI_iff w f3 op).1 h
  exact encodeS_fields w

theorem encodeB_of_row (h : w &&& 0x0000707F#32 = encodeR 0 0 0 f3 0 op) :
    encodeB (immB w) (rs2Of w) (rs1Of w) f3 op = w := by
  obtain ⟨rfl, rfl⟩ := (and_maskI_iff w f3 op).1 h
  exact encodeB_fields w

theorem encodeU_of_row (h : w &&& 0x0000007F#32 = encodeR 0 0 0 0 0 op) : encodeU (immU w) (rdOf w) op = w := by
  obtain rfl := (and_maskU_iff w op).1 h
  exact encodeU_fields w

theorem encodeJ_of_row (h : w &&& 0x0000007F#32 = encodeR 0 0 0 0 0 op) : encodeJ (immJ w) (rdOf w) op = w := by
  obtain rfl := (and_maskU_iff w op).1 h
  exact encodeJ_fields w

/-- The row fixes the bits that the record does not carry, but for the fences, whose records carry nothing of the fields their
row leaves free (R80). -/
theorem encode_rowInstr {m : Mnemonic} (h : w &&& m.mask = m.matchBits) (hfence : m ≠ .fence) (hfenceI : m ≠ .fenceI) :
    encode (rowInstr m w) = w := by
  cases m with
  | lui | auipc => exact encodeU_of_row h
  | jal => exact encodeJ_of_row h
  | beq | bne | blt | bge | bltu | bgeu => exact encodeB_of_row h
  | sb | sh | sw | sd => exact encodeS_of_row h
  | addi | slti | sltiu | xori | ori | andi | lb | lh | lw | ld | lbu | lhu | lwu | jalr | addiw | csrrw | csrrs | csrrc
    | csrrwi | csrrsi | csrrci => exact encodeI_of_row h
  | slli | srli | srai => exact encodeShift64_of_row h
  | fence => exact absurd rfl hfence
  | fenceI => exact absurd rfl hfenceI
  | ecall | ebreak => exact h.symm.trans BitVec.and_allOnes
  | _ => exact encodeR_of_row h

end OfRow

/-- Settles O9: a record encodes to the word of its row that it was read from, and Unknown carries the whole word. -/
theorem encodeOfDecode : Obligations.EncodeOfDecode := by
  intro w hfence hfenceI
  obtain ⟨m, hm, h⟩ | ⟨-, h⟩ := decode_row_cases w
  · rw [h] at hfence hfenceI ⊢
    exact encode_rowInstr hm (fun e => hfence (e ▸ rfl)) (fun e => hfenceI (e ▸ rfl))
  · rw [h]
    rfl

/-! ### From a record to its word and back (R62 to R68) -/

section OfRecord

variable (imm : Word) (rs2 rs1 rd : RegIdx) (f3 : BitVec 3) (op : BitVec 7)

@[simp] theorem rdOf_encodeI : rdOf (encodeI imm rs1 f3 rd op) = rd := by rw [encodeI_eq_encodeR, rdOf_encodeR]

@[simp] theorem rs1Of_encodeI : rs1Of (encodeI imm rs1 f3 rd op) = rs1 := by rw [encodeI_eq_encodeR, rs1Of_encodeR]

@[simp] theorem rs1Of_encodeS : rs1Of (encodeS imm rs2 rs1 f3 op) = rs1 := by rw [encodeS_eq_encodeR, rs1Of_encodeR]

@[simp] theorem rs2Of_encodeS : rs2Of (encodeS imm rs2 rs1 f3 op) = rs2 := by rw [encodeS_eq_encodeR, rs2Of_encodeR]

@[simp] theorem rs1Of_encodeB : rs1Of (encodeB imm rs2 rs1 f3 op) = rs1 := by rw [encodeB_eq_encodeR, rs1Of_encodeR]

@[simp] theorem rs2Of_encodeB : rs2Of (encodeB imm rs2 rs1 f3 op) = rs2 := by rw [encodeB_eq_encodeR, rs2Of_encodeR]

@[simp] theorem rdOf_encodeU : rdOf (encodeU imm rd op) = rd := by rw [encodeU_eq_encodeR, rdOf_encodeR]

@[simp] theorem rdOf_encodeJ : rdOf (encodeJ imm rd op) = rd := by rw [encodeJ_eq_encodeR, rdOf_encodeR]

variable {imm}

theorem immI_encodeI (h : fitsImm12 imm = true) : immI (encodeI imm rs1 f3 rd op) = imm := by
  have hfield : (encodeI imm rs1 f3 rd op).extractLsb' 20 12 = imm.setWidth 12 := by
    apply BitVec.eq_of_toNat_eq
    rw [toNat_field, encodeI_toNat, BitVec.toNat_setWidth]
    omega
  rw [immI, hfield]
  exact eq_of_beq h

theorem immS_encodeS (h : fitsImm12 imm = true) : immS (encodeS imm rs2 rs1 f3 op) = imm := by
  have hfield : funct7Of (encodeS imm rs2 rs1 f3 op) ++ rdOf (encodeS imm rs2 rs1 f3 op) = imm.setWidth 12 := by
    apply BitVec.eq_of_toNat_eq
    rw [encodeS_eq_encodeR, funct7Of_encodeR, rdOf_encodeR, toNat_append_eq, toNat_field, toNat_field, BitVec.toNat_setWidth]
    omega
  exact (congrArg (BitVec.signExtend 64) hfield).trans (eq_of_beq h)

theorem even_of_getLsbD_zero (h : (!imm.getLsbD 0) = true) : imm.toNat % 2 = 0 := by
  simpa [BitVec.getLsbD, Nat.testBit_zero] using h

theorem immB_encodeB (h : fitsImmB imm = true) : immB (encodeB imm rs2 rs1 f3 op) = imm := by
  obtain ⟨hfits, hbit⟩ := Bool.and_eq_true_iff.1 h
  have heven := even_of_getLsbD_zero hbit
  obtain ⟨h12, h11, h10to5, h4to1⟩ := pieces_of_wordB _ _ _ _ _ _ _ _ (rfl : _ = encodeB imm rs2 rs1 f3 op)
  have hpieces : imm.extractLsb' 12 1 ++ imm.extractLsb' 11 1 ++ imm.extractLsb' 5 6 ++ imm.extractLsb' 1 4 ++ 0#1
      = imm.setWidth 13 := by
    apply BitVec.eq_of_toNat_eq
    simp only [toNat_append_eq, toNat_field, BitVec.toNat_setWidth, BitVec.toNat_ofNat]
    omega
  rw [immB, h12, h11, h10to5, h4to1, hpieces]
  exact eq_of_beq hfits

theorem immU_encodeU (h : fitsImmU imm = true) : immU (encodeU imm rd op) = imm := by
  obtain ⟨hfits, hlow⟩ := Bool.and_eq_true_iff.1 h
  have hzero : imm.toNat % 2 ^ 12 = 0 := by rw [← BitVec.toNat_setWidth, eq_of_beq hlow]; rfl
  have hfield : (encodeU imm rd op).extractLsb' 12 20 ++ 0#12 = imm.setWidth 32 := by
    apply BitVec.eq_of_toNat_eq
    rw [toNat_append_eq, toNat_field, encodeU_toNat, BitVec.toNat_setWidth, BitVec.toNat_ofNat]
    omega
  rw [immU, hfield]
  exact eq_of_beq hfits

theorem immJ_encodeJ (h : fitsImmJ imm = true) : immJ (encodeJ imm rd op) = imm := by
  obtain ⟨hfits, hbit⟩ := Bool.and_eq_true_iff.1 h
  have heven := even_of_getLsbD_zero hbit
  obtain ⟨h20, h19to12, h11, h10to1⟩ := pieces_of_wordJ _ _ _ _ _ _ (rfl : _ = encodeJ imm rd op)
  have hpieces : imm.extractLsb' 20 1 ++ imm.extractLsb' 12 8 ++ imm.extractLsb' 11 1 ++ imm.extractLsb' 1 10 ++ 0#1
      = imm.setWidth 21 := by
    apply BitVec.eq_of_toNat_eq
    simp only [toNat_append_eq, toNat_field, BitVec.toNat_setWidth, BitVec.toNat_ofNat]
    omega
  rw [immJ, h20, h19to12, h11, h10to1, hpieces]
  exact eq_of_beq hfits

end OfRecord

/-- Every instruction's word matches the row of its mnemonic. -/
theorem encodingRow (i : Instr) : Laws.EncodingRow.Statement i := by
  open Laws.EncodingRow in
  cases i
  exacts [add _ _ _, sub _ _ _, slt _ _ _, sltu _ _ _, xor _ _ _, or _ _ _, and _ _ _, addi _ _ _, slti _ _ _, sltiu _ _ _,
    xori _ _ _, ori _ _ _, andi _ _ _, lui _ _, auipc _ _, lb _ _ _, lh _ _ _, lw _ _ _, ld _ _ _, lbu _ _ _, lhu _ _ _,
    lwu _ _ _, sb _ _ _, sh _ _ _, sw _ _ _, sd _ _ _, jal _ _, jalr _ _ _, beq _ _ _, bne _ _ _, blt _ _ _, bge _ _ _,
    bltu _ _ _, bgeu _ _ _, sll _ _ _, srl _ _ _, sra _ _ _, slli _ _ _, srli _ _ _, srai _ _ _, addiw _ _ _, slliw _ _ _,
    srliw _ _ _, sraiw _ _ _, addw _ _ _, subw _ _ _, sllw _ _ _, srlw _ _ _, sraw _ _ _, mul _ _ _, mulh _ _ _, mulhsu _ _ _,
    mulhu _ _ _, div _ _ _, divu _ _ _, rem _ _ _, remu _ _ _, mulw _ _ _, divw _ _ _, divuw _ _ _, remw _ _ _, remuw _ _ _,
    fence, fenceI, ecall, ebreak, csrrw _ _ _, csrrs _ _ _, csrrc _ _ _, csrrwi _ _ _, csrrsi _ _ _, csrrci _ _ _, unknown _]

/-- An instruction's word is decoded as its row's record, which is the instruction when the row reads its operands back. -/
theorem decode_encode_of_read {i : Instr} {m : Mnemonic} (hi : i.mnemonic? = some m) (hread : rowInstr m (encode i) = i) :
    decode (encode i) = i :=
  (decode_of_row (eq_of_beq (encodingRow i m hi))).trans hread

theorem decode_encode {i : Instr} (h : i.wellFormed = true) : decode (encode i) = i := by
  cases i with
  | lui rd imm | auipc rd imm => exact decode_encode_of_read rfl (by simp [encode, rowInstr, immU_encodeU rd _ h])
  | jal rd imm => exact decode_encode_of_read rfl (by simp [encode, rowInstr, immJ_encodeJ rd _ h])
  | beq rs1 rs2 imm | bne rs1 rs2 imm | blt rs1 rs2 imm | bge rs1 rs2 imm | bltu rs1 rs2 imm | bgeu rs1 rs2 imm =>
    exact decode_encode_of_read rfl (by simp [encode, rowInstr, immB_encodeB rs2 rs1 _ _ h])
  | sb rs1 rs2 imm | sh rs1 rs2 imm | sw rs1 rs2 imm | sd rs1 rs2 imm =>
    exact decode_encode_of_read rfl (by simp [encode, rowInstr, immS_encodeS rs2 rs1 _ _ h])
  | addi rd rs1 imm | slti rd rs1 imm | sltiu rd rs1 imm | xori rd rs1 imm | ori rd rs1 imm | andi rd rs1 imm
    | lb rd rs1 imm | lh rd rs1 imm | lw rd rs1 imm | ld rd rs1 imm | lbu rd rs1 imm | lhu rd rs1 imm | lwu rd rs1 imm
    | jalr rd rs1 imm | addiw rd rs1 imm | csrrw rd rs1 imm | csrrs rd rs1 imm | csrrc rd rs1 imm | csrrwi rd rs1 imm
    | csrrsi rd rs1 imm | csrrci rd rs1 imm =>
    exact decode_encode_of_read rfl (by simp [encode, rowInstr, immI_encodeI rs1 rd _ _ h])
  | fence | fenceI | ecall | ebreak => exact decode_encode_of_read rfl rfl
  | unknown w => exact decode_eq_unknown_of_no_row (matchesNoRow_iff.1 h)
  -- the R and the shift layouts carry no immediate
  | _ => exact decode_encode_of_read rfl (by simp [encode, rowInstr])

/-- Settles O8: the word of an instruction stands in its row, and the row's fields of it are the operands. -/
theorem decodeOfEncode : Obligations.DecodeOfEncode := fun _ => decode_encode

/-- Settles O1: each word evaluated. -/
theorem knownWordsDecode : Obligations.KnownWordsDecode := by
  unfold Obligations.KnownWordsDecode
  decide

end Sys2Proof
end

