-- ==== Sys2Proof/Proofs/Frame.lean ====
section
/-!
PROOFS. What an instruction and a step can change (spec/40_execution_cycle.md R100 to R117), and the machine's invariant
(spec/10_state.md R26, R27, R37; spec/20_memory.md R41) from construction on.
-/

namespace Sys2Proof.Machine

variable {s t : State} {i : Instr} {o : Result}

/-! ### Every outcome is a next state (R289, R317) -/

theorem safe_store (n : Nat) (rs1 rs2 : RegIdx) (imm : Word) (s : State) : Safe (store n rs1 rs2 imm s) := by
  rw [store_eq]
  split
  · exact ⟨_, rfl⟩
  · exact ⟨_, rfl⟩

theorem safe_exec (i : Instr) (s : State) : Safe (exec i s) := by
  rcases exec_cases i s with ⟨rd, v, -, -, -, h⟩ | ⟨rd, v, t, -, -, -, h⟩ | ⟨c, t, -, -, h⟩ | ⟨-, -, h⟩ |
    ⟨rs1, rs2, imm, n, -, -, -, h⟩ | ⟨ea, -, -, h⟩ | ⟨-, -, -, h⟩
  case inr.inr.inr.inr.inl => exact h ▸ safe_store n rs1 rs2 imm s
  all_goals exact ⟨_, h⟩

theorem safe_step (s : State) : Safe (step s) := by
  rcases step_cases s with ⟨-, h⟩ | ⟨-, c, h⟩ | ⟨-, i, -, -, h⟩ | ⟨-, i, -, -, h⟩
  · exact ⟨_, h⟩
  · exact ⟨_, h⟩
  · exact ⟨_, h⟩
  · exact h ▸ safe_exec i s

/-- Settles O15: no case of an instruction, and no case of a step, is a fault or a refusal. -/
theorem everyOutcomeIsNext : Obligations.EveryOutcomeIsNext := ⟨safe_step, safe_exec⟩

/-! ### The gate (R104, R115) -/

/-- Settles O12: the gate lets an instruction of IMPLEMENTED execute. -/
theorem stepRunsTheDecodedInstruction : Obligations.StepRunsTheDecodedInstruction := by
  intro s i m hr hf hi himp
  rw [step_of_fetches hr hf, mayExecute_of_mnemonic s.cfg hi, decide_eq_true himp, if_pos rfl]

/-- Settles O26: the three lists, counted, and the default halt of a mnemonic outside the reference set. -/
theorem defaultGate : Obligations.DefaultGate := by
  refine ⟨rfl, rfl, rfl, by decide, Mnemonic.mem_all, fun s i m himp hr hf hi hm => ?_⟩
  have houtside : ∀ m ∈ Mnemonic.backlog ++ Mnemonic.neverImplemented, m ∉ Mnemonic.referenceSet := by decide
  exact haltsByDefault_of_mnemonic hi (houtside m hm) s hr himp hf

/-! ### The frame of an instruction -/

/-- What is said of the state an outcome answers holds of the state it is known to answer. -/
theorem of_next {P : State → Prop} (h : ∃ t', o = .next t' ∧ P t') (ho : o = .next t) : P t := by
  obtain ⟨t', ho', hp⟩ := h
  obtain rfl : t = t' := Host.Outcome.next.inj (ho.symm.trans ho')
  exact hp

/-- The frame of an instruction: its rd, a store's bytes, pc, the running flag and the halt reason are all that can change. -/
structure Frame (i : Instr) (s t : State) : Prop where
  regs : ∀ r : RegIdx, i.dest? ≠ some r → t.x r = s.x r
  bytes : i.isStore = false → SameBytes s t
  cfg : t.cfg = s.cfg
  pc : i.isTransfer = false → t.pc = s.pc + 4 ∨ (t.pc = s.pc ∧ t.running = false)
  control : i.isTransfer = true → t.running = s.running ∧ t.haltReason = s.haltReason

theorem frame_regs_of_writes {rd : RegIdx} {v : Word} (hd : i.dest? = some rd)
    (hx : ∀ r : RegIdx, t.x r = if r = rd ∧ r ≠ 0 then v else s.x r) (r : RegIdx) (hr : i.dest? ≠ some r) :
    t.x r = s.x r := by
  have hne : r ≠ rd := fun h => hr (h ▸ hd)
  rw [hx, if_neg fun h => hne h.1]

theorem exec_frame (ht : exec i s = .next t) : Frame i s t := by
  have not_transfer {p : Prop} (h : i.isTransfer = false) (h' : i.isTransfer = true) : p :=
    absurd (h.symm.trans h') (by decide)
  rcases exec_cases i s with ⟨rd, v, hd, -, hj, h⟩ | ⟨rd, v, pc', hd, -, hj, h⟩ | ⟨c, pc', -, hj, h⟩ | ⟨-, hj, h⟩ |
    ⟨rs1, rs2, imm, n, -, hstore, hj, h⟩ | ⟨ea, -, hj, h⟩ | ⟨-, hj, -, h⟩
  all_goals rw [h] at ht
  · obtain ⟨hx, hpc, hbytes, hcfg, -⟩ := of_next (writes_writeBack rd v s) ht
    exact ⟨frame_regs_of_writes hd hx, fun _ => hbytes, hcfg, fun _ => .inl hpc, not_transfer hj⟩
  · obtain ⟨hx, -, hbytes, hcfg, hrunning, hreason, -⟩ := of_next (writes_linkAndJump rd v pc' s) ht
    exact ⟨frame_regs_of_writes hd hx, fun _ => hbytes, hcfg, fun h => not_transfer h hj,
      fun _ => ⟨hrunning, hreason⟩⟩
  · obtain ⟨hregs, -, hbytes, hcfg, hrunning, hreason, -⟩ := of_next (moves_branchIf c pc' s) ht
    exact ⟨fun r _ => hregs r, fun _ => hbytes, hcfg, fun h => not_transfer h hj, fun _ => ⟨hrunning, hreason⟩⟩
  · obtain ⟨hregs, hpc, hbytes, hcfg, -⟩ := of_next (moves_sequential s) ht
    exact ⟨fun r _ => hregs r, fun _ => hbytes, hcfg, fun _ => .inl hpc, not_transfer hj⟩
  · have not_store {p : Prop} (h : i.isStore = false) : p := absurd (h.symm.trans hstore) (by decide)
    cases hw : inWindow s.cfg (effectiveAddress s rs1 imm) n with
    | true =>
      obtain ⟨-, -, hregs, hpc, hcfg, -⟩ := of_next (stores_store hw) ht
      exact ⟨fun r _ => hregs r, not_store, hcfg, fun _ => .inl hpc, not_transfer hj⟩
    | false =>
      obtain ⟨hhalted, -, hpc, hregs, hcfg, -⟩ := of_next (storeFails_store hw) ht
      exact ⟨fun r _ => hregs r, not_store, hcfg, fun _ => .inr ⟨hpc, hhalted⟩, not_transfer hj⟩
  all_goals
    obtain ⟨hhalted, -, hpc, hregs, hbytes, hcfg, -⟩ := of_next (halts_raiseHalt _ s) ht
    exact ⟨fun r _ => hregs r, fun _ => hbytes, hcfg, fun _ => .inr ⟨hpc, hhalted⟩, not_transfer hj⟩

/-- Settles O17: the frame of each case of an instruction. -/
theorem instructionFrame : Obligations.InstructionFrame := by
  intro i s t ht
  obtain ⟨hregs, hbytes, hcfg, hpc, hcontrol⟩ := exec_frame ht
  refine ⟨hregs, hbytes, hcfg, fun hj hr => ?_, hcontrol⟩
  obtain h | ⟨-, hhalted⟩ := hpc hj
  · exact h
  · exact absurd (hhalted.symm.trans hr) (by decide)

/-- Settles O22: a step that executes an instruction has its frame, and every other step halts or changes nothing. -/
theorem stepKeepsConfig : Obligations.StepKeepsConfig := by
  intro s t hs
  rcases step_cases s with ⟨-, h⟩ | ⟨-, c, h⟩ | ⟨-, i, -, -, h⟩ | ⟨-, i, -, -, h⟩
  all_goals rw [h] at hs
  · rw [Host.Outcome.next.inj hs]
  · rw [← Host.Outcome.next.inj hs, State.halt_cfg]
  · rw [← Host.Outcome.next.inj hs, State.halt_cfg]
  · exact (exec_frame hs).cfg

/-! ### The alignment of pc (R36, R102) -/

theorem toNat_add_four_mod_four {a : Word} (h : a.toNat % 4 = 0) : (a + 4).toNat % 4 = 0 := by
  rw [BitVec.toNat_add, show (4 : Word).toNat = 4 from rfl]
  omega

/-- Settles O23: a misaligned pc halts the step under Halt, and an instruction that is no transfer moves pc by 4 or not at
all. -/
theorem pcAlignment : Obligations.PcAlignment := by
  refine ⟨fun s t hhalt hr hs htr => ?_, fun i s t ht hj hpc => ?_⟩
  · by_contra hmis
    obtain ⟨hhalted, -⟩ := of_next (halts_of_fetch_error hr (fetch_of_misaligned ⟨hhalt, hmis⟩)) hs
    exact absurd (hhalted.symm.trans htr) (by decide)
  · obtain h | ⟨h, -⟩ := (exec_frame ht).pc hj
    · rw [h]
      exact toNat_add_four_mod_four hpc
    · rw [h]
      exact hpc

/-! ### The invariant is kept -/

theorem inv_of_same (h : s.Inv) (hcfg : t.cfg = s.cfg) (hmem : t.mem = s.mem) (hrunning : t.running = s.running)
    (hreason : t.haltReason = s.haltReason) : t.Inv := by
  unfold State.Inv State.memInWindow
  rw [hcfg, hmem, hrunning, hreason]
  exact h

theorem inv_halt (h : s.Inv) (r : HaltReason) : (s.halt r).Inv := by
  obtain ⟨hcfg, hmem, hwindow, -⟩ := h
  exact ⟨hcfg, hmem, hwindow, by simp⟩

/-- A store whose new entries lie in the window, in canonical form, keeps the invariant. -/
theorem inv_of_written (h : s.Inv) (hcfg : t.cfg = s.cfg) (hrunning : t.running = s.running)
    (hreason : t.haltReason = s.haltReason) (hmem : Memory.wf t.mem)
    (hwindow : ∀ c ∈ t.mem, (s.cfg.base ≤ c.1 ∧ c.1 < s.cfg.base + s.cfg.size) ∨ c ∈ s.mem) : t.Inv := by
  obtain ⟨hwf, -, hold, hiff⟩ := h
  unfold State.Inv State.memInWindow
  rw [hcfg, hrunning, hreason]
  exact ⟨hwf, hmem, fun c hc => (hwindow c hc).elim id (hold c), hiff⟩

theorem inv_store {n : Nat} {rs1 rs2 : RegIdx} {imm : Word} (h : s.Inv) (ht : store n rs1 rs2 imm s = .next t) : t.Inv := by
  have ⟨_, hmem, _⟩ := h
  rw [store_eq] at ht
  split at ht
  · rename_i hw
    obtain ⟨hlo, hhi⟩ := inWindow_iff.1 hw
    rw [← Host.Outcome.next.inj ht]
    refine inv_of_written h rfl rfl rfl (Memory.writeLE_wf hmem) fun c hc => (Memory.mem_writeLE hc).imp_left ?_
    rintro ⟨hge, hlt⟩
    omega
  · rw [← Host.Outcome.next.inj ht]
    refine inv_halt ?_ _
    exact inv_of_written h rfl rfl rfl (failedBytes_wf hmem) fun _ => mem_failedBytes

theorem exec_keeps_inv (h : s.Inv) (ht : exec i s = .next t) : t.Inv := by
  rcases exec_cases i s with ⟨rd, v, -, -, -, he⟩ | ⟨rd, v, pc', -, -, -, he⟩ | ⟨c, pc', -, -, he⟩ | ⟨-, -, he⟩ |
    ⟨rs1, rs2, imm, n, -, -, -, he⟩ | ⟨ea, -, -, he⟩ | ⟨-, -, -, he⟩
  all_goals rw [he] at ht
  · rw [← Host.Outcome.next.inj ht]
    exact inv_of_same h (by simp) (by simp) (by simp) (by simp)
  · rw [← Host.Outcome.next.inj ht]
    exact inv_of_same h (by simp) (by simp) (by simp) (by simp)
  · rw [← Host.Outcome.next.inj ht]
    cases c
    · exact inv_of_same h rfl rfl rfl rfl
    · exact inv_of_same h rfl rfl rfl rfl
  · rw [← Host.Outcome.next.inj ht]
    exact inv_of_same h rfl rfl rfl rfl
  · exact inv_store h ht
  · rw [← Host.Outcome.next.inj ht]
    exact inv_halt h _
  · rw [← Host.Outcome.next.inj ht]
    exact inv_halt h _

/-- Settles O18: a halt and an instruction each keep the invariant, and a halted machine does not change. -/
theorem stepKeepsInv : Obligations.StepKeepsInv := by
  intro s t h hs
  rcases step_cases s with ⟨-, he⟩ | ⟨-, c, he⟩ | ⟨-, i, -, -, he⟩ | ⟨-, i, -, -, he⟩
  all_goals rw [he] at hs
  · exact Host.Outcome.next.inj hs ▸ h
  · exact Host.Outcome.next.inj hs ▸ inv_halt h _
  · exact Host.Outcome.next.inj hs ▸ inv_halt h _
  · exact exec_keeps_inv h hs

/-! ### The invariant at construction (spec/70_reset_and_hazards.md R310, R311) -/

section Construct

variable {cfg : Config} {regInit : Vector Word 31} {image : List Byte}

/-- A construction that is not refused meets its preconditions and answers `State.init`. -/
theorem State.eq_init_of_construct (h : State.construct cfg regInit image = some s) :
    image.length ≤ cfg.size ∧ cfg.base + cfg.size ≤ 2 ^ 64 ∧ s = State.init cfg regInit image := by
  unfold State.construct at h
  split at h
  · rename_i hfits
    exact ⟨hfits.1, hfits.2, (Option.some.inj h).symm⟩
  · exact nomatch h

theorem inv_init (hcfg : Config.wf cfg) (hfits : image.length ≤ cfg.size) : (State.init cfg regInit image).Inv := by
  refine ⟨hcfg, Memory.ofImage_wf cfg.base image, fun c hc => ?_, iff_of_true rfl rfl⟩
  obtain ⟨hlo, hhi, -⟩ := Memory.mem_ofImage hc
  rw [State.init_cfg]
  omega

end Construct

/-- Settles O20: the image fits the window. -/
theorem constructionMeetsInv : Obligations.ConstructionMeetsInv := by
  intro cfg regInit image s hcfg h
  obtain ⟨hfits, -, rfl⟩ := State.eq_init_of_construct h
  exact inv_init hcfg hfits

/-- Settles O19: the default configuration is admitted, and the empty image fits. -/
theorem resetMeetsInv : Obligations.ResetMeetsInv := by
  have hcfg : Config.wf Config.default := by decide
  have hreset : State.construct Config.default (Vector.replicate 31 0) [] = some State.reset :=
    State.construct_of_fits _ _ _ (Nat.zero_le _) hcfg.1
  exact ⟨hreset, constructionMeetsInv _ _ _ _ hcfg hreset⟩

/-- Settles O53: pc is `State.init`'s, and at BASE = 2^64 the window is empty, so the first fetch, at 0, is unmapped. -/
theorem constructionPc : Obligations.ConstructionPc := by
  intro cfg regInit image s h
  obtain ⟨-, hwindow, rfl⟩ := State.eq_init_of_construct h
  refine ⟨State.init_pc .., fun hbase => ?_⟩
  have hpc : (State.init cfg regInit image).pc = 0 := by
    rw [State.init_pc, hbase]
    rfl
  have hsize : cfg.size = 0 := by omega
  have hfetch := fetch_of_unmapped (s := State.init cfg regInit image) (fun hmis => hmis.2 (by rw [hpc]; rfl))
    (inWindow_eq_false_of_size_zero (by decide) hsize)
  rw [hpc] at hfetch
  exact ⟨hpc, hsize, halts_of_fetch_error rfl hfetch⟩

/-! ### The driver (R117) -/

/-- Settles O25: by induction on the bound; a step answers a state to go on from. -/
theorem driverEnds : Obligations.DriverEnds := by
  intro k
  induction k with
  | zero => exact fun s => ⟨s, 0, rfl, le_refl 0, .inr rfl⟩
  | succ k ih =>
    intro s
    cases hr : s.running with
    | false => exact ⟨s, k + 1, by simp [drive, hr], le_refl _, .inl hr⟩
    | true =>
      obtain ⟨s', hs⟩ := safe_step s
      obtain ⟨t, n, hd, hn, hend⟩ := ih s'
      exact ⟨t, n, by simp [drive, hr, hs, hd], by omega, hend⟩

end Sys2Proof.Machine
end

