-- ==== Sys2Proof/Proofs/Draws.lean ====
section
/-!
PROOFS. The model's own draw counter (spec/40_execution_cycle.md R116): every operation but a failing write commutes with setting
it, so it reaches nothing but a failing store's bytes.
-/

namespace Sys2Proof.Machine

variable {s t : State} {i : Instr} {d : Nat}

/-! ### The counter set to another value -/

def State.withDraws (s : State) (d : Nat) : State := { s with draws := d }

/-- The outcome with the counter of the state it answers set. -/
def withDraws (d : Nat) : Result → Result
  | .next t => .next (t.withDraws d)
  | .fault r => .fault r
  | .refused r => .refused r

theorem State.setX_withDraws (rd : RegIdx) (v : Word) : (s.withDraws d).setX rd v = (s.setX rd v).withDraws d := by
  unfold State.setX
  split <;> rfl

theorem writeBack_withDraws (rd : RegIdx) (v : Word) : writeBack rd v (s.withDraws d) = withDraws d (writeBack rd v s) := by
  rw [writeBack_eq, State.setX_withDraws]
  rfl

theorem linkAndJump_withDraws (rd : RegIdx) (link pc' : Word) :
    linkAndJump rd link pc' (s.withDraws d) = withDraws d (linkAndJump rd link pc' s) := by
  rw [linkAndJump_eq, State.setX_withDraws]
  rfl

theorem branchIf_withDraws (c : Bool) (pc' : Word) :
    branchIf c pc' (s.withDraws d) = withDraws d (branchIf c pc' s) := by
  cases c <;> rfl

theorem load_withDraws (n : Nat) (ext : BitVec (8 * n) → Word) (rd rs1 : RegIdx) (imm : Word) :
    load n ext rd rs1 imm (s.withDraws d) = withDraws d (load n ext rd rs1 imm s) := by
  have hea : effectiveAddress (s.withDraws d) rs1 imm = effectiveAddress s rs1 imm := rfl
  have hread : busRead (s.withDraws d) (effectiveAddress s rs1 imm) n = busRead s (effectiveAddress s rs1 imm) n := rfl
  unfold load
  rw [hea, hread]
  cases busRead s (effectiveAddress s rs1 imm) n with
  | none => rfl
  | some v => exact writeBack_withDraws rd (ext v)

theorem exec_withDraws (hi : i.isStore = false) : exec i (s.withDraws d) = withDraws d (exec i s) := by
  cases i with
  | lb | lh | lw | ld | lbu | lhu | lwu => exact load_withDraws ..
  | sb | sh | sw | sd => exact nomatch hi
  | jal | jalr => exact linkAndJump_withDraws ..
  | beq | bne | blt | bge | bltu | bgeu => exact branchIf_withDraws ..
  | fence | fenceI | ecall | ebreak | csrrw | csrrs | csrrc | csrrwi | csrrsi | csrrci | unknown => rfl
  | _ => exact writeBack_withDraws ..

/-! ### Outcomes that agree -/

/-- The states two outcomes answer agree on all but the counter, and on the bytes unless the first halted with WriteFailed. -/
def AgreeUnlessStoreFails (o o' : Result) : Prop :=
  ∀ t t', o = .next t → o' = .next t' →
    t'.pc = t.pc ∧ SameRegs t t' ∧ t'.running = t.running ∧ t'.haltReason = t.haltReason ∧ t'.cfg = t.cfg ∧
      ((∀ ea, t.haltReason ≠ some (.writeFailed ea)) → SameBytes t t')

theorem agree_withDraws (o : Result) (d : Nat) : AgreeUnlessStoreFails o (withDraws d o) := by
  rintro t t' rfl ht'
  rw [← Host.Outcome.next.inj ht']
  exact ⟨rfl, fun _ => rfl, rfl, rfl, rfl, fun _ _ => rfl⟩

/-- A store outside the window is the one use of the counter: it draws the bytes it leaves. -/
theorem agree_store (n : Nat) (rs1 rs2 : RegIdx) (imm : Word) :
    AgreeUnlessStoreFails (store n rs1 rs2 imm s) (store n rs1 rs2 imm (s.withDraws d)) := by
  cases hw : inWindow s.cfg (effectiveAddress s rs1 imm) n with
  | true =>
    have hcompletes : store n rs1 rs2 imm (s.withDraws d) = withDraws d (store n rs1 rs2 imm s) := by
      rw [store_eq, store_eq, if_pos hw]
      exact if_pos hw
    exact hcompletes ▸ agree_withDraws _ d
  | false =>
    intro t t' ht ht'
    obtain ⟨hhalted, hreason, hpc, hregs, hcfg, -⟩ := of_next (storeFails_store hw) ht
    obtain ⟨hhalted', hreason', hpc', hregs', hcfg', -⟩ := of_next (storeFails_store (s := s.withDraws d) hw) ht'
    exact ⟨hpc'.trans hpc.symm, fun r => (hregs' r).trans (hregs r).symm, hhalted'.trans hhalted.symm,
      hreason'.trans hreason.symm, hcfg'.trans hcfg.symm, fun hne => absurd hreason (hne _)⟩

theorem agree_exec (i : Instr) (s : State) (d : Nat) : AgreeUnlessStoreFails (exec i s) (exec i (s.withDraws d)) := by
  cases hi : i.isStore with
  | false =>
    rw [exec_withDraws hi]
    exact agree_withDraws _ d
  | true =>
    cases i with
    | sb | sh | sw | sd => exact agree_store _ _ _ _
    | _ => exact nomatch hi

/-- Neither the running flag nor the fetch, the decoding and the gate read the counter. -/
theorem agree_step (s : State) (d : Nat) : AgreeUnlessStoreFails (step s) (step (s.withDraws d)) := by
  have hrunning : (s.withDraws d).running = s.running := rfl
  have hfetch : fetchDecode (s.withDraws d) = fetchDecode s := rfl
  unfold step
  rw [hrunning, hfetch]
  split
  · cases fetchDecode s with
    | error r => exact agree_withDraws (raiseHalt r s) d
    | ok i => exact agree_exec i s d
  · exact agree_withDraws (.next s) d

/-- Settles O24: a step with another counter agrees, a failing store's bytes apart. -/
theorem drawsReachOnlyFailedStores : Obligations.DrawsReachOnlyFailedStores :=
  fun s t t' d => agree_step s d t t'

end Sys2Proof.Machine
end

