-- ==== Sys2Proof/Proofs/ReadBack.lean ====
section
/-!
PROOFS. Reading back what was written (spec/20_memory.md R42, R43, R45, R47, R55) and the observer's dump (spec/10_state.md R38).
-/

namespace Sys2Proof.Machine

variable {s t : State} {a v : Word} {k n : Nat}

/-! ### A read inside a write -/

/-- The bytes of a write, read at an offset inside it, spell the value's bits from that offset on. -/
theorem Memory.readLE_writeLE (m : Memory) (a : Nat) (v : Word) {width : Nat} (h : k + n ≤ width) :
    Memory.readLE (Memory.writeLE m a width v) (a + k) n = v.toNat / 2 ^ (8 * k) % 2 ^ (8 * n) := by
  refine Memory.readLE_of_bytes fun j hj => ?_
  rw [Memory.read_writeLE, if_pos (by omega)]
  congr 2
  omega

/-- The same as bits of the value. -/
theorem ofNat_readLE_writeLE (m : Memory) (a : Nat) (v : Word) {width : Nat} (h : k + n ≤ width) :
    BitVec.ofNat (8 * n) (Memory.readLE (Memory.writeLE m a width v) (a + k) n) = v.extractLsb' (8 * k) (8 * n) := by
  refine BitVec.eq_of_toNat_eq ?_
  rw [Memory.readLE_writeLE m a v h, BitVec.toNat_ofNat, Nat.mod_mod, toNat_field]

/-- A bus read inside a write, whose state may differ in all but the store. -/
theorem busRead_of_written {m : Memory} {b : Word} {width : Nat} (hmem : t.mem = Memory.writeLE m a.toNat width v)
    (hw : inWindow t.cfg b n = true) (hb : b.toNat = a.toNat + k) (h : k + n ≤ width) :
    busRead t b n = some (v.extractLsb' (8 * k) (8 * n)) := by
  rw [busRead_of_inWindow hw, hmem, hb, ofNat_readLE_writeLE m a.toNat v h]

/-- An access that starts inside another of an admitted configuration does not wrap (R311). -/
theorem toNat_add_of_inWindow {c : Config} {width : Nat} (hc : Config.wf c) (hw : inWindow c a width = true) (hk : k < width) :
    (a + BitVec.ofNat 64 k).toNat = a.toNat + k := by
  obtain ⟨hfits, -⟩ := hc
  obtain ⟨hlo, hhi⟩ := inWindow_iff_bounds.1 hw
  rw [BitVec.toNat_add, BitVec.toNat_ofNat]
  omega

/-- Settles O29: the read's address does not wrap, it stays in the window, and its bytes are those of the value. -/
theorem mixedWidthReadBack : Obligations.MixedWidthReadBack := by
  intro s a v hc hw
  refine ⟨_, busWrite_of_inWindow hw, fun k n hn hk => ?_⟩
  have haddr : (a + BitVec.ofNat 64 k).toNat = a.toNat + k := toNat_add_of_inWindow hc hw (by omega)
  have hread : inWindow s.cfg (a + BitVec.ofNat 64 k) n = true := by
    have ⟨hlo, hhi⟩ := inWindow_iff_bounds.1 hw
    rw [inWindow_iff_bounds, haddr]
    omega
  exact busRead_of_written rfl hread haddr hk

/-! ### A fetch of what was stored (R55) -/

theorem fetch_of_busRead {w : InstrWord} (hm : ¬(s.cfg.misalignedPc = .halt ∧ s.pc.toNat % 4 ≠ 0))
    (h : busRead s s.pc 4 = some w) : fetch s = .ok w := by
  rw [fetch, if_neg hm, h]

/-- Settles O30: an SW that leaves the machine running has written its four bytes, in the window that the fetch checks. -/
theorem fetchSeesTheStore : Obligations.FetchSeesTheStore := by
  intro s t rs1 rs2 imm ht hr hm
  cases hw : inWindow s.cfg (effectiveAddress s rs1 imm) 4 with
  | false =>
    obtain ⟨hhalted, -⟩ := of_next (storeFails_store hw) ht
    exact absurd (hhalted.symm.trans hr) (by decide)
  | true =>
    have hstore : store 4 rs1 rs2 imm s = .next t := ht
    rw [store_eq, if_pos hw] at hstore
    obtain rfl := Host.Outcome.next.inj hstore
    rw [show (s.x rs2).setWidth 32 = _ from low32_eq_extractLsb' (s.x rs2)]
    exact fetch_of_busRead hm (busRead_of_written (k := 0) rfl hw rfl (le_refl 4))

/-! ### The observer's dump (R38, R287) -/

/-- Settles O31: the dump makes the bus's check and reads the bytes one by one. -/
theorem observerDump : Obligations.ObserverDump := by
  intro s a n
  refine ⟨fun hout => if_neg (by rw [inWindow_eq_false_iff.2 hout]; decide), fun hlo hhi =>
    ⟨_, if_pos (inWindow_iff.2 ⟨hlo, hhi⟩), by simp, fun k hk => ?_⟩⟩
  simp [hk, State.byteAt_eq]

end Sys2Proof.Machine
end

