-- ==== Sys2Proof/Proofs/Assembler.lean ====
section
/-!
PROOFS. The assembler's view: the parts of an offset, the expansions of li and la (spec/30_encoding.md R87), and the CSR names
(spec/46_system_csr.md R270).
-/

namespace Sys2Proof.Machine

/-! ### The parts as integers -/

/-- The low part of an offset is its distance from the nearest multiple of 4096, a tie going up. -/
theorem loPart_toInt (off : Word) : (loPart off).toInt = (off.toInt + 2048) % 4096 - 2048 := by
  rw [loPart, toInt_sext64 _ (by decide), BitVec.toInt_setWidth, BitVec.toInt_eq_toNat_cond, Int.bmod_def]
  have := off.isLt
  split_ifs <;> omega

/-- The high part is that multiple, reduced to 32 bits. -/
theorem hiPart_toInt (off : Word) :
    (hiPart off).toInt = Int.bmod (off.toInt + 2048 - (off.toInt + 2048) % 4096) (2 ^ 32) := by
  have hnumber : (((off + 0x800#64).extractLsb' 12 20 ++ 0#12).toNat : Int)
      = (off.toInt + 2048 - (off.toInt + 2048) % 4096) % 2 ^ 32 := by
    rw [toNat_append_eq, toNat_field, BitVec.toNat_add, BitVec.toInt_eq_toNat_cond]
    simp only [BitVec.toNat_ofNat]
    have := off.isLt
    split_ifs <;> omega
  rw [hiPart, toInt_sext64 _ (by decide), BitVec.toInt_eq_toNat_bmod, hnumber]
  exact Int.emod_bmod _ (2 ^ 32)

/-- Over the range of R87 the multiple is a signed 32-bit value. -/
theorem hiPart_toInt_of_range {off : Word} (hlo : -2 ^ 31 ≤ off.toInt) (hhi : off.toInt ≤ 2 ^ 31 - 2049) :
    (hiPart off).toInt = off.toInt + 2048 - (off.toInt + 2048) % 4096 := by
  rw [hiPart_toInt]
  exact Int.bmod_eq_of_le (by omega) (by omega)

/-- Over that range the parts add up. -/
theorem loPart_eq_sub {off : Word} (hlo : -2 ^ 31 ≤ off.toInt) (hhi : off.toInt ≤ 2 ^ 31 - 2049) :
    loPart off = off - hiPart off := by
  refine BitVec.eq_of_toInt_eq ?_
  rw [BitVec.toInt_sub, hiPart_toInt_of_range hlo hhi, loPart_toInt]
  refine Eq.trans ?_ (Int.bmod_eq_of_le ?_ ?_).symm
  all_goals omega

/-- For every offset they add up modulo 2^32. -/
theorem low32_hiPart_add_loPart (off : Word) : low32 (hiPart off + loPart off) = low32 off := by
  have hhi := hiPart_toInt off
  have hlo := loPart_toInt off
  have hoff := off.isLt
  refine BitVec.eq_of_toNat_eq ?_
  rw [low32_toNat, low32_toNat, BitVec.toNat_add]
  rw [Int.bmod_def] at hhi
  simp only [BitVec.toInt_eq_toNat_cond] at hhi hlo
  split_ifs at hhi hlo <;> omega

/-- A signed 32-bit value is the sign extension of its low 32 bits. -/
theorem sextWord_low32_of_range {imm : Word} (hlo : -2 ^ 31 ≤ imm.toInt) (hhi : imm.toInt < 2 ^ 31) :
    sextWord (low32 imm) = imm := by
  refine BitVec.eq_of_toInt_eq ?_
  have hmod : Int.bmod imm.toInt (2 ^ 32) = Int.bmod imm.toNat (2 ^ 32) := by
    rw [BitVec.toInt_eq_toNat_bmod]
    exact Int.bmod_bmod_of_dvd (by decide)
  rw [sextWord_toInt _ (by decide), low32_toInt, ← hmod]
  exact Int.bmod_eq_of_le (by omega) (by omega)

/-! ### The expansions -/

/-- Two write-backs to one register other than x0, the second from what the first left there. -/
theorem x_of_writeBack_twice {s : State} {rd : RegIdx} (hrd : rd ≠ 0) (v : Word) (f : Word → Word) :
    ∃ t u, writeBack rd v s = .next t ∧ writeBack rd (f (t.x rd)) t = .next u ∧ u.x rd = f v := by
  refine ⟨_, _, rfl, rfl, ?_⟩
  rw [State.sequential_x, State.x_setX_self _ _ hrd, State.sequential_x, State.x_setX_self _ _ hrd]

/-- Settles O52: the parts fit by their shape, and each expansion writes the sum of the parts, for li cut to 32 bits. -/
theorem pseudoParts : Obligations.PseudoParts := by
  refine ⟨fun off => ⟨fitsImmU_signExtend_append _, fitsImm12_signExtend _⟩, fun _ => loPart_eq_sub,
    fun s rd imm hrd hlo hhi => ?_, fun s rd off hrd hlo hhi => ?_⟩
  · have hvalue : sextWord (low32 (hiPart imm + loPart imm)) = imm := by
      rw [low32_hiPart_add_loPart, sextWord_low32_of_range hlo hhi]
    obtain ⟨t, u, ht, hu, hx⟩ := x_of_writeBack_twice (s := s) hrd (hiPart imm) fun v => sextWord (low32 (v + loPart imm))
    exact ⟨t, u, ht, hu, hx.trans hvalue⟩
  · have hvalue : s.pc + hiPart off + loPart off = s.pc + off := by
      rw [loPart_eq_sub hlo hhi, BitVec.add_assoc, BitVec.add_comm (hiPart off), BitVec.sub_add_cancel]
    obtain ⟨t, u, ht, hu, hx⟩ := x_of_writeBack_twice (s := s) hrd (s.pc + hiPart off) fun v => v + loPart off
    exact ⟨t, u, ht, hu, hx.trans hvalue⟩

/-! ### The CSR names (spec/46_system_csr.md R270) -/

/-- Settles O51: the three numbers, and the table's last branch for every other. -/
theorem csrSymbolicTable : Obligations.CsrSymbolicTable :=
  ⟨rfl, rfl, rfl, fun _ hmstatus hmisa hmhartid => (if_neg hmstatus).trans ((if_neg hmisa).trans (if_neg hmhartid))⟩

end Sys2Proof.Machine
end
